-- ==== Sys2Proof/Word.lean ====
section
/-! DEFINITION. The plain value types of the PicInterpreter: a stream byte, an EGA index, a pixel position and a pen
(spec/00_scope.md R7, R8, R9). -/

namespace Sys2Proof

/-- One byte of the stream, 8 bits, bit 7 the most significant (R7). -/
abbrev Byte := BitVec 8

/-- An EGA index, "4-bit value 0..15" (R9); the content of one framebuffer cell (R21). -/
abbrev Ega := BitVec 4

/-- A pixel position or a running coordinate. `x` grows to the right and `y` downward (R7); both are unbounded signed
integers (R7, R92, decision D19; log entry 25). -/
structure Point where
  x : Int
  y : Int
deriving DecidableEq, Repr, Inhabited

/-- A pen `(a, b)`, an ordered pair of EGA indices (R7, R9). -/
structure Pen where
  a : Ega
  b : Ega
deriving DecidableEq, Repr, Inhabited

end Sys2Proof
end

