-- ==== Sys2Proof/Config.lean ====
section
/-! DEFINITION. The configuration (spec/00_scope.md R6): what the host sets while the block is in reset (R182, R183), as plain
data. What the spec fixes about a configuration holds of every value of these types, or is put on top of them in
Machine/Params.lean and Machine/Stamp.lean (R20, R129, R130, R133). The constant at the end has no body, so nothing in Lean
can evaluate it or prove a value of it. -/

namespace Sys2Proof

/-- A formula over a stamp position, for one coordinate of a clamp (R130). Division by zero gives zero. -/
inductive ClampTerm where
  /-- The column of the position. -/
  | x
  /-- The row of the position. -/
  | y
  | const (v : Int)
  | add (a b : ClampTerm)
  | sub (a b : ClampTerm)
  | mul (a b : ClampTerm)
  | div (a b : ClampTerm)
  | mod (a b : ClampTerm)
  /-- `less` where `a < b`, else `other`. -/
  | ifLess (a b less other : ClampTerm)
deriving DecidableEq, Repr, Inhabited

/-- `ClampStamp` for one size and shape (R130): the two coordinates of the clamped position. Whatever clamp the host has in
mind, on the positions of any one run some such formulas give it (`exists_clampTerm`; log entry 22). -/
structure StampClamp where
  column : ClampTerm
  row : ClampTerm
deriving DecidableEq, Repr, Inhabited

/-- A circle's bitmask (R129): the pixels in the mask, in the stamp's visiting order, where it stands at one place of the
canvas, the stamp position that puts it there, and its clamp. A mask that R130 allows fits on the canvas somewhere, so each
can be given so, the empty mask among them; that a mask holds each pixel once is the model's (log entry 22). -/
structure Circle where
  cells : List (Fin 320 × Fin 190)
  anchor : Point
  clamp : StampClamp
deriving DecidableEq, Repr, Inhabited

/-- A rectangle (R129), where it stands at one place of the canvas: two opposite corners, which give its width and height; the
order in which its pixels are visited; the stamp position that puts it there; and its clamp. DESIGN CHOICE, unsafe (log entry
22): two corners have at least one pixel between them, so no rectangle is empty, where the spec leaves width and height open
for every size (R129, N3). -/
structure Rectangle where
  corner : Fin 320 × Fin 190
  opposite : Fin 320 × Fin 190
  order : List (Fin 320 × Fin 190)
  anchor : Point
  clamp : StampClamp
deriving DecidableEq, Repr, Inhabited

/-- `PatternConfig` (R129 to R131; decision D18, log entry 22). -/
structure PatternConfig where
  /-- The circles of sizes 1 to 7; the spec fixes the mask of size 0 (R133). -/
  circles : Vector Circle 7
  /-- The clamp of the circle of size 0 outside the canvas; the spec fixes it inside (R133). -/
  dotClamp : StampClamp
  /-- The rectangles of sizes 0 to 7. -/
  rectangles : Vector Rectangle 8
  /-- `TEX`, the 32 bytes of the texture bitmap (R131). -/
  texture : Vector Byte 32
  /-- `TEX_START`, the 128 start positions; a position is in `0..253` (R131; decision D29, log entry 24). -/
  textureStart : Vector (Fin 254) 128
deriving DecidableEq, Repr, Inhabited

/-- What the host configures (R182, R183). -/
structure Configuration where
  /-- Colour bytes 1 to 39 of `DEFAULT_PALETTE`; the spec fixes entry 0 (R20; log entry 3). -/
  defaultPalette : Vector Byte 39
  pattern : PatternConfig
deriving DecidableEq, Repr, Inhabited

/-- The configuration of the block before the host has set one (log entry 39). -/
opaque Config.initial : Configuration

end Sys2Proof
end

