-- ==== Sys2Proof/Machine/Params.lean ====
section
/-! DEFINITION. The numbers the source fixes (spec/00_scope.md R5; "numeric literals are unaudited", U16, log entry 38) and
the default palette with the one entry the spec fixes (R20). -/

namespace Sys2Proof.Machine

/-- `FB_W`. -/
def fbW : Nat := 320

/-- `FB_H`. -/
def fbH : Nat := 190

/-- The number of framebuffer cells, 60800 (R21). -/
def fbCells : Nat := fbW * fbH

/-- `BG`, the background and clear colour. -/
def background : Ega := 0xF

/-- `FILL_BOUND`, the most pending sites of a fill (R113). -/
def fillBound : Nat := 32768

/-- `CMD_MIN`: a byte at or above it is a command (R55). -/
def cmdMin : Nat := 0xF0

/-- `HDR0` (R51). -/
def hdr0 : Byte := 0x81

/-- `HDR1` (R51). -/
def hdr1 : Byte := 0x00

/-- `BANK_SIZE` (R18). -/
def bankSize : Nat := 40

/-- `TEX_WRAP` (R131). -/
def texWrap : Nat := 254

/-- `X_CLAMP`'s upper end (R58). -/
def xMax : Int := 319

/-- `Y_CLAMP`'s upper end (R58). -/
def yMax : Int := 189

/-- `DEFAULT_PALETTE[k]`: entry 0 is the pen (0,0) (R20); the others are the configuration's (log entry 3). -/
def defaultPen (c : Configuration) (k : Fin 40) : Byte :=
  if h : k.val = 0 then 0x00 else c.defaultPalette[k.val - 1]'(by omega)

/-- The palette right after reset: the default palette in each of the four banks (R20). -/
def resetPalette (c : Configuration) : Vector Byte 160 :=
  Vector.ofFn (fun i => defaultPen c ⟨i.val % 40, Nat.mod_lt _ (by decide)⟩)

end Sys2Proof.Machine
end

