-- ==== Sys2Proof/Machine/State.lean ====
section
/-! DEFINITION. The machine's state (spec/10_state.md R10), the reasons a step of the model can stop, and the state after
reset (R26, R180). -/

namespace Sys2Proof.Machine

/-- The control register `status` (R15). -/
inductive Status where
  /-- The block is executing the stream. -/
  | running
  /-- `pictureEnd` stopped it successfully. -/
  | halted
  /-- A fault stopped it. -/
  | faulted
deriving DecidableEq, Repr

/-- What the register `fault` holds (R16), with the names of R161. These are faults of the HARDWARE: raising one is a next
state (R170, `takeFault`). -/
inductive FaultCode where
  | noFault
  | invalidResource
  | unknownOpcode
  | unknownExtendedOpcode
  | invalidPaletteBank
  | invalidPaletteIndex
  | unexpectedEnd
  | fillStackOverflow
  | outOfBounds
  | penUnset
deriving DecidableEq, Repr

/-- Why a step of the MODEL stops with a fault of its own. -/
inductive Fault where
  /-- Raised by `floodFill` when its loop has used the 60800 pops that R114 allows and sites are still pending. By R114 no
  fill does that (`fillLoop_not_stuck`), so no step answers it. Safe: the model would stop where the hardware goes on. -/
  | fillWorkBound
deriving DecidableEq, Repr

/-- Why a step of the model refuses. -/
inductive Refusal where
  /-- Raised by an arm of `exec` for an instruction without a meaning; no arm does. Safe. -/
  | notModelled (mnemonic : String)
  /-- Raised by `step` when no row of the opcode table matches. By R64 every byte matches one
  (`decode_ok_of_nonempty`), so no step answers it. Safe. -/
  | undecodable
deriving DecidableEq, Repr

/-- The framebuffer's content: pairs of a linear address `y * 320 + x` (R22) and the EGA index of that cell, addresses
strictly rising, no entry equal to the clear colour 0xF, which an unlisted cell holds (R21, R26, R38; log entry 2). -/
abbrev Framebuffer := List (Nat × Ega)

/-- The whole state (R10, R28), with the stream memory that R30 gives the machine and the configuration that the host has
set (R182, R183; log entry 39). Nothing else persists between commands. -/
structure State where
  /-- The configuration, written by the host in reset and by nothing else (R6, R183, R184). -/
  config : Configuration
  /-- The stream memory, bytes `0..LEN-1` (R30, R31). `LEN` is its length (log entry 1). -/
  prog : List Byte
  /-- The program counter: the index of the next byte to fetch (R11). -/
  pos : Nat
  /-- The current pen, or "no value" (R12). -/
  pen : Option Pen
  /-- The one flag (R13). -/
  visualEnabled : Bool
  /-- The pattern flag byte (R14). -/
  patternFlags : Byte
  /-- R15. -/
  status : Status
  /-- R16. -/
  fault : FaultCode
  /-- The palette, one packed pen a slot (R17, R18). -/
  pal : Vector Byte 160
  /-- The lock bits of bank 0 (R19). -/
  locked : Vector Bool 40
  /-- The framebuffer (R21, R22). -/
  fb : Framebuffer
deriving DecidableEq, Repr

/-- The machine right after reset (R26, R180), before the first byte is examined. The stream and the configuration are
what the host placed; here they are the empty stream and the one before any host's (log entries 1, 39). -/
def State.reset : State where
  config := Config.initial
  prog := []
  pos := 0
  pen := none
  visualEnabled := true
  patternFlags := 0
  status := .running
  fault := .noFault
  pal := resetPalette Config.initial
  locked := Vector.replicate 40 false
  fb := []

end Sys2Proof.Machine
end

