-- ==== Sys2Proof/Machine/Ops.lean ====
section
/-! DEFINITION. The named operations over the state that every meaning is made of: field updates, taking a fault, reset,
fetching, the framebuffer, the palette and the locks (spec/00_scope.md R8, spec/20_memory.md, spec/60_exceptions.md R170). -/

namespace Sys2Proof.Machine

/-! ### Field updates -/

def State.setPos (s : State) (v : Nat) : State := { s with pos := v }
def State.setPen (s : State) (v : Option Pen) : State := { s with pen := v }
def State.setVisual (s : State) (v : Bool) : State := { s with visualEnabled := v }
def State.setFlags (s : State) (v : Byte) : State := { s with patternFlags := v }
def State.setStatus (s : State) (v : Status) : State := { s with status := v }
def State.setFault (s : State) (v : FaultCode) : State := { s with fault := v }
def State.setPal (s : State) (v : Vector Byte 160) : State := { s with pal := v }
def State.setLocked (s : State) (v : Vector Bool 40) : State := { s with locked := v }
def State.setFb (s : State) (v : Framebuffer) : State := { s with fb := v }

/-! ### Faults -/

/-- The number of a fault (R161). -/
def faultNumber : FaultCode → Nat
  | .noFault => 0
  | .invalidResource => 1
  | .unknownOpcode => 2
  | .unknownExtendedOpcode => 3
  | .invalidPaletteBank => 4
  | .invalidPaletteIndex => 5
  | .unexpectedEnd => 6
  | .fillStackOverflow => 7
  | .outOfBounds => 8
  | .penUnset => 9

/-- Fault entry (R170): `fault <- code(F); status <- Faulted`, and nothing else changes. -/
def takeFault (f : FaultCode) (s : State) : State :=
  (s.setFault f).setStatus .faulted

/-- Reset asserted by the host (R180, R183): every register and memory cell at its reset value, the default palette of the
configuration loaded; the stream and the configuration are as the host has placed them. It is the only way out of `Halted` and `Faulted`; there is no return from a fault (R173). -/
def assertReset (s : State) : State :=
  { State.reset with prog := s.prog, config := s.config, pal := resetPalette s.config }

/-- What a part of a command comes to. -/
inductive Flow (α : Type) where
  /-- It went on, with a value, in this state. -/
  | done (a : α) (s : State)
  /-- A fault was raised; this is the state after fault entry. Nothing after it is executed (R8). -/
  | raised (s : State)
  /-- The model stops, for a reason of its own. -/
  | stuck (r : Fault)

/-- First this, then that. -/
def Flow.bind {α β : Type} (x : Flow α) (f : α → State → Flow β) : Flow β :=
  match x with
  | .done a s => f a s
  | .raised s => .raised s
  | .stuck r => .stuck r

/-- Forget the value. -/
def Flow.void {α : Type} (x : Flow α) : Flow Unit :=
  x.bind fun _ s => .done () s

/-- The outcome of a whole command: a fault of the hardware is a next state too (R170; log entry 9). -/
def Flow.outcome {α : Type} (x : Flow α) : Host.Outcome State Fault Refusal :=
  match x with
  | .done _ s => .next s
  | .raised s => .next s
  | .stuck r => .fault r

/-- `raise F` (R8, R170). -/
def raise {α : Type} (f : FaultCode) (s : State) : Flow α :=
  .raised (takeFault f s)

/-! ### The stream -/

/-- `Fetch()` (R8, R11, R167): the byte at `pos`, and `pos` advances by 1; at the end of the stream UnexpectedEnd. -/
def fetch (s : State) : Flow Byte :=
  match s.prog[s.pos]? with
  | some b => .done b (s.setPos (s.pos + 1))
  | none => raise .unexpectedEnd s

/-- `NextIsCommand()` (R55). -/
def nextIsCommand (s : State) : Bool :=
  match s.prog[s.pos]? with
  | some b => decide (cmdMin ≤ b.toNat)
  | none => true

/-- How many bytes of the stream have not been fetched. -/
def bytesLeft (s : State) : Nat :=
  s.prog.length - s.pos

/-- The bytes from the program counter on: what the main loop decodes (R70). -/
def instructionBytes (s : State) : List Byte :=
  s.prog.drop s.pos

/-- The header check (R51, R162). Reading a byte at or past `LEN` gives none, which is not the header byte. -/
def headerCheck (s : State) : State :=
  if s.prog.length < 2 ∨ s.prog[0]? ≠ some hdr0 ∨ s.prog[1]? ≠ some hdr1 then
    takeFault .invalidResource s
  else
    s.setPos 2

/-! ### The framebuffer -/

/-- Inside the canvas (R36). -/
def onCanvas (p : Point) : Bool :=
  decide (0 ≤ p.x) && decide (p.x < fbW) && decide (0 ≤ p.y) && decide (p.y < fbH)

/-- The linear address of a pixel inside the canvas (R22). -/
def address (p : Point) : Nat :=
  (p.y * fbW + p.x).toNat

/-- The cell at address `a`: an unlisted cell holds the clear colour (R26, R38). -/
def fbGet (a : Nat) : Framebuffer → Ega
  | [] => background
  | (k, v) :: rest => if a = k then v else fbGet a rest

/-- The listing of one cell, none where it holds the clear colour. -/
def fbEntry (a : Nat) (v : Ega) : Framebuffer :=
  if v = background then [] else [(a, v)]

/-- The framebuffer with cell `a` set to `v`, in the canonical form. -/
def fbPut (a : Nat) (v : Ega) : Framebuffer → Framebuffer
  | [] => fbEntry a v
  | (k, w) :: rest =>
    if a < k then fbEntry a v ++ (k, w) :: rest
    else if a = k then fbEntry a v ++ rest
    else (k, w) :: fbPut a v rest

/-- Every address of `m` is above `a`. -/
def fbAbove (a : Nat) (m : Framebuffer) : Bool :=
  m.all fun c => decide (a < c.1)

/-- The canonical form: addresses of the canvas, strictly rising, no entry at the clear colour. -/
def Memory.wf : Framebuffer → Bool
  | [] => true
  | (k, v) :: rest => decide (k < fbCells) && decide (v ≠ background) && fbAbove k rest && Memory.wf rest

/-- `FbRead(x, y)` (R8, R36; decision D4, log entry 10). -/
def fbRead (p : Point) (s : State) : Flow Ega :=
  if onCanvas p then .done (fbGet (address p) s.fb) s else raise .outOfBounds s

/-- `FbWrite(x, y, v)` (R8, R36; decision D4, log entry 10). -/
def fbWrite (p : Point) (v : Ega) (s : State) : Flow Unit :=
  if onCanvas p then .done () (s.setFb (fbPut (address p) v s.fb)) else raise .outOfBounds s

/-! ### The palette and the locks -/

/-- `pal[i] <- c` (R17). -/
def writeSlot (i : Fin 160) (c : Byte) (s : State) : State :=
  s.setPal (s.pal.set i c)

/-- `locked[i] <- 1` where `i < 40` (R19, R142); a slot of another bank has no lock bit. -/
def lockSlot (i : Fin 160) (s : State) : State :=
  if h : i.val < 40 then s.setLocked (s.locked.set i.val true h) else s

/-- The lock coercion of a palette index (R72, R143). -/
def coerceSlot (c : Fin 160) (s : State) : Fin 160 :=
  if s.locked[c.val % 40]'(Nat.mod_lt _ (by decide)) then
    ⟨c.val % 40, Nat.lt_of_lt_of_le (Nat.mod_lt _ (by decide)) (by decide)⟩
  else c

end Sys2Proof.Machine
end

