-- ==== Sys2Proof/Machine/Flags.lean ====
section
/-! DEFINITION. The pattern flag byte's fields (spec/10_state.md R14, spec/43_patterns.md R127) and the one flag of the
machine, `visualEnabled` (R13). There are no condition codes. -/

namespace Sys2Proof.Machine

/-- `patternFlags[5]`, "use-texture". -/
def usesTexture (f : Byte) : Bool := f.getLsbD 5

/-- `patternFlags[4]`, "rectangle shape (else circle)". -/
def isRectangle (f : Byte) : Bool := f.getLsbD 4

/-- `patternFlags[2:0]`, "size 0..7". Bits 7, 6 and 3 are read by nothing (decision D22, log entry 26). -/
def patternSize (f : Byte) : Fin 8 := ⟨f.toNat % 8, Nat.mod_lt _ (by decide)⟩

/-- `visualEnabled <- true` (R72). -/
def enableVisual (s : State) : State := s.setVisual true

/-- `visualEnabled <- false` (R73). -/
def blankVisual (s : State) : State := s.setVisual false

end Sys2Proof.Machine
end

