-- ==== Sys2Proof/Machine/Operands.lean ====
section
/-! DEFINITION. The operand encodings (spec/30_encoding.md R52 to R59), each with the encoder that R65 gives, the fetching of
each operand form, and the repetition of payload elements (R54). -/

namespace Sys2Proof.Machine

/-! ### Numbers -/

/-- `clamp(v, lo, hi)` (R7). -/
def clamp (v lo hi : Int) : Int :=
  if v < lo then lo else if hi < v then hi else v

/-- A number of the given magnitude, negative where the sign bit is set (R7; decision D9, log entry 14). -/
def signMagnitude (sign : Bool) (magnitude : Nat) : Int :=
  if sign then -(magnitude : Int) else magnitude

/-- `smag_4(n)` (R7). -/
def smag4 (n : BitVec 4) : Int := signMagnitude (n.getLsbD 3) (n.toNat % 8)

/-- `smag_8(b)` (R7). -/
def smag8 (b : Byte) : Int := signMagnitude (b.getLsbD 7) (b.toNat % 128)

/-- `sext_8(b)` (R7). -/
def sext8 (b : Byte) : Int :=
  if b.toNat < 128 then (b.toNat : Int) else (b.toNat : Int) - 256

/-- `b[7:4]`. -/
def hiNibble (b : Byte) : BitVec 4 := b.extractLsb' 4 4

/-- `b[3:0]`. -/
def loNibble (b : Byte) : BitVec 4 := b.extractLsb' 0 4

/-- `pen_of_byte(c)`, a colour byte's pen (R7, R59). -/
def penOfByte (c : Byte) : Pen := ⟨hiNibble c, loNibble c⟩

/-- The colour byte of a pen, `(a << 4) | b` (R17). -/
def byteOfPen (p : Pen) : Byte := p.a ++ p.b

/-! ### Coordinates -/

/-- The absolute coordinate of the bytes `u lx ly` (R56). -/
def absPoint (u lx ly : Byte) : Point :=
  ⟨((hiNibble u).toNat * 256 + lx.toNat : Nat), ((loNibble u).toNat * 256 + ly.toNat : Nat)⟩

/-- A short-relative step from `p`, no clamp (R57). -/
def shortStep (b : Byte) (p : Point) : Point :=
  ⟨p.x + smag4 (hiNibble b), p.y + smag4 (loNibble b)⟩

/-- A medium-relative step from `p`, clamped to the canvas (R58; decision D12, log entry 17). -/
def mediumStep (dyByte dxByte : Byte) (p : Point) : Point :=
  ⟨clamp (p.x + sext8 dxByte) 0 xMax, clamp (p.y + smag8 dyByte) 0 yMax⟩

/-- The three bytes of an absolute coordinate, the inverse of `absPoint` on `0..4095` (R65). -/
def encodeAbs (p : Point) : List Byte :=
  [BitVec.ofNat 8 (p.x.toNat / 256 * 16 + p.y.toNat / 256), BitVec.ofNat 8 p.x.toNat, BitVec.ofNat 8 p.y.toNat]

/-- The byte of a short delta with `dx`, `dy` in `-7..7` (R65). -/
def encodeShort (dx dy : Int) : Byte :=
  BitVec.ofNat 8 ((if dx < 0 then 128 else 0) + dx.natAbs * 16 + (if dy < 0 then 8 else 0) + dy.natAbs)

/-- The first byte of a medium delta, sign and magnitude of `dy` in `-127..127` (R65). -/
def encodeMediumDy (dy : Int) : Byte :=
  BitVec.ofNat 8 ((if dy < 0 then 128 else 0) + dy.natAbs)

/-- The second byte of a medium delta, `dx mod 256` (R65). -/
def encodeMediumDx (dx : Int) : Byte :=
  BitVec.ofNat 8 (dx % 256).toNat

/-! ### Fetching operands -/

/-- `FetchAbs()` (R8, R56): first `u`, then `lx`, then `ly`. -/
def fetchAbs (s : State) : Flow Point :=
  (fetch s).bind fun u s =>
  (fetch s).bind fun lx s =>
  (fetch s).bind fun ly s =>
  .done (absPoint u lx ly) s

/-- The next point of an absolute list: the running coordinate plays no part (R96). -/
def nextAbs (_ : Point) (s : State) : Flow Point := fetchAbs s

/-- The next point of a short-relative walk from `p` (R100). -/
def nextShort (p : Point) (s : State) : Flow Point :=
  (fetch s).bind fun b s => .done (shortStep b p) s

/-- The next point of a medium-relative walk from `p`: `by`, then `bx` (R98). -/
def nextMedium (p : Point) (s : State) : Flow Point :=
  (fetch s).bind fun dyByte s =>
  (fetch s).bind fun dxByte s =>
  .done (mediumStep dyByte dxByte p) s

/-- The texture selector, present exactly when `patternFlags[5] = 1` (R52, R124). -/
def fetchSelector (s : State) : Flow (Option Byte) :=
  if usesTexture s.patternFlags then
    (fetch s).bind fun sel s => .done (some sel) s
  else
    .done none s

/-- `while not NextIsCommand()` over at most `n` elements. -/
def repeatElements {α : Type} (element : α → State → Flow α) : Nat → α → State → Flow α
  | 0, a, s => .done a s
  | n + 1, a, s =>
    if nextIsCommand s then .done a s
    else (element a s).bind fun a s => repeatElements element n a s

/-- `while not NextIsCommand(): <element>` (R54). An element takes at least one byte, so the bytes left bound the number of
elements, and where none is left `NextIsCommand()` is true. -/
def whileElements {α : Type} (element : α → State → Flow α) (a : α) (s : State) : Flow α :=
  repeatElements element (bytesLeft s) a s

end Sys2Proof.Machine
end

