-- ==== Sys2Proof/Machine/Colour.lean ====
section
/-! DEFINITION. The colour and enable commands, the terminator and the illegal first bytes (spec/40_color_and_enable.md R70
to R79). -/

namespace Sys2Proof.Machine

/-- A palette index byte that must be `0..159`, else InvalidPaletteIndex (R72, R142, R166). -/
def checkSlot (c : Byte) (s : State) : Flow (Fin 160) :=
  if h : c.toNat < 160 then .done ⟨c.toNat, h⟩ s else raise .invalidPaletteIndex s

/-- `pen <- pen_of_byte(pal[c]); visualEnabled <- true` after the lock coercion (R72). -/
def loadPen (c : Fin 160) (s : State) : State :=
  enableVisual (s.setPen (some (penOfByte s.pal[(coerceSlot c s)])))

/-- `Fetch()` and discard the byte (R74, R76). -/
def discardByte (s : State) : Flow Unit := (fetch s).void

/-- `0xF0 setVisualColor` (R72). -/
def execSetVisualColor (s : State) : Host.Outcome State Fault Refusal :=
  ((fetch s).bind fun c s =>
   (checkSlot c s).bind fun c s =>
   .done () (loadPen c s)).outcome

/-- `0xF1 disableVisual` (R73). -/
def execDisableVisual (s : State) : Host.Outcome State Fault Refusal :=
  .next (blankVisual s)

/-- `0xF2 setPriorityColor` (R74): "1 byte; consumed, ignored". -/
def execSetPriorityColor (s : State) : Host.Outcome State Fault Refusal :=
  (discardByte s).outcome

/-- `0xF3 disablePriority` (R75): a no-operation. -/
def execDisablePriority (s : State) : Host.Outcome State Fault Refusal :=
  .next s

/-- `0xFB setControlColor` (R76): the byte is consumed and ignored. -/
def execSetControlColor (s : State) : Host.Outcome State Fault Refusal :=
  (discardByte s).outcome

/-- `0xFC disableControl` (R77): a no-operation. -/
def execDisableControl (s : State) : Host.Outcome State Fault Refusal :=
  .next s

/-- `0xFF pictureEnd` (R78): `status <- Halted`. -/
def execPictureEnd (s : State) : Host.Outcome State Fault Refusal :=
  .next (s.setStatus .halted)

/-- The fault of an illegal first byte (R62, R70, R163). -/
def unknownOpcode (s : State) : Flow Unit := raise .unknownOpcode s

/-- A first byte `0x00..0x7F`. -/
def execUnknownOpcode007F (s : State) : Host.Outcome State Fault Refusal :=
  (unknownOpcode s).outcome

/-- A first byte `0x80..0xBF`. -/
def execUnknownOpcode80BF (s : State) : Host.Outcome State Fault Refusal :=
  (unknownOpcode s).outcome

/-- A first byte `0xC0..0xDF`. -/
def execUnknownOpcodeC0DF (s : State) : Host.Outcome State Fault Refusal :=
  (unknownOpcode s).outcome

/-- A first byte `0xE0..0xEF`. -/
def execUnknownOpcodeE0EF (s : State) : Host.Outcome State Fault Refusal :=
  (unknownOpcode s).outcome

end Sys2Proof.Machine
end

