-- ==== Sys2Proof/Machine/Extended.lean ====
section
/-! DEFINITION. The extended command and the palette state machine (spec/44_extended.md R140 to R147). -/

namespace Sys2Proof.Machine

/-- `pal[i] <- c; if i < 40 then locked[i] <- 1` (R142). -/
def writeEntry (i : Fin 160) (c : Byte) (s : State) : State :=
  lockSlot i (writeSlot i c s)

/-- One pair of `setPaletteEntries`: both bytes are fetched before `i` is checked (R142; decision D24, log entry 28). -/
def paletteEntry (_ : Unit) (s : State) : Flow Unit :=
  (fetch s).bind fun i s =>
  (fetch s).bind fun c s =>
  (checkSlot i s).bind fun i s =>
  .done () (writeEntry i c s)

/-- The pairs of `setPaletteEntries` (R142). -/
def setPaletteEntries (s : State) : Flow Unit :=
  whileElements paletteEntry () s

/-- The slots of bank `p` in ascending order, `40*p + k` (R18). -/
def bankSlots (p : Fin 4) : List (Fin 160) :=
  List.ofFn fun k : Fin 40 => ⟨40 * p.val + k.val, by omega⟩

/-- Fetch a colour byte for each slot in turn (R144). -/
def loadSlots : List (Fin 160) → State → Flow Unit
  | [], s => .done () s
  | i :: is, s => (fetch s).bind fun c s => loadSlots is (writeSlot i c s)

/-- The bank byte must be `0..3`, else InvalidPaletteBank, before any colour byte is fetched (R144, R165). -/
def checkBank (p : Byte) (s : State) : Flow (Fin 4) :=
  if h : p.toNat < 4 then .done ⟨p.toNat, h⟩ s else raise .invalidPaletteBank s

/-- The bank of `setEntirePalette` (R144); the locks stay (decision D28, log entry 5). -/
def setEntirePalette (s : State) : Flow Unit :=
  (fetch s).bind fun p s =>
  (checkBank p s).bind fun p s =>
  loadSlots (bankSlots p) s

/-- One byte skipped. -/
def skipByte (_ : Unit) (s : State) : Flow Unit := discardByte s

/-- Skip up to the next command byte (R146; decision D14, log entry 19). -/
def skipPayload (s : State) : Flow Unit :=
  whileElements skipByte () s

/-- The fault of an unknown sub-opcode (R147). -/
def unknownExtended (s : State) : Flow Unit := raise .unknownExtendedOpcode s

/-- `case s of` of R141. -/
def dispatchExtended (sub : Byte) (s : State) : Flow Unit :=
  if sub = 0x00 then setPaletteEntries s
  else if sub = 0x01 then setEntirePalette s
  else if sub.toNat ≤ 0x08 then skipPayload s
  else unknownExtended s

/-- `0xFE extendedCommand` (R141): fetch the sub-opcode and do what it selects. -/
def execExtendedCommand (s : State) : Host.Outcome State Fault Refusal :=
  ((fetch s).bind fun sub s => dispatchExtended sub s).outcome

/-- `0xFE 0x00 setPaletteEntries` (R142). -/
def execSetPaletteEntries (s : State) : Host.Outcome State Fault Refusal :=
  (setPaletteEntries s).outcome

/-- `0xFE 0x01 setEntirePalette` (R144). -/
def execSetEntirePalette (s : State) : Host.Outcome State Fault Refusal :=
  (setEntirePalette s).outcome

/-- `0xFE 0x02` (R146). -/
def execExt02 (s : State) : Host.Outcome State Fault Refusal := (skipPayload s).outcome

/-- `0xFE 0x03` (R146). -/
def execExt03 (s : State) : Host.Outcome State Fault Refusal := (skipPayload s).outcome

/-- `0xFE 0x04` (R146). -/
def execExt04 (s : State) : Host.Outcome State Fault Refusal := (skipPayload s).outcome

/-- `0xFE 0x05` (R146). -/
def execExt05 (s : State) : Host.Outcome State Fault Refusal := (skipPayload s).outcome

/-- `0xFE 0x06` (R146). -/
def execExt06 (s : State) : Host.Outcome State Fault Refusal := (skipPayload s).outcome

/-- `0xFE 0x07` (R146). -/
def execExt07 (s : State) : Host.Outcome State Fault Refusal := (skipPayload s).outcome

/-- `0xFE 0x08` (R146). -/
def execExt08 (s : State) : Host.Outcome State Fault Refusal := (skipPayload s).outcome

/-- `0xFE 0x09` (R147). -/
def execExtUnknown09 (s : State) : Host.Outcome State Fault Refusal := (unknownExtended s).outcome

/-- `0xFE 0x0A..0x0B` (R147). -/
def execExtUnknown0A0B (s : State) : Host.Outcome State Fault Refusal := (unknownExtended s).outcome

/-- `0xFE 0x0C..0x0F` (R147). -/
def execExtUnknown0C0F (s : State) : Host.Outcome State Fault Refusal := (unknownExtended s).outcome

/-- `0xFE 0x10..0x1F` (R147). -/
def execExtUnknown101F (s : State) : Host.Outcome State Fault Refusal := (unknownExtended s).outcome

/-- `0xFE 0x20..0x3F` (R147). -/
def execExtUnknown203F (s : State) : Host.Outcome State Fault Refusal := (unknownExtended s).outcome

/-- `0xFE 0x40..0x7F` (R147). -/
def execExtUnknown407F (s : State) : Host.Outcome State Fault Refusal := (unknownExtended s).outcome

/-- `0xFE 0x80..0xFF` (R147). -/
def execExtUnknown80FF (s : State) : Host.Outcome State Fault Refusal := (unknownExtended s).outcome

end Sys2Proof.Machine
end

