-- ==== Sys2Proof/Machine/Raster.lean ====
section
/-! DEFINITION. The drawing primitives (spec/41_lines.md R90 to R95): effective colour, plot, the pixels of a line, drawing
a line. -/

namespace Sys2Proof.Machine

/-- `eff((a,b), x, y)` (R90). -/
def eff (pen : Pen) (p : Point) : Ega :=
  if (p.x + p.y) % 2 = 1 then pen.a else pen.b

/-- `Plot(x, y)` (R91): PenUnset before OutOfBounds (decisions D7, D24; log entries 4, 28). -/
def plot (p : Point) (s : State) : Flow Unit :=
  if s.visualEnabled then
    match s.pen with
    | none => raise .penUnset s
    | some pen => fbWrite p (eff pen p) s
  else .done () s

/-- `Plot` each point in turn. -/
def plotAll : List Point → State → Flow Unit
  | [], s => .done () s
  | p :: ps, s => (plot p s).bind fun _ s => plotAll ps s

/-- The signs and distances of a line (R94): `dx = |x1-x0|`, `dy = -|y1-y0|`, `sx`, `sy`, and the end point. -/
structure LineShape where
  dx : Int
  dy : Int
  sx : Int
  sy : Int
  stop : Point
deriving DecidableEq, Repr

/-- The shape of the line from `p` to `q` (R94). -/
def lineShape (p q : Point) : LineShape where
  dx := (q.x - p.x).natAbs
  dy := -((q.y - p.y).natAbs : Int)
  sx := if p.x < q.x then 1 else -1
  sy := if p.y < q.y then 1 else -1
  stop := q

/-- One turn of R94's loop after `emit`, on `(err, (x, y))`: both tests use the same `e2`. -/
def lineStep (l : LineShape) (err : Int) (p : Point) : Int × Point :=
  let e2 := 2 * err
  let (err, x) := if l.dy ≤ e2 then (err + l.dy, p.x + l.sx) else (err, p.x)
  let (err, y) := if e2 ≤ l.dx then (err + l.dx, p.y + l.sy) else (err, p.y)
  (err, ⟨x, y⟩)

/-- The loop of R94 over at most `n` pixels. -/
def lineLoop (l : LineShape) : Nat → Int → Point → List Point
  | 0, _, _ => []
  | n + 1, err, p =>
    p :: if p = l.stop then [] else lineLoop l n (lineStep l err p).1 (lineStep l err p).2

/-- The number of pixels of a line, `max(|x1-x0|, |y1-y0|) + 1` (R95 item 2). -/
def lineLength (p q : Point) : Nat :=
  max (q.x - p.x).natAbs (q.y - p.y).natAbs + 1

/-- `LinePixels(x0, y0, x1, y1)` (R94; decision D5, log entry 11). -/
def linePixels (p q : Point) : List Point :=
  lineLoop (lineShape p q) (lineLength p q) ((lineShape p q).dx + (lineShape p q).dy) p

/-- `DrawLine(x0, y0, x1, y1)` (R93). -/
def drawLine (p q : Point) (s : State) : Flow Unit :=
  if s.visualEnabled then plotAll (linePixels p q) s else .done () s

end Sys2Proof.Machine
end

