-- ==== Sys2Proof/Machine/Fill.lean ====
section
/-! DEFINITION. The dithered flood fill and its command (spec/42_fill.md R110 to R115; decision D6, log entry 12). -/

namespace Sys2Proof.Machine

/-- The neighbours of a site in the order they are examined: right, left, down, up (R112). -/
def neighbours (c : Point) : List Point :=
  [⟨c.x + 1, c.y⟩, ⟨c.x - 1, c.y⟩, ⟨c.x, c.y + 1⟩, ⟨c.x, c.y - 1⟩]

/-- A neighbour to push: inside the canvas, not visited, still background (R111). -/
def wanted (fb : Framebuffer) (visited : List Point) (p : Point) : Bool :=
  onCanvas p && !visited.contains p && fbGet (address p) fb == background

/-- Examine the sites of a list in turn, marking and pushing each wanted one. The stack's head is its top. None when a push
makes more pending sites than the bound (R111, R113). -/
def pushSites (fb : Framebuffer) : List Point → List Point → List Point → Option (List Point × List Point)
  | [], visited, stack => some (visited, stack)
  | p :: ps, visited, stack =>
    if wanted fb visited p then
      if fillBound < (p :: stack).length then none
      else pushSites fb ps (p :: visited) (p :: stack)
    else pushSites fb ps visited stack

/-- `while stack is not empty` of R111, over at most `n` pops. -/
def fillLoop (pen : Pen) (n : Nat) (visited stack : List Point) (s : State) : Flow Unit :=
  match stack, n with
  | [], _ => .done () s
  | _ :: _, 0 => .stuck .fillWorkBound
  | c :: rest, n + 1 =>
    (fbWrite c (eff pen c) s).bind fun _ s =>
    match pushSites s.fb (neighbours c) visited rest with
    | none => raise .fillStackOverflow s
    | some (visited, stack) => fillLoop pen n visited stack s

/-- `FloodFill(x, y)` (R111). A fill makes at most one pop a cell of the canvas (R114). -/
def floodFill (p : Point) (s : State) : Flow Unit :=
  if s.visualEnabled then
    match s.pen with
    | none => raise .penUnset s
    | some pen =>
      (fbRead p s).bind fun v s =>
      if v = background then fillLoop pen fbCells [p] [p] s else .done () s
  else .done () s

/-- One element of `floodFill`: a seed (R115). -/
def seed (_ : Unit) (s : State) : Flow Unit :=
  (fetchAbs s).bind fun p s => floodFill p s

/-- `0xF8 floodFill` (R115). -/
def execFloodFill (s : State) : Host.Outcome State Fault Refusal :=
  (whileElements seed () s).outcome

end Sys2Proof.Machine
end

