-- ==== Sys2Proof/Machine/Lines.lean ====
section
/-! DEFINITION. The polyline commands (spec/41_lines.md R96 to R100). -/

namespace Sys2Proof.Machine

/-- One element of a polyline: fetch the next point, draw the segment to it, and go on from it. -/
def segment (next : Point → State → Flow Point) (p : Point) (s : State) : Flow Point :=
  (next p s).bind fun q s =>
  (drawLine p q s).bind fun _ s =>
  .done q s

/-- A polyline command: the first coordinate is absolute and fetched unconditionally (R53), then one segment an element. -/
def polyline (next : Point → State → Flow Point) (s : State) : Flow Unit :=
  ((fetchAbs s).bind fun p s => whileElements (segment next) p s).void

/-- `0xF6 longLines` (R96). -/
def execLongLines (s : State) : Host.Outcome State Fault Refusal :=
  (polyline nextAbs s).outcome

/-- `0xF5 mediumRelativeLines` (R98, R99). -/
def execMediumRelativeLines (s : State) : Host.Outcome State Fault Refusal :=
  (polyline nextMedium s).outcome

/-- `0xF7 shortRelativeLines` (R100). -/
def execShortRelativeLines (s : State) : Host.Outcome State Fault Refusal :=
  (polyline nextShort s).outcome

end Sys2Proof.Machine
end

