-- ==== Sys2Proof/Machine/Stamp.lean ====
section
/-! DEFINITION. The stamp (spec/43_patterns.md R126 to R134). The footprints, the clamp and the texture are the
configuration's; what is defined here holds them to what the spec says of them: R129 (a rectangle is solid), R130 (a placed
footprint is on the canvas) and R133 (the plain circle of size 0). Every footprint and texture that meets them is one that
the host can set, and so is every clamp, on the positions of any one run (log entries 22, 23). -/

namespace Sys2Proof.Machine

/-- The circle of size 0, the one shape the spec fixes (R133). -/
def isDot (size : Fin 8) (rect : Bool) : Bool := size == 0 && !rect

/-- `a + b`. -/
def Point.plus (a b : Point) : Point := ⟨a.x + b.x, a.y + b.y⟩

/-- The value of a clamp's formula at a position. -/
def clampValue (p : Point) : ClampTerm → Int
  | .x => p.x
  | .y => p.y
  | .const v => v
  | .add a b => clampValue p a + clampValue p b
  | .sub a b => clampValue p a - clampValue p b
  | .mul a b => clampValue p a * clampValue p b
  | .div a b => clampValue p a / clampValue p b
  | .mod a b => clampValue p a % clampValue p b
  | .ifLess a b less other => if clampValue p a < clampValue p b then clampValue p less else clampValue p other

/-- Where a configured clamp puts a stamp position. -/
def clampTo (c : StampClamp) (p : Point) : Point :=
  ⟨clampValue p c.column, clampValue p c.row⟩

/-- Between two ends, whichever is the smaller. -/
def between {n : Nat} (a b k : Fin n) : Bool := decide (min a b ≤ k) && decide (k ≤ max a b)

/-- Between the two corners, in any of the ways they may lie. -/
def inRectangle (r : Rectangle) (e : Fin 320 × Fin 190) : Bool :=
  between r.corner.1 r.opposite.1 e.1 && between r.corner.2 r.opposite.2 e.2

/-- The pixels of a rectangle row by row. -/
def rectangleRows (r : Rectangle) : List (Fin 320 × Fin 190) :=
  ((List.finRange 190).filter (between r.corner.2 r.opposite.2)).flatMap fun row =>
    ((List.finRange 320).filter (between r.corner.1 r.opposite.1)).map fun column => (column, row)

/-- The pixels of a rectangle in the order they are visited, each once: "every pixel of the rectangular footprint is inside
the shape" (R129). Those that the configured order leaves out come last. DESIGN CHOICE, unsafe (log entry 22): there is at
least one, the corner itself, and none comes twice; R129 and N3 leave a width or height of 0 open. -/
def rectangleCells (r : Rectangle) : List (Fin 320 × Fin 190) :=
  (r.order.filter (inRectangle r)).dedup ++ (rectangleRows r).filter fun e => !r.order.contains e

/-- The configured footprint of a size and shape, where it stands at one place of the canvas, each pixel once; the circle of
size 0 is its one pixel (R129, R133). -/
def configuredCells (c : PatternConfig) (size : Fin 8) (rect : Bool) : List (Fin 320 × Fin 190) :=
  if rect then rectangleCells c.rectangles[size]
  else if h : size.val = 0 then [(0, 0)]
  else (c.circles[size.val - 1]'(by omega)).cells.dedup

/-- The stamp position that puts the footprint there: a position at which it is on the canvas. -/
def homePosition (c : PatternConfig) (size : Fin 8) (rect : Bool) : Point :=
  if rect then c.rectangles[size].anchor
  else if h : size.val = 0 then ⟨0, 0⟩
  else (c.circles[size.val - 1]'(by omega)).anchor

/-- The configured clamp of a size and shape. -/
def configuredClamp (c : PatternConfig) (size : Fin 8) (rect : Bool) : StampClamp :=
  if rect then c.rectangles[size].clamp
  else if h : size.val = 0 then c.dotClamp
  else (c.circles[size.val - 1]'(by omega)).clamp

/-- `PatternConfig.Footprint(size, rect)` (R129): the offsets from the stamp position, in visiting order. -/
def footprint (c : PatternConfig) (size : Fin 8) (rect : Bool) : List Point :=
  (configuredCells c size rect).map fun e =>
    ⟨(e.1.val : Int) - (homePosition c size rect).x, (e.2.val : Int) - (homePosition c size rect).y⟩

/-- The footprint placed at `p` is on the canvas. -/
def fitsAt (c : PatternConfig) (size : Fin 8) (rect : Bool) (p : Point) : Bool :=
  (footprint c size rect).all fun o => onCanvas (Point.plus p o)

/-- `PatternConfig.ClampStamp(size, rect, x, y)` (R130): "Stamp position is clamped so the footprint fits within the
canvas." The size-0 circle inside the canvas stays where it is (R133); any other position is the configured clamp's, and
where that would leave the canvas, against R130, the footprint's own place. -/
def clampStamp (c : PatternConfig) (size : Fin 8) (rect : Bool) (p : Point) : Point :=
  if isDot size rect && onCanvas p then p
  else if fitsAt c size rect (clampTo (configuredClamp c size rect) p) then clampTo (configuredClamp c size rect) p
  else homePosition c size rect

/-- `TexBit(k)` (R131; decision D29, log entry 24): most significant bit of byte 0 first. -/
def texBit (c : PatternConfig) (k : Fin 254) : Bool :=
  (c.texture[k.val / 8]'(by omega)).getLsbD (7 - k.val % 8)

/-- `TexNext(k)` (R131): "wrapping at 254". -/
def texNext (k : Fin 254) : Fin 254 :=
  ⟨(k.val + 1) % texWrap, Nat.mod_lt _ (by decide)⟩

/-- `TEX_START[sel[7:1]]` (R126, R131). -/
def textureStart (c : PatternConfig) (sel : Byte) : Fin 254 :=
  c.textureStart[sel.toNat / 2]'(by omega)

/-- The footprint pixels that a texture lets through, from cursor `k` on: one texture bit is consumed for every pixel,
plotted or not (R128). -/
def texturedPixels (c : PatternConfig) : List Point → Fin 254 → List Point
  | [], _ => []
  | o :: os, k => if texBit c k then o :: texturedPixels c os (texNext k) else texturedPixels c os (texNext k)

/-- The offsets a stamp plots: all of the footprint where there is no selector, else those the texture lets through. -/
def stampOffsets (c : PatternConfig) (sel : Option Byte) (size : Fin 8) (rect : Bool) : List Point :=
  match sel with
  | none => footprint c size rect
  | some b => texturedPixels c (footprint c size rect) (textureStart c b)

/-- The pixels of a stamp at `p`, in the order they are plotted (R128). -/
def stampPixels (c : PatternConfig) (sel : Option Byte) (flags : Byte) (p : Point) : List Point :=
  (stampOffsets c sel (patternSize flags) (isRectangle flags)).map
    (Point.plus (clampStamp c (patternSize flags) (isRectangle flags) p))

/-- `Stamp(sel, x, y)` (R128). There is a selector exactly when `patternFlags[5] = 1` (`fetchSelector`). With
`visualEnabled` false a stamp "writes nothing whatever the shape" (R134). -/
def stamp (sel : Option Byte) (p : Point) (s : State) : Flow Unit :=
  if s.visualEnabled then plotAll (stampPixels s.config.pattern sel s.patternFlags p) s else .done () s

end Sys2Proof.Machine
end

