-- ==== Sys2Proof/Machine/Patterns.lean ====
section
/-! DEFINITION. The pattern commands (spec/43_patterns.md R121 to R125). -/

namespace Sys2Proof.Machine

/-- An optional selector, the next point, and a stamp there (R122, R123, R125). The running coordinate goes on from the
point itself, not from its clamped place (decision D18, log entry 22). -/
def stampElement (next : Point → State → Flow Point) (p : Point) (s : State) : Flow Point :=
  (fetchSelector s).bind fun sel s =>
  (next p s).bind fun q s =>
  (stamp sel q s).bind fun _ s =>
  .done q s

/-- One element of `longPatterns`. -/
def stampSeed (_ : Unit) (s : State) : Flow Unit :=
  (fetchSelector s).bind fun sel s =>
  (fetchAbs s).bind fun p s =>
  stamp sel p s

/-- A relative pattern command: a stamp at an absolute coordinate, fetched unconditionally (R53; decision D11, log entry
16), then one stamp an element. -/
def patternWalk (next : Point → State → Flow Point) (s : State) : Flow Unit :=
  ((fetchSelector s).bind fun sel s =>
   (fetchAbs s).bind fun p s =>
   (stamp sel p s).bind fun _ s =>
   whileElements (stampElement next) p s).void

/-- `0xF9 setPattern` (R121): the whole byte is stored. -/
def execSetPattern (s : State) : Host.Outcome State Fault Refusal :=
  ((fetch s).bind fun b s => .done () (s.setFlags b)).outcome

/-- `0xFA longPatterns` (R122). -/
def execLongPatterns (s : State) : Host.Outcome State Fault Refusal :=
  (whileElements stampSeed () s).outcome

/-- `0xF4 shortRelativePatterns` (R123). -/
def execShortRelativePatterns (s : State) : Host.Outcome State Fault Refusal :=
  (patternWalk nextShort s).outcome

/-- `0xFD mediumRelativePatterns` (R125). -/
def execMediumRelativePatterns (s : State) : Host.Outcome State Fault Refusal :=
  (patternWalk nextMedium s).outcome

end Sys2Proof.Machine
end

