-- ==== Sys2Proof/Syntax.lean ====
section
/-! DEFINITION. The instruction set: one constructor for each of the 36 rows of spec/opcode_table.json (R60, R61, R64).

An instruction is what the opcode byte, and after 0xFE the sub-opcode byte, select. Its payload stays in the stream and
is fetched by its meaning, because its length is found only while executing (R54, R63; log entry 34). The rows of illegal
encodings carry the byte that their row leaves open. -/

namespace Sys2Proof

/-- The instructions, in the table's order. -/
inductive Instr where
  | setVisualColor            -- F0 c (R72)
  | disableVisual             -- F1 (R73)
  | setPriorityColor          -- F2 b (R74)
  | disablePriority           -- F3 (R75)
  | shortRelativePatterns     -- F4, format PS (R123)
  | mediumRelativeLines       -- F5, format LM (R98)
  | longLines                 -- F6, format LA (R96)
  | shortRelativeLines        -- F7, format LS (R100)
  | floodFill                 -- F8, format FA (R115)
  | setPattern                -- F9 b (R121)
  | longPatterns              -- FA, format PA (R122)
  | setControlColor           -- FB b (R76)
  | disableControl            -- FC (R77)
  | mediumRelativePatterns    -- FD, format PM (R125)
  | extendedCommand           -- FE, the dispatch on the sub-opcode (R141)
  | pictureEnd                -- FF (R78)
  | setPaletteEntries         -- FE 00, format XE (R142)
  | setEntirePalette          -- FE 01, format XB (R144)
  | ext02                     -- FE 02, format XS (R146)
  | ext03                     -- FE 03
  | ext04                     -- FE 04
  | ext05                     -- FE 05
  | ext06                     -- FE 06
  | ext07                     -- FE 07
  | ext08                     -- FE 08
  | extUnknown09              -- FE 09 (R147)
  | extUnknown0A0B (sub : Byte)
  | extUnknown0C0F (sub : Byte)
  | extUnknown101F (sub : Byte)
  | extUnknown203F (sub : Byte)
  | extUnknown407F (sub : Byte)
  | extUnknown80FF (sub : Byte)
  | unknownOpcode007F (b : Byte)   -- an illegal first byte (R62, R70)
  | unknownOpcode80BF (b : Byte)
  | unknownOpcodeC0DF (b : Byte)
  | unknownOpcodeE0EF (b : Byte)
deriving DecidableEq, Repr

end Sys2Proof
end

