-- ==== Sys2Proof/Machine/Dispatch.lean ====
section
/-! DEFINITION. The dispatch of an instruction to its meaning (spec/40_color_and_enable.md R70, spec/44_extended.md R141).
The state that `exec` is given has `pos` just past the opcode bytes. -/

namespace Sys2Proof.Machine

def exec (i : Instr) (s : State) : Host.Outcome State Fault Refusal :=
  match i with
  | .setVisualColor => Sys2Proof.Machine.execSetVisualColor s
  | .disableVisual => Sys2Proof.Machine.execDisableVisual s
  | .setPriorityColor => Sys2Proof.Machine.execSetPriorityColor s
  | .disablePriority => Sys2Proof.Machine.execDisablePriority s
  | .shortRelativePatterns => Sys2Proof.Machine.execShortRelativePatterns s
  | .mediumRelativeLines => Sys2Proof.Machine.execMediumRelativeLines s
  | .longLines => Sys2Proof.Machine.execLongLines s
  | .shortRelativeLines => Sys2Proof.Machine.execShortRelativeLines s
  | .floodFill => Sys2Proof.Machine.execFloodFill s
  | .setPattern => Sys2Proof.Machine.execSetPattern s
  | .longPatterns => Sys2Proof.Machine.execLongPatterns s
  | .setControlColor => Sys2Proof.Machine.execSetControlColor s
  | .disableControl => Sys2Proof.Machine.execDisableControl s
  | .mediumRelativePatterns => Sys2Proof.Machine.execMediumRelativePatterns s
  | .extendedCommand => Sys2Proof.Machine.execExtendedCommand s
  | .pictureEnd => Sys2Proof.Machine.execPictureEnd s
  | .setPaletteEntries => Sys2Proof.Machine.execSetPaletteEntries s
  | .setEntirePalette => Sys2Proof.Machine.execSetEntirePalette s
  | .ext02 => Sys2Proof.Machine.execExt02 s
  | .ext03 => Sys2Proof.Machine.execExt03 s
  | .ext04 => Sys2Proof.Machine.execExt04 s
  | .ext05 => Sys2Proof.Machine.execExt05 s
  | .ext06 => Sys2Proof.Machine.execExt06 s
  | .ext07 => Sys2Proof.Machine.execExt07 s
  | .ext08 => Sys2Proof.Machine.execExt08 s
  | .extUnknown09 => Sys2Proof.Machine.execExtUnknown09 s
  | .extUnknown0A0B _ => Sys2Proof.Machine.execExtUnknown0A0B s
  | .extUnknown0C0F _ => Sys2Proof.Machine.execExtUnknown0C0F s
  | .extUnknown101F _ => Sys2Proof.Machine.execExtUnknown101F s
  | .extUnknown203F _ => Sys2Proof.Machine.execExtUnknown203F s
  | .extUnknown407F _ => Sys2Proof.Machine.execExtUnknown407F s
  | .extUnknown80FF _ => Sys2Proof.Machine.execExtUnknown80FF s
  | .unknownOpcode007F _ => Sys2Proof.Machine.execUnknownOpcode007F s
  | .unknownOpcode80BF _ => Sys2Proof.Machine.execUnknownOpcode80BF s
  | .unknownOpcodeC0DF _ => Sys2Proof.Machine.execUnknownOpcodeC0DF s
  | .unknownOpcodeE0EF _ => Sys2Proof.Machine.execUnknownOpcodeE0EF s

end Sys2Proof.Machine
end

