-- ==== Sys2Proof/WellFormed.lean ====
section
/-! DEFINITION. When an instruction is well formed: a row of illegal encodings holds a byte of its own range (R64). -/

namespace Sys2Proof

/-- `b` is in the closed range `lo..hi`. -/
def byteIn (lo hi : Nat) (b : Byte) : Bool :=
  decide (lo ≤ b.toNat) && decide (b.toNat ≤ hi)

/-- The check. A row that leaves no byte open has nothing to check. -/
def Instr.wellFormed : Instr → Bool
  | .setVisualColor => true
  | .disableVisual => true
  | .setPriorityColor => true
  | .disablePriority => true
  | .shortRelativePatterns => true
  | .mediumRelativeLines => true
  | .longLines => true
  | .shortRelativeLines => true
  | .floodFill => true
  | .setPattern => true
  | .longPatterns => true
  | .setControlColor => true
  | .disableControl => true
  | .mediumRelativePatterns => true
  | .extendedCommand => true
  | .pictureEnd => true
  | .setPaletteEntries => true
  | .setEntirePalette => true
  | .ext02 => true
  | .ext03 => true
  | .ext04 => true
  | .ext05 => true
  | .ext06 => true
  | .ext07 => true
  | .ext08 => true
  | .extUnknown09 => true
  | .extUnknown0A0B sub => byteIn 0x0A 0x0B sub
  | .extUnknown0C0F sub => byteIn 0x0C 0x0F sub
  | .extUnknown101F sub => byteIn 0x10 0x1F sub
  | .extUnknown203F sub => byteIn 0x20 0x3F sub
  | .extUnknown407F sub => byteIn 0x40 0x7F sub
  | .extUnknown80FF sub => byteIn 0x80 0xFF sub
  | .unknownOpcode007F b => byteIn 0x00 0x7F b
  | .unknownOpcode80BF b => byteIn 0x80 0xBF b
  | .unknownOpcodeC0DF b => byteIn 0xC0 0xDF b
  | .unknownOpcodeE0EF b => byteIn 0xE0 0xEF b

end Sys2Proof
end

