-- ==== Sys2Proof/Decode.lean ====
section
/-! DEFINITION. The decoder, from the opcode table's rows (spec/opcode_table.json, R60, R61, R64), the encoder, and the
reading of a table word. -/

namespace Sys2Proof

/-- Why the decoder gives no instruction. -/
inductive DecodeRefusal where
  /-- There is no opcode byte: the stream has ended. -/
  | endOfStream
  /-- No row of the table matches. By R64 every byte matches a row, so this does not happen (`decode_ok_of_nonempty`). -/
  | noRow (b : Byte)
deriving DecidableEq, Repr

/-- One row of the opcode table: a key `k` belongs to it when `k &&& mask = value` (R64). -/
structure OpcodeRow (w : Nat) where
  mask : BitVec w
  value : BitVec w
  instr : BitVec w → Instr

/-- The rows over the first byte of a command. -/
def oneByteRows : List (OpcodeRow 8) :=
  [⟨0xFF, 0xF0, fun _ => .setVisualColor⟩,
   ⟨0xFF, 0xF1, fun _ => .disableVisual⟩,
   ⟨0xFF, 0xF2, fun _ => .setPriorityColor⟩,
   ⟨0xFF, 0xF3, fun _ => .disablePriority⟩,
   ⟨0xFF, 0xF4, fun _ => .shortRelativePatterns⟩,
   ⟨0xFF, 0xF5, fun _ => .mediumRelativeLines⟩,
   ⟨0xFF, 0xF6, fun _ => .longLines⟩,
   ⟨0xFF, 0xF7, fun _ => .shortRelativeLines⟩,
   ⟨0xFF, 0xF8, fun _ => .floodFill⟩,
   ⟨0xFF, 0xF9, fun _ => .setPattern⟩,
   ⟨0xFF, 0xFA, fun _ => .longPatterns⟩,
   ⟨0xFF, 0xFB, fun _ => .setControlColor⟩,
   ⟨0xFF, 0xFC, fun _ => .disableControl⟩,
   ⟨0xFF, 0xFD, fun _ => .mediumRelativePatterns⟩,
   ⟨0xFF, 0xFE, fun _ => .extendedCommand⟩,
   ⟨0xFF, 0xFF, fun _ => .pictureEnd⟩,
   ⟨0x80, 0x00, fun k => .unknownOpcode007F k⟩,
   ⟨0xC0, 0x80, fun k => .unknownOpcode80BF k⟩,
   ⟨0xE0, 0xC0, fun k => .unknownOpcodeC0DF k⟩,
   ⟨0xF0, 0xE0, fun k => .unknownOpcodeE0EF k⟩]

/-- The rows over the first two bytes of an extended command, first byte in bits 15..8 (R64). -/
def twoByteRows : List (OpcodeRow 16) :=
  [⟨0xFFFF, 0xFE00, fun _ => .setPaletteEntries⟩,
   ⟨0xFFFF, 0xFE01, fun _ => .setEntirePalette⟩,
   ⟨0xFFFF, 0xFE02, fun _ => .ext02⟩,
   ⟨0xFFFF, 0xFE03, fun _ => .ext03⟩,
   ⟨0xFFFF, 0xFE04, fun _ => .ext04⟩,
   ⟨0xFFFF, 0xFE05, fun _ => .ext05⟩,
   ⟨0xFFFF, 0xFE06, fun _ => .ext06⟩,
   ⟨0xFFFF, 0xFE07, fun _ => .ext07⟩,
   ⟨0xFFFF, 0xFE08, fun _ => .ext08⟩,
   ⟨0xFFFF, 0xFE09, fun _ => .extUnknown09⟩,
   ⟨0xFFFE, 0xFE0A, fun k => .extUnknown0A0B (k.extractLsb' 0 8)⟩,
   ⟨0xFFFC, 0xFE0C, fun k => .extUnknown0C0F (k.extractLsb' 0 8)⟩,
   ⟨0xFFF0, 0xFE10, fun k => .extUnknown101F (k.extractLsb' 0 8)⟩,
   ⟨0xFFE0, 0xFE20, fun k => .extUnknown203F (k.extractLsb' 0 8)⟩,
   ⟨0xFFC0, 0xFE40, fun k => .extUnknown407F (k.extractLsb' 0 8)⟩,
   ⟨0xFF80, 0xFE80, fun k => .extUnknown80FF (k.extractLsb' 0 8)⟩]

/-- The instruction of the first row that `key` belongs to. -/
def lookupRow {w : Nat} (rows : List (OpcodeRow w)) (key : BitVec w) : Option Instr :=
  (rows.find? (fun r => key &&& r.mask == r.value)).map (fun r => r.instr key)

/-- The opcode byte that has a sub-opcode (R52, R61). -/
def extendedOpcode : Byte := 0xFE

/-- The instruction of a command's first byte alone. -/
def decodeOne (b : Byte) : Except DecodeRefusal (Instr × Nat) :=
  match lookupRow oneByteRows b with
  | some i => .ok (i, 1)
  | none => .error (.noRow b)

/-- The instruction of an extended command's first two bytes. -/
def decodeTwo (b sub : Byte) : Except DecodeRefusal (Instr × Nat) :=
  match lookupRow twoByteRows (b ++ sub) with
  | some i => .ok (i, 2)
  | none => .error (.noRow sub)

/-- The instruction at the head of `bytes` and how many bytes (opcode and sub-opcode) it takes. The two-byte rows refine
the row of 0xFE (R64); where the stream ends just after 0xFE the instruction is the dispatch itself, which will raise
UnexpectedEnd (R141; log entry 32). -/
def decode (bytes : List Byte) : Except DecodeRefusal (Instr × Nat) :=
  match bytes with
  | [] => .error .endOfStream
  | [b] => decodeOne b
  | b :: sub :: _ => if b = extendedOpcode then decodeTwo b sub else decodeOne b

/-- The opcode bytes of an instruction, from the tables of R60 and R61. -/
def encode : Instr → List Byte
  | .setVisualColor => [0xF0]
  | .disableVisual => [0xF1]
  | .setPriorityColor => [0xF2]
  | .disablePriority => [0xF3]
  | .shortRelativePatterns => [0xF4]
  | .mediumRelativeLines => [0xF5]
  | .longLines => [0xF6]
  | .shortRelativeLines => [0xF7]
  | .floodFill => [0xF8]
  | .setPattern => [0xF9]
  | .longPatterns => [0xFA]
  | .setControlColor => [0xFB]
  | .disableControl => [0xFC]
  | .mediumRelativePatterns => [0xFD]
  | .extendedCommand => [0xFE]
  | .pictureEnd => [0xFF]
  | .setPaletteEntries => [0xFE, 0x00]
  | .setEntirePalette => [0xFE, 0x01]
  | .ext02 => [0xFE, 0x02]
  | .ext03 => [0xFE, 0x03]
  | .ext04 => [0xFE, 0x04]
  | .ext05 => [0xFE, 0x05]
  | .ext06 => [0xFE, 0x06]
  | .ext07 => [0xFE, 0x07]
  | .ext08 => [0xFE, 0x08]
  | .extUnknown09 => [0xFE, 0x09]
  | .extUnknown0A0B sub => [0xFE, sub]
  | .extUnknown0C0F sub => [0xFE, sub]
  | .extUnknown101F sub => [0xFE, sub]
  | .extUnknown203F sub => [0xFE, sub]
  | .extUnknown407F sub => [0xFE, sub]
  | .extUnknown80FF sub => [0xFE, sub]
  | .unknownOpcode007F b => [b]
  | .unknownOpcode80BF b => [b]
  | .unknownOpcodeC0DF b => [b]
  | .unknownOpcodeE0EF b => [b]

/-- The bytes of a table word of `n` bytes, the first byte of the command in the highest bits, as R64 numbers them
(log entry 33). -/
def wordBytes : Nat → Nat → List Byte
  | 0, _ => []
  | n + 1, w => wordBytes n (w / 256) ++ [BitVec.ofNat 8 w]

/-- The instruction the decoder reads from a table word of `nbits` bits. Payload bytes take no part in decoding, so none
are laid out after the word (log entry 33). -/
def decodeTableWord (nbits w : Nat) : Option Instr :=
  match decode (wordBytes (nbits / 8) w) with
  | .ok (i, _) => some i
  | .error _ => none

end Sys2Proof
end

