-- ==== Sys2Proof/Machine/Fetch.lean ====
section
/-! DEFINITION. Fetching a command, and laying a table word out in the stream. -/

namespace Sys2Proof.Machine

/-- Decode the command at the program counter (R70). -/
def fetchCommand (s : State) : Except DecodeRefusal (Instr × Nat) :=
  decode (instructionBytes s)

/-- The state in which the decoded command runs: `pos` just past its opcode bytes (R11, R70). -/
def afterOpcode (n : Nat) (s : State) : State :=
  s.setPos (s.pos + n)

/-- The fewest payload bytes with which an instruction completes, its selector included, in the formats of R52. After 0xFE
alone none is laid out: a zero byte there would make it another row (log entries 32, 33). -/
def payloadBytes (flags : Byte) : Instr → Nat
  | .setVisualColor | .setPriorityColor | .setPattern | .setControlColor => 1
  | .longLines | .mediumRelativeLines | .shortRelativeLines => 3
  | .shortRelativePatterns | .mediumRelativePatterns => if usesTexture flags then 4 else 3
  | .setEntirePalette => 41
  | .disableVisual | .disablePriority | .floodFill | .longPatterns | .disableControl | .extendedCommand
  | .pictureEnd | .setPaletteEntries | .ext02 | .ext03 | .ext04 | .ext05 | .ext06 | .ext07 | .ext08
  | .extUnknown09 | .extUnknown0A0B _ | .extUnknown0C0F _ | .extUnknown101F _ | .extUnknown203F _
  | .extUnknown407F _ | .extUnknown80FF _ | .unknownOpcode007F _ | .unknownOpcode80BF _
  | .unknownOpcodeC0DF _ | .unknownOpcodeE0EF _ => 0

/-- The stream that holds a table word as its first command: the header, the word, and its payload of zeros. -/
def wordStream (flags : Byte) (nbits w : Nat) : List Byte :=
  [hdr0, hdr1] ++ wordBytes (nbits / 8) w ++
    match decodeTableWord nbits w with
    | some i => List.replicate (payloadBytes flags i) 0
    | none => []

end Sys2Proof.Machine
end

