-- ==== Sys2Proof/Machine/Step.lean ====
section
/-! DEFINITION. One step of the machine (spec/40_color_and_enable.md R70, spec/70_reset_and_hazards.md R181), and the placing
of a table word where the next step fetches it. -/

namespace Sys2Proof.Machine

/-- One step. While `Running`: at `pos = 0` the header check (R51, R181; log entry 7), else one iteration of the main loop
(R70). `Halted` and `Faulted` are absorbing (R15, R173; log entry 8). -/
def step (s : State) : Host.Outcome State Fault Refusal :=
  match s.status with
  | .running =>
    if s.pos = 0 then .next (headerCheck s)
    else
      match fetchCommand s with
      | .ok (i, n) => exec i (afterOpcode n s)
      | .error .endOfStream => .next (takeFault .unexpectedEnd s)
      | .error (.noRow _) => .refused .undecodable
  | .halted => .next s
  | .faulted => .next s

/-- `s` with the instruction of a table word as the command that the next step runs: the stream is loaded with the header
and that instruction, and the header check is past (log entries 1, 33). -/
def State.withFetchWord (s : State) (nbits w : Nat) : State :=
  { s with prog := wordStream s.patternFlags nbits w, pos := 2, status := .running }

end Sys2Proof.Machine
end

