-- ==== Sys2Proof/Machine/Assembler.lean ====
section
/-! DEFINITION. The assembler syntax (spec/30_encoding.md R65; decision D21, log entry 36) and what it must refuse (R66).
The machine does not use it; statements about whole commands do. -/

namespace Sys2Proof.Machine

/-- One line of assembly, a command with its operands (R65). A delta is `(dx, dy)`. -/
inductive AsmLine where
  | header
  | setVisualColor (c : Byte)
  | disableVisual
  | setPriorityColor (b : Byte)
  | disablePriority
  | shortRelativePatterns (sel : Option Byte) (p : Point) (rest : List (Option Byte × Int × Int))
  | mediumRelativeLines (p : Point) (rest : List (Int × Int))
  | longLines (p : Point) (rest : List Point)
  | shortRelativeLines (p : Point) (rest : List (Int × Int))
  | floodFill (points : List Point)
  | setPattern (b : Byte)
  | longPatterns (points : List (Option Byte × Point))
  | setControlColor (b : Byte)
  | disableControl
  | mediumRelativePatterns (sel : Option Byte) (p : Point) (rest : List (Option Byte × Int × Int))
  | setPaletteEntries (entries : List (Byte × Byte))
  | setEntirePalette (bank : Byte) (colours : Vector Byte 40)
  | ext (n : Fin 7) (payload : List Byte)
  | pictureEnd
  | bytes (bs : List Byte)
deriving DecidableEq, Repr

/-- The three bytes of an absolute coordinate; its components must be `0..4095` (R56, R65). -/
def asmAbs (p : Point) : Option (List Byte) :=
  if 0 ≤ p.x ∧ p.x ≤ 4095 ∧ 0 ≤ p.y ∧ p.y ≤ 4095 then some (encodeAbs p) else none

/-- The byte of a short delta; its components must be `-7..7` (R57, R65). -/
def asmShort (d : Int × Int) : Option (List Byte) :=
  if d.1.natAbs ≤ 7 ∧ d.2.natAbs ≤ 7 then some [encodeShort d.1 d.2] else none

/-- The bytes `by bx` of a medium delta; `dy` must be `-127..127` and `dx` `-128..127` (R58, R65). -/
def asmMedium (d : Int × Int) : Option (List Byte) :=
  if d.2.natAbs ≤ 127 ∧ -128 ≤ d.1 ∧ d.1 ≤ 127 then some [encodeMediumDy d.2, encodeMediumDx d.1] else none

/-- A selector byte, where there is one, before the bytes it belongs to. -/
def asmSelected (sel : Option Byte) (bs : Option (List Byte)) : Option (List Byte) :=
  bs.map (sel.toList ++ ·)

/-- An element of a repeated payload: its first byte must be below 0xF0 (R66). -/
def asmElement (bs : Option (List Byte)) : Option (List Byte) :=
  match bs with
  | some (b :: rest) => if b.toNat < cmdMin then some (b :: rest) else none
  | some [] => none
  | none => none

/-- All the elements of a repeated payload, one after another. -/
def asmElements : List (Option (List Byte)) → Option (List Byte)
  | [] => some []
  | e :: es =>
    match asmElement e, asmElements es with
    | some bs, some rest => some (bs ++ rest)
    | _, _ => none

/-- Opcode bytes, a fixed payload and the elements. -/
def asmCommand (opcode : List Byte) (fixed : Option (List Byte)) (elements : List (Option (List Byte))) :
    Option (List Byte) :=
  match fixed, asmElements elements with
  | some f, some es => some (opcode ++ f ++ es)
  | _, _ => none

/-- The bytes of a line, none where the assembler refuses it (R65, R66). -/
def assemble : AsmLine → Option (List Byte)
  | .header => some [hdr0, hdr1]
  | .setVisualColor c => some [0xF0, c]
  | .disableVisual => some [0xF1]
  | .setPriorityColor b => some [0xF2, b]
  | .disablePriority => some [0xF3]
  | .shortRelativePatterns sel p rest =>
    asmCommand [0xF4] (asmSelected sel (asmAbs p)) (rest.map fun e => asmSelected e.1 (asmShort e.2))
  | .mediumRelativeLines p rest => asmCommand [0xF5] (asmAbs p) (rest.map asmMedium)
  | .longLines p rest => asmCommand [0xF6] (asmAbs p) (rest.map asmAbs)
  | .shortRelativeLines p rest => asmCommand [0xF7] (asmAbs p) (rest.map asmShort)
  | .floodFill points => asmCommand [0xF8] (some []) (points.map asmAbs)
  | .setPattern b => some [0xF9, b]
  | .longPatterns points => asmCommand [0xFA] (some []) (points.map fun e => asmSelected e.1 (asmAbs e.2))
  | .setControlColor b => some [0xFB, b]
  | .disableControl => some [0xFC]
  | .mediumRelativePatterns sel p rest =>
    asmCommand [0xFD] (asmSelected sel (asmAbs p)) (rest.map fun e => asmSelected e.1 (asmMedium e.2))
  | .setPaletteEntries entries => asmCommand [0xFE, 0x00] (some []) (entries.map fun e => some [e.1, e.2])
  | .setEntirePalette bank colours => some ([0xFE, 0x01, bank] ++ colours.toList)
  | .ext n payload => asmCommand [0xFE, BitVec.ofNat 8 (n.val + 2)] (some []) (payload.map fun b => some [b])
  | .pictureEnd => some [0xFF]
  | .bytes bs => some bs

end Sys2Proof.Machine
end

