-- ==== Sys2Proof/Machine/HostPort.lean ====
section
/-! DEFINITION. What the host can do to the block (spec/70_reset_and_hazards.md R182 to R185; decisions D25, D26, log entry
29): place the stream and set the configuration in reset, read `status` and `fault`, read the framebuffer of a halted block.
It asserts reset with `assertReset`, and releases it by letting the block step. It has no other move. -/

namespace Sys2Proof.Machine

/-- Write the stream memory and with it `LEN`, the block held in reset (R31, R183). -/
def hostWriteStream (stream : List Byte) (s : State) : State :=
  assertReset { s with prog := stream }

/-- Set the configuration, the block held in reset (R182, R183): reset then loads its default palette (R20, R180). -/
def hostConfigure (c : Configuration) (s : State) : State :=
  assertReset { s with config := c }

/-- The block with the host's configuration and stream placed, reset just released (R182, R183). -/
def hostLoad (c : Configuration) (stream : List Byte) : State :=
  hostWriteStream stream (hostConfigure c State.reset)

/-- Read `status`: any time, no side effect (R183). -/
def hostStatus (s : State) : Status := s.status

/-- Read `fault`, a code of R161: any time, no side effect (R16, R183). -/
def hostFault (s : State) : Nat := faultNumber s.fault

/-- Read pixel `p` of the framebuffer: only when `status = Halted`, the result of the run (R183, R185). -/
def hostPixel (s : State) (p : Point) : Option Ega :=
  if s.status = .halted ∧ onCanvas p then some (fbGet (address p) s.fb) else none

end Sys2Proof.Machine
end

