-- ==== Sys2Proof/Safety.lean ====
section
/-! DEFINITION. The terms in which statements about the machine are made: its invariant, a successful run, what two states
may differ in, the pixels of a list painted, the cells a fill reaches, and the bytes that stand at the program counter. -/

namespace Sys2Proof.Machine

/-! ### Invariant and runs -/

/-- What holds of every state a run reaches: the cursor is within the stream (R11), the framebuffer is in its canonical
form, and `fault` names a fault exactly when `status` is `Faulted` (R15, R16, R170). -/
def State.Inv (s : State) : Prop :=
  s.pos ≤ s.prog.length ∧ Memory.wf s.fb = true ∧ (s.status = .faulted ↔ s.fault ≠ .noFault)

/-- The run over `stream` with the configuration `c` ends successfully in `t` (R185). -/
def SuccessfulRun (c : Configuration) (stream : List Byte) (t : State) : Prop :=
  ∃ n, Host.Core.run core n (hostLoad c stream) = .next t ∧ t.status = .halted

/-! ### Frames -/

/-- `t` is `s` but for `pos`, `status`, `fault` and the framebuffer. -/
def SameButDrawing (s t : State) : Prop :=
  t = { s with pos := t.pos, status := t.status, fault := t.fault, fb := t.fb }

/-- `t` is `s` but for `pos`, `status`, `fault`, the palette and the locks. -/
def SameButPalette (s t : State) : Prop :=
  t = { s with pos := t.pos, status := t.status, fault := t.fault, pal := t.pal, locked := t.locked }

/-- Every cell that is not the cell of one of `points` on the canvas reads in `t` as in `s`. -/
def SameCellsOutside (points : List Point) (s t : State) : Prop :=
  ∀ a, (∀ p ∈ points, onCanvas p = true → address p ≠ a) → fbGet a t.fb = fbGet a s.fb

/-- The framebuffer with each of `points` in turn set to its effective colour (R90, R91). -/
def paint (pen : Pen) : List Point → Framebuffer → Framebuffer
  | [], m => m
  | p :: ps, m => paint pen ps (fbPut (address p) (eff pen p) m)

/-- The pixels of the segments from `p` through `points` in turn (R93, R96). -/
def pathPixels (p : Point) : List Point → List Point
  | [] => []
  | q :: qs => linePixels p q ++ pathPixels q qs

/-- The points that at most `n` elements of a polyline or pattern payload lead to from `p` on, `next` fetching each; it stops
where the command does. -/
def walkedPoints (next : Point → State → Flow Point) : Nat → Point → State → List Point
  | 0, _, _ => []
  | n + 1, p, s =>
    if nextIsCommand s then []
    else match next p s with
      | .done q s => q :: walkedPoints next n q s
      | .raised _ => []
      | .stuck _ => []

/-- The pixels of every segment that a polyline command's payload at `pos` describes. -/
def polylinePixels (next : Point → State → Flow Point) (s : State) : List Point :=
  match fetchAbs s with
  | .done p s => pathPixels p (walkedPoints next (bytesLeft s) p s)
  | .raised _ => []
  | .stuck _ => []

/-- The pixels of the stamps that at most `n` elements of a pattern payload describe from `p` on, selectors included; it
stops where the command does. -/
def walkedStamps (next : Point → State → Flow Point) : Nat → Point → State → List Point
  | 0, _, _ => []
  | n + 1, p, s =>
    if nextIsCommand s then []
    else match fetchSelector s with
      | .done sel s' =>
        match next p s' with
        | .done q s'' => stampPixels s.config.pattern sel s.patternFlags q ++ walkedStamps next n q s''
        | .raised _ => []
        | .stuck _ => []
      | .raised _ => []
      | .stuck _ => []

/-- The pixels of every stamp that a `longPatterns` payload at `pos` describes. -/
def stampListPixels (s : State) : List Point :=
  walkedStamps nextAbs (bytesLeft s) ⟨0, 0⟩ s

/-- The pixels of every stamp that a relative pattern command's payload at `pos` describes. -/
def patternPixels (next : Point → State → Flow Point) (s : State) : List Point :=
  match fetchSelector s with
  | .done sel s' =>
    match fetchAbs s' with
    | .done p s'' => stampPixels s.config.pattern sel s.patternFlags p ++ walkedStamps next (bytesLeft s'') p s''
    | .raised _ => []
    | .stuck _ => []
  | .raised _ => []
  | .stuck _ => []

/-! ### Fills -/

/-- `q` is one of the four neighbours of `p` (R110): one pixel to the right, to the left, down or up. -/
def UnitStep (p q : Point) : Prop :=
  (q.x = p.x + 1 ∧ q.y = p.y) ∨ (q.x = p.x - 1 ∧ q.y = p.y) ∨ (q.x = p.x ∧ q.y = p.y + 1) ∨ (q.x = p.x ∧ q.y = p.y - 1)

/-- The cells that a fill from `seed` reaches: `Region` of R110, on the framebuffer as it was before the fill. -/
inductive Region (m : Framebuffer) (seed : Point) : Point → Prop where
  | start : onCanvas seed = true → fbGet (address seed) m = background → Region m seed seed
  | step (p q : Point) : Region m seed p → UnitStep p q → onCanvas q = true →
      fbGet (address q) m = background → Region m seed q

/-! ### The stream at the program counter -/

/-- A repeated payload ends before `rest`: there is no byte, or the next is a command (R55). -/
def endsBefore (rest : List Byte) : Prop :=
  ∀ b, rest.head? = some b → cmdMin ≤ b.toNat

/-- The unread stream of `s` is `payload` and then bytes before which a repeated payload ends. -/
def PayloadIs (s : State) (payload : List Byte) : Prop :=
  ∃ rest, s.prog.drop s.pos = payload ++ rest ∧ endsBefore rest

/-- The unread stream of `s` begins with `bytes`. -/
def StreamHas (s : State) (bytes : List Byte) : Prop :=
  ∃ rest, s.prog.drop s.pos = bytes ++ rest

/-- A coordinate that three bytes can carry (R56). -/
def Encodable (p : Point) : Prop :=
  0 ≤ p.x ∧ p.x ≤ 4095 ∧ 0 ≤ p.y ∧ p.y ≤ 4095

/-- Bytes that can stand as an element of a repeated payload: the first is no command (R54, R66). -/
def StartsElement (bs : List Byte) : Prop :=
  ∃ b rest, bs = b :: rest ∧ b.toNat < cmdMin

/-- The first bytes of an element of `n` bytes, at least one and not all. -/
def CutElement (bs : List Byte) (n : Nat) : Prop :=
  StartsElement bs ∧ bs.length < n

/-- How many selector bytes an element has with these pattern flags (R52). -/
def selectorBytes (flags : Byte) : Nat :=
  if usesTexture flags then 1 else 0

/-- `before` is what `pixels` has on the canvas before its first pixel outside. -/
def FirstOutside (pixels before : List Point) : Prop :=
  ∃ r after, pixels = before ++ r :: after ∧ (∀ x ∈ before, onCanvas x = true) ∧ onCanvas r = false

/-- The points of a short-relative walk from `p` with the delta bytes `bs` (R57, R100). -/
def shortWalk (p : Point) : List Byte → List Point
  | [] => []
  | b :: bs => shortStep b p :: shortWalk (shortStep b p) bs

/-- The points of a medium-relative walk from `p` with the byte pairs `(by, bx)` (R58, R98). -/
def mediumWalk (p : Point) : List (Byte × Byte) → List Point
  | [] => []
  | d :: ds => mediumStep d.1 d.2 p :: mediumWalk (mediumStep d.1 d.2 p) ds

/-- The pairs of `setPaletteEntries` written in turn (R142). -/
def writeEntries : List (Fin 160 × Byte) → State → State
  | [], s => s
  | e :: es, s => writeEntries es (writeEntry e.1 e.2 s)

/-- The payload bytes of the pairs (R33, R142). -/
def entryBytes (es : List (Fin 160 × Byte)) : List Byte :=
  es.flatMap fun e => [BitVec.ofNat 8 e.1.val, e.2]

/-- An assembler line that is a command which, with drawing disabled and these pattern flags, no rule lets fault: indexes in
range (R72, R142, R144) and a selector exactly where the flags ask for one (R52). -/
def AsmLine.Runnable (flags : Byte) : AsmLine → Prop
  | .header => False
  | .bytes _ => False
  | .setVisualColor c => c.toNat < 160
  | .setPaletteEntries entries => ∀ e ∈ entries, e.1.toNat < 160
  | .setEntirePalette bank _ => bank.toNat < 4
  | .shortRelativePatterns sel _ rest => sel.isSome = usesTexture flags ∧ ∀ e ∈ rest, e.1.isSome = usesTexture flags
  | .mediumRelativePatterns sel _ rest => sel.isSome = usesTexture flags ∧ ∀ e ∈ rest, e.1.isSome = usesTexture flags
  | .longPatterns points => ∀ e ∈ points, e.1.isSome = usesTexture flags
  | .disableVisual => True
  | .setPriorityColor _ => True
  | .disablePriority => True
  | .mediumRelativeLines _ _ => True
  | .longLines _ _ => True
  | .shortRelativeLines _ _ => True
  | .floodFill _ => True
  | .setPattern _ => True
  | .setControlColor _ => True
  | .disableControl => True
  | .ext _ _ => True
  | .pictureEnd => True

end Sys2Proof.Machine
end

