-- ==== Sys2Proof/Certificates/Slice0/Obligations.lean ====
section
/-! DEFINITION. The statements about the model, for the provers. Each docstring names the rules of spec/ it rests on; where a
clause rests on a decision of spec/92_eei_decisions.md it names the decision and the log entry. -/

open Sys2Proof Sys2Proof.Machine

/-! ### Encoding -/

/-- R60, R61, R64: decoding an encoded well-formed instruction gives it back, whatever bytes follow it. The row of 0xFE alone
is what the decoder gives only where no byte follows (log entry 32). -/
def Obligations.DecodeOfEncode : Prop :=
  ∀ (i : Instr) (rest : List Byte), i.wellFormed = true → (i = .extendedCommand → rest = []) →
    decode (encode i ++ rest) = .ok (i, (encode i).length)

/-- R64: what the decoder gives is well formed, and it is the instruction whose opcode bytes stand there; and the decoder
gives an instruction wherever there is a byte. -/
def Obligations.DecodeReadsTheOpcodeBytes : Prop :=
  (∀ (bytes : List Byte) (i : Instr) (n : Nat), decode bytes = .ok (i, n) →
    i.wellFormed = true ∧ encode i = bytes.take n ∧ n = (encode i).length) ∧
  (∀ bytes : List Byte, bytes ≠ [] → ∃ i n, decode bytes = .ok (i, n))

/-- Nine words, of every family, written out from the tables of spec/30_encoding.md sections 4 and 5; and no instruction
where there is no byte. -/
def Obligations.SampleWordsDecode : Prop :=
  decode [0b11110000, 0x2D] = .ok (.setVisualColor, 1) ∧
  decode [0b11110110, 0x00, 0x04, 0x00] = .ok (.longLines, 1) ∧
  decode [0b11111000, 0x00, 0x01, 0x01] = .ok (.floodFill, 1) ∧
  decode [0b11110100, 0x00, 0x05, 0x05] = .ok (.shortRelativePatterns, 1) ∧
  decode [0b11111110, 0b00000001, 0x03] = .ok (.setEntirePalette, 2) ∧
  decode [0b11111110, 0b00000111, 0x00] = .ok (.ext07, 2) ∧
  decode [0b11111110, 0b11111111] = .ok (.extUnknown80FF 0xFF, 2) ∧
  decode [0b11101111, 0xFF] = .ok (.unknownOpcodeE0EF 0xEF, 1) ∧
  decode [0b11111111, 0x12] = .ok (.pictureEnd, 1) ∧
  decode [] = .error .endOfStream

/-- R55. -/
def Obligations.NextIsCommandRule : Prop :=
  ∀ s : State, nextIsCommand s = true ↔
    s.prog.length ≤ s.pos ∨ ∃ b, s.prog[s.pos]? = some b ∧ 0xF0 ≤ b.toNat

/-- R56: the bytes `u`, `lx`, `ly` in that order; the two formulas, in the range 0..4095, unsigned and not clamped; property
5, that the assembled coordinate decodes to itself; and that `u >= 0xF0`, which is `x >= 3840`, ends a repeated payload in
place of its next element and is fetched as any other where the coordinate is a fixed one. -/
def Obligations.AbsoluteCoordinateCodec : Prop :=
  (∀ (s : State) (u lx ly : Byte), StreamHas s [u, lx, ly] →
    fetchAbs s = .done (absPoint u lx ly) { s with pos := s.pos + 3 }) ∧
  (∀ u lx ly : Byte,
    (absPoint u lx ly).x = (((u.toNat &&& 0xF0) <<< 4 ||| lx.toNat : Nat) : Int) ∧
    (absPoint u lx ly).y = (((u.toNat &&& 0x0F) <<< 8 ||| ly.toNat : Nat) : Int) ∧
    0 ≤ (absPoint u lx ly).x ∧ (absPoint u lx ly).x ≤ 4095 ∧
    0 ≤ (absPoint u lx ly).y ∧ (absPoint u lx ly).y ≤ 4095) ∧
  (∀ x y : Nat, x ≤ 4095 → y ≤ 4095 →
    ∃ u lx ly, encodeAbs ⟨x, y⟩ = [u, lx, ly] ∧ absPoint u lx ly = ⟨x, y⟩) ∧
  (∀ u lx ly : Byte, 3840 ≤ (absPoint u lx ly).x ↔ 0xF0 ≤ u.toNat) ∧
  (∀ (s : State) (u lx ly : Byte), StreamHas s [u, lx, ly] → 0xF0 ≤ u.toNat →
    exec .floodFill s = .next s ∧ exec .longPatterns s = .next s ∧
    (s.prog.length = s.pos + 3 → exec .longLines s = .next { s with pos := s.pos + 3 }))

/-- The short-relative delta (spec/30_encoding.md, section 3) with the sign polarity of decision D9 (log entry 14), on every
byte, without a clamp; and property 6 of the source. -/
def Obligations.ShortDeltaCodec : Prop :=
  (∀ (b : Byte) (p : Point),
    (shortStep b p).x =
      p.x + (if 128 ≤ b.toNat then -((b.toNat / 16 % 8 : Nat) : Int) else ((b.toNat / 16 % 8 : Nat) : Int)) ∧
    (shortStep b p).y =
      p.y + (if 8 ≤ b.toNat % 16 then -((b.toNat % 8 : Nat) : Int) else ((b.toNat % 8 : Nat) : Int))) ∧
  (∀ (dx dy : Int) (p : Point), -7 ≤ dx → dx ≤ 7 → -7 ≤ dy → dy ≤ 7 →
    shortStep (encodeShort dx dy) p = ⟨p.x + dx, p.y + dy⟩)

/-- The medium-relative delta (spec/30_encoding.md, section 3) with the sign polarity of decision D9 and the clamp (log
entries 14, 17), on every pair of bytes; and the inverse that the assembler gives. -/
def Obligations.MediumDeltaCodec : Prop :=
  (∀ (dyByte dxByte : Byte) (p : Point),
    (mediumStep dyByte dxByte p).x = max 0 (min 319 (p.x + dxByte.toInt)) ∧
    (mediumStep dyByte dxByte p).y =
      max 0 (min 189 (p.y + (if 128 ≤ dyByte.toNat then -((dyByte.toNat % 128 : Nat) : Int) else (dyByte.toNat : Int))))) ∧
  (∀ (dx dy : Int) (p : Point), -128 ≤ dx → dx ≤ 127 → -127 ≤ dy → dy ≤ 127 →
    mediumStep (encodeMediumDy dy) (encodeMediumDx dx) p = ⟨max 0 (min 319 (p.x + dx)), max 0 (min 189 (p.y + dy))⟩)

/-! ### Reset, and one step -/

/-- The state after reset (spec/10_state.md section 8, spec/70_reset_and_hazards.md section 1), the default palette being that
of the configuration; and what the host's loading leaves: its stream and its configuration, and else the same (section 3;
decision D25, log entries 29, 39). The pen without a value,
the empty locks, `Running` and code 0 are decisions D7, D8 and D15 (log entries 4, 5, 6); that entry 0 of the default
palette is the pen (0,0) is what the spec derives from scenario S2 (log entry 3). -/
def Obligations.ResetState : Prop :=
  ∀ s : State,
    (assertReset s).pos = 0 ∧ (assertReset s).visualEnabled = true ∧ (assertReset s).patternFlags = 0 ∧
    (∀ p : Point, onCanvas p = true → fbGet (address p) (assertReset s).fb = 0xF) ∧
    (∀ (p : Fin 4) (k : Fin 40), (assertReset s).pal[40 * p.val + k.val] = defaultPen s.config k) ∧
    defaultPen s.config 0 = 0x00 ∧ (∀ k : Fin 39, defaultPen s.config k.succ = s.config.defaultPalette[k]) ∧
    (assertReset s).pen = none ∧ (∀ j : Fin 40, (assertReset s).locked[j] = false) ∧
    (assertReset s).status = .running ∧ (assertReset s).fault = .noFault ∧ (assertReset s).prog = s.prog ∧
    (assertReset s).config = s.config ∧
    ∀ (c : Configuration) (stream : List Byte),
      (hostConfigure c s).config = c ∧ (hostConfigure c s).prog = s.prog ∧ (hostWriteStream stream s).prog = stream ∧
      (hostWriteStream stream s).config = s.config ∧
      hostLoad c stream = assertReset { s with config := c, prog := stream }

/-- The invariant holds right after reset, whatever stream and configuration the host has placed. That `status` is not
`Faulted` and `fault` holds no code at reset is decision D15 (log entry 6); the canonical form is the model's (log entry
2). -/
def Obligations.InvariantAtReset : Prop :=
  ∀ (c : Configuration) (stream : List Byte), (hostLoad c stream).Inv

/-- Every step keeps the invariant: the cursor within the stream, the framebuffer in its canonical form (which is the model's,
log entry 2), and `fault` naming a fault exactly in a faulted block (the two registers are decision D15, log entry 6). -/
def Obligations.StepKeepsInvariant : Prop :=
  ∀ s t : State, s.Inv → step s = .next t → t.Inv

/-- The header check (spec/30_encoding.md section 1). That a stream of fewer than two bytes fails it with InvalidResource is
decision D16 (log entry 20); that it is a step of its own is log entry 7. -/
def Obligations.HeaderCheckStep : Prop :=
  ∀ s : State, s.status = .running → s.pos = 0 →
    ((∃ rest, s.prog = 0x81 :: 0x00 :: rest) → step s = .next { s with pos := 2 }) ∧
    ((¬ ∃ rest, s.prog = 0x81 :: 0x00 :: rest) →
      step s = .next { s with status := .faulted, fault := .invalidResource })

/-- Where the bytes at the program counter decode to an instruction, the step is that instruction's meaning, in the state
whose `pos` is just past the opcode bytes. -/
def Obligations.StepRunsDecodedInstruction : Prop :=
  ∀ (s : State) (i : Instr) (n : Nat), s.status = .running → s.pos ≠ 0 →
    decode (s.prog.drop s.pos) = .ok (i, n) → step s = exec i { s with pos := s.pos + n }

/-- At the end of the stream the main loop's fetch raises UnexpectedEnd (spec/60_exceptions.md section 2); a halted or
faulted block stays as it is (spec/10_state.md section 4, spec/60_exceptions.md section 3; log entry 8). -/
def Obligations.StepWithoutCommand : Prop :=
  (∀ s : State, s.status = .running → s.pos ≠ 0 → s.prog.length ≤ s.pos →
    step s = .next { s with status := .faulted, fault := .unexpectedEnd }) ∧
  (∀ s : State, s.status ≠ .running → step s = .next s)

/-- Fault entry writes `fault` and `status` and nothing else, and the codes are those of the table (spec/60_exceptions.md
sections 1 and 3; the numbers are decision D15, log entry 6). -/
def Obligations.FaultEntryAndCodes : Prop :=
  (∀ (f : FaultCode) (s : State), takeFault f s = { s with status := .faulted, fault := f }) ∧
  ([.noFault, .invalidResource, .unknownOpcode, .unknownExtendedOpcode, .invalidPaletteBank, .invalidPaletteIndex,
    .unexpectedEnd, .fillStackOverflow, .outOfBounds, .penUnset].map faultNumber = [0, 1, 2, 3, 4, 5, 6, 7, 8, 9])

/-! ### Rules of the whole machine -/

/-- No step writes the stream or the configuration, and `pos` only moves forward, never past the end (spec/10_state.md section 2,
spec/20_memory.md section 1). -/
def Obligations.StreamIsReadForward : Prop :=
  ∀ s t : State, step s = .next t →
    t.prog = s.prog ∧ t.config = s.config ∧ s.pos ≤ t.pos ∧ (s.pos ≤ s.prog.length → t.pos ≤ s.prog.length)

/-- A lock lasts: no step clears a lock bit (spec/10_state.md section 5; that `setEntirePalette` clears none is decision D28,
log entry 5). -/
def Obligations.LocksPersist : Prop :=
  ∀ (s t : State) (j : Fin 40), s.locked[j] = true → step s = .next t → t.locked[j] = true

/-- Who writes what (the access matrix of spec/10_state.md section 9): each register, the palette, the locks and the
framebuffer are changed by the named instructions only, and only `pictureEnd` halts the block. `extendedCommand` is the
dispatch to the palette commands (spec/44_extended.md). Not of section 9: that no instruction writes the stream
(spec/10_state.md section 1, spec/20_memory.md section 1); that none writes the configuration, which the model holds as data
in the state (log entry 39); that `setEntirePalette` changes no lock, which is decision D28 (log entry 5, unsafe); and the
registers `status` and `fault` as such, which are decision D15 (log entry 6). -/
def Obligations.AccessMatrix : Prop :=
  ∀ (i : Instr) (s t : State), exec i s = .next t →
    t.prog = s.prog ∧ t.config = s.config ∧
    (t.pen ≠ s.pen → i = .setVisualColor) ∧
    (t.visualEnabled ≠ s.visualEnabled → i = .setVisualColor ∨ i = .disableVisual) ∧
    (t.patternFlags ≠ s.patternFlags → i = .setPattern) ∧
    (t.pal ≠ s.pal → i = .setPaletteEntries ∨ i = .setEntirePalette ∨ i = .extendedCommand) ∧
    (t.locked ≠ s.locked → i = .setPaletteEntries ∨ i = .extendedCommand) ∧
    (t.fb ≠ s.fb → i ∈ [Instr.longLines, .mediumRelativeLines, .shortRelativeLines, .floodFill, .longPatterns,
      .shortRelativePatterns, .mediumRelativePatterns]) ∧
    (t.status = .halted → s.status = .halted ∨ i = .pictureEnd) ∧
    (t.status ≠ s.status → t.status = .halted ∨ (t.status = .faulted ∧ t.fault ≠ .noFault))

/-- No instruction in any state makes the model stop with a fault or a refusal of its own, and no step does: a fault of the
hardware is a next state (log entry 9), and a fill ends within the pops that spec/42_fill.md section 1 allows. -/
def Obligations.EveryStepIsANextState : Prop :=
  (∀ (i : Instr) (s : State), ∃ t, exec i s = .next t) ∧ (∀ s : State, ∃ t, step s = .next t)

/-- Every run ends, `Halted` or `Faulted` (spec/70_reset_and_hazards.md section 6): from any state, after one step more than
there are unread bytes. -/
def Obligations.EveryRunEnds : Prop :=
  ∀ s : State, ∃ t, Host.Core.run core (bytesLeft s + 1) s = .next t ∧ t.status ≠ .running

/-- The canonical form is unique: two framebuffers in it whose cells read alike are the same list. -/
def Obligations.CanonicalFramebufferIsUnique : Prop :=
  ∀ m m' : Framebuffer, Memory.wf m = true → Memory.wf m' = true → (∀ a, fbGet a m = fbGet a m') → m = m'

/-- What the host reads: a pixel only of a halted block, and then the cell of the framebuffer (spec/70_reset_and_hazards.md
section 3; decision D25, log entry 29). -/
def Obligations.HostReadsTheResult : Prop :=
  ∀ (s : State) (p : Point),
    (s.status ≠ .halted → hostPixel s p = none) ∧
    (s.status = .halted → onCanvas p = true → hostPixel s p = some (fbGet (address p) s.fb)) ∧
    (∀ c stream, SuccessfulRun c stream s → onCanvas p = true → hostPixel s p = some (fbGet (address p) s.fb))

/-! ### Colour and enable commands -/

/-- `setVisualColor` (spec/40_color_and_enable.md section 2): with a palette index 0..159 it loads the pen of the slot, or of
the bank-0 slot where that one is locked, and enables drawing; nothing else changes but `pos`. An index above 159 raises
InvalidPaletteIndex (decision D13, log entry 18), no payload byte UnexpectedEnd, and neither changes pen or flag. The pen of a slot's
byte is the pair of its high and its low nibble (spec/30_encoding.md section 3), and every pen is some byte's. -/
def Obligations.SetVisualColorRule : Prop :=
  (∀ (s : State) (c : Byte) (h : c.toNat < 160), s.prog[s.pos]? = some c →
    exec .setVisualColor s = .next { s with
      pos := s.pos + 1
      visualEnabled := true
      pen := some (penOfByte
        (if s.locked[c.toNat % 40]'(by omega) = true then s.pal[c.toNat % 40]'(by omega) else s.pal[c.toNat])) }) ∧
  (∀ (s : State) (c : Byte), 160 ≤ c.toNat → s.prog[s.pos]? = some c →
    exec .setVisualColor s =
      .next { s with pos := s.pos + 1, status := .faulted, fault := .invalidPaletteIndex }) ∧
  (∀ s : State, s.prog.length ≤ s.pos →
    exec .setVisualColor s = .next { s with status := .faulted, fault := .unexpectedEnd }) ∧
  (∀ c : Byte, (penOfByte c).a.toNat = c.toNat / 16 ∧ (penOfByte c).b.toNat = c.toNat % 16) ∧
  (∀ p : Pen, penOfByte (byteOfPen p) = p)

/-- `disableVisual` writes the flag and nothing else (spec/40_color_and_enable.md section 2). -/
def Obligations.DisableVisualRule : Prop :=
  ∀ s : State, exec .disableVisual s = .next { s with visualEnabled := false }

/-- R74, R76: `setPriorityColor` and `setControlColor` consume one byte, whatever it is, and write nothing but `pos`; where
there is no byte they raise UnexpectedEnd. -/
def Obligations.IgnoredColourByte : Prop :=
  ∀ i : Instr, i = .setPriorityColor ∨ i = .setControlColor → ∀ s : State,
    (s.pos < s.prog.length → exec i s = .next { s with pos := s.pos + 1 }) ∧
    (s.prog.length ≤ s.pos → exec i s = .next { s with status := .faulted, fault := .unexpectedEnd })

/-- R75, R77: `disablePriority` and `disableControl` do nothing. -/
def Obligations.NoOperations : Prop :=
  ∀ s : State, exec .disablePriority s = .next s ∧ exec .disableControl s = .next s

/-- `pictureEnd` halts the block and changes nothing else (spec/40_color_and_enable.md section 3). -/
def Obligations.PictureEndHalts : Prop :=
  ∀ s : State, exec .pictureEnd s = .next { s with status := .halted }

/-- A byte below 0xF0 in opcode position raises UnknownOpcode, `pos` just past it, and each of the four rows does so; a byte
at or above 0xF0 never decodes to one of them (spec/40_color_and_enable.md section 1, spec/60_exceptions.md section 2). -/
def Obligations.UnknownOpcodeFaults : Prop :=
  (∀ (s : State) (b : Byte), s.status = .running → s.pos ≠ 0 → s.prog[s.pos]? = some b → b.toNat < 0xF0 →
    step s = .next { s with pos := s.pos + 1, status := .faulted, fault := .unknownOpcode }) ∧
  (∀ (s : State) (b : Byte),
    exec (.unknownOpcode007F b) s = .next { s with status := .faulted, fault := .unknownOpcode } ∧
    exec (.unknownOpcode80BF b) s = .next { s with status := .faulted, fault := .unknownOpcode } ∧
    exec (.unknownOpcodeC0DF b) s = .next { s with status := .faulted, fault := .unknownOpcode } ∧
    exec (.unknownOpcodeE0EF b) s = .next { s with status := .faulted, fault := .unknownOpcode }) ∧
  (∀ (b c : Byte) (rest : List Byte) (n : Nat), 0xF0 ≤ b.toNat →
    decode (b :: rest) ≠ .ok (.unknownOpcode007F c, n) ∧ decode (b :: rest) ≠ .ok (.unknownOpcode80BF c, n) ∧
    decode (b :: rest) ≠ .ok (.unknownOpcodeC0DF c, n) ∧ decode (b :: rest) ≠ .ok (.unknownOpcodeE0EF c, n))

/-! ### The extended command and the palette -/

/-- R147: `0xFE s` with `s >= 0x09` raises UnknownExtendedOpcode, `pos` just past `s`, nothing else written; and each of the
seven rows does so. -/
def Obligations.UnknownExtendedOpcodeFaults : Prop :=
  (∀ (s : State) (sub : Byte), s.status = .running → s.pos ≠ 0 → StreamHas s [0xFE, sub] → 0x09 ≤ sub.toNat →
    step s = .next { s with pos := s.pos + 2, status := .faulted, fault := .unknownExtendedOpcode }) ∧
  (∀ (s : State) (sub : Byte) (i : Instr),
    i ∈ [Instr.extUnknown09, .extUnknown0A0B sub, .extUnknown0C0F sub, .extUnknown101F sub, .extUnknown203F sub,
      .extUnknown407F sub, .extUnknown80FF sub] →
    exec i s = .next { s with status := .faulted, fault := .unknownExtendedOpcode })

/-- R141: the extended command fetches its sub-opcode, UnexpectedEnd where there is none, and does what the instruction that
the sub-opcode selects does; from 0x09 on, 0xF0 and above included, it raises UnknownExtendedOpcode. -/
def Obligations.ExtendedCommandDispatch : Prop :=
  (∀ (s : State) (sub : Byte), s.prog[s.pos]? = some sub →
    (sub.toNat = 0x00 → exec .extendedCommand s = exec .setPaletteEntries { s with pos := s.pos + 1 }) ∧
    (sub.toNat = 0x01 → exec .extendedCommand s = exec .setEntirePalette { s with pos := s.pos + 1 }) ∧
    (∀ i, i ∈ [Instr.ext02, .ext03, .ext04, .ext05, .ext06, .ext07, .ext08] → 0x02 ≤ sub.toNat → sub.toNat ≤ 0x08 →
      exec .extendedCommand s = exec i { s with pos := s.pos + 1 }) ∧
    (0x09 ≤ sub.toNat → exec .extendedCommand s =
      .next { s with pos := s.pos + 1, status := .faulted, fault := .unknownExtendedOpcode })) ∧
  (∀ s : State, s.prog.length ≤ s.pos →
    exec .extendedCommand s = .next { s with status := .faulted, fault := .unexpectedEnd })

/-- The skipping sub-opcodes move `pos` to the next byte at or above 0xF0, or to the end of the stream, and write nothing
else; so does the extended command with such a sub-opcode (spec/44_extended.md, the skip of decision D14, log entry 19). -/
def Obligations.SkippedPayload : Prop :=
  (∀ (i : Instr) (s : State), i ∈ [Instr.ext02, .ext03, .ext04, .ext05, .ext06, .ext07, .ext08] →
    exec i s = .next { s with
      pos := s.pos + ((s.prog.drop s.pos).takeWhile fun b => decide (b.toNat < 0xF0)).length }) ∧
  (∀ (s : State) (sub : Byte), s.prog[s.pos]? = some sub → 0x02 ≤ sub.toNat → sub.toNat ≤ 0x08 →
    exec .extendedCommand s = .next { s with
      pos := s.pos + 1 + ((s.prog.drop (s.pos + 1)).takeWhile fun b => decide (b.toNat < 0xF0)).length })

/-- `setPaletteEntries` with slots 0..159 (spec/44_extended.md): each slot holds the last colour byte written to it, the slots
of bank 0 that were written are locked, and nothing else changes but `pos`, `status` and `fault` included. -/
def Obligations.SetPaletteEntriesWrites : Prop :=
  ∀ (s : State) (es : List (Fin 160 × Byte)), PayloadIs s (entryBytes es) →
    exec .setPaletteEntries s = .next { writeEntries es s with pos := s.pos + 2 * es.length } ∧
    writeEntries es s = { s with pal := (writeEntries es s).pal, locked := (writeEntries es s).locked } ∧
    (∀ i : Fin 160, (writeEntries es s).pal[i] =
      match es.reverse.find? (fun e => e.1 == i) with
      | some e => e.2
      | none => s.pal[i]) ∧
    (∀ j : Fin 40, (writeEntries es s).locked[j] = (s.locked[j] || es.any fun e => e.1.val == j.val))

/-- `setEntirePalette` (spec/44_extended.md): the forty slots of the bank, in ascending order; every other slot, the locks
(decision D28, log entry 5) and everything but `pos` stay. -/
def Obligations.SetEntirePaletteWrites : Prop :=
  ∀ (s : State) (p : Fin 4) (cs : Vector Byte 40), StreamHas s (BitVec.ofNat 8 p.val :: cs.toList) →
    ∃ t, exec .setEntirePalette s = .next t ∧ t = { s with pos := s.pos + 41, pal := t.pal } ∧
      ∀ i : Fin 160, t.pal[i] = if i.val / 40 = p.val then cs[i.val % 40]'(Nat.mod_lt _ (by decide)) else s.pal[i]

/-- Where the palette commands fault (spec/60_exceptions.md section 3; the order of the checks is decision D24, log entry
28): a slot of 160..239 after both bytes of its pair are fetched, the earlier pairs written; a pair cut short at the end of
the stream; a bank above 3 before any colour byte; a bank cut short, or no bank byte. -/
def Obligations.PaletteCommandFaults : Prop :=
  (∀ (s : State) (es : List (Fin 160 × Byte)) (i c : Byte), StreamHas s (entryBytes es ++ [i, c]) →
    160 ≤ i.toNat → i.toNat < 240 →
    exec .setPaletteEntries s = .next { writeEntries es s with
      pos := s.pos + 2 * es.length + 2, status := .faulted, fault := .invalidPaletteIndex }) ∧
  (∀ (s : State) (es : List (Fin 160 × Byte)) (i : Byte), s.prog.drop s.pos = entryBytes es ++ [i] → i.toNat < 240 →
    exec .setPaletteEntries s = .next { writeEntries es s with
      pos := s.prog.length, status := .faulted, fault := .unexpectedEnd }) ∧
  (∀ (s : State) (p : Byte), s.prog[s.pos]? = some p → 4 ≤ p.toNat →
    exec .setEntirePalette s =
      .next { s with pos := s.pos + 1, status := .faulted, fault := .invalidPaletteBank }) ∧
  (∀ (s : State) (p : Fin 4) (cs : List Byte), s.prog.drop s.pos = BitVec.ofNat 8 p.val :: cs → cs.length < 40 →
    ∃ t, exec .setEntirePalette s = .next t ∧
      t = { s with pos := s.prog.length, pal := t.pal, status := .faulted, fault := .unexpectedEnd } ∧
      ∀ i : Fin 160, t.pal[i] =
        if h : i.val / 40 = p.val ∧ i.val % 40 < cs.length then cs[i.val % 40]'h.2 else s.pal[i]) ∧
  (∀ s : State, s.prog.length ≤ s.pos →
    exec .setEntirePalette s = .next { s with status := .faulted, fault := .unexpectedEnd })

/-! ### Drawing primitives -/

/-- R90: the effective colour, and property 2 for a pen of two different indices. -/
def Obligations.EffectiveColour : Prop :=
  ∀ (a b : Ega) (p : Point),
    (eff ⟨a, b⟩ p = if (p.x + p.y) % 2 = 1 then a else b) ∧
    (a ≠ b → (eff ⟨a, b⟩ p = a ↔ (p.x + p.y) % 2 = 1)) ∧
    eff ⟨a, a⟩ p = a ∧ eff ⟨a, b⟩ ⟨p.x + 1, p.y⟩ = eff ⟨b, a⟩ p

/-- `Plot` (spec/41_lines.md section 1): nothing when disabled; PenUnset with no pen (decision D7, log entry 4), and before
OutOfBounds (decision D24, log entry 28); OutOfBounds outside the canvas (decision D4, log entry 10); else one cell. -/
def Obligations.PlotRule : Prop :=
  ∀ (p : Point) (s : State),
    plot p s =
      if s.visualEnabled = false then .done () s
      else match s.pen with
        | none => .raised { s with status := .faulted, fault := .penUnset }
        | some pen =>
          if 0 ≤ p.x ∧ p.x ≤ 319 ∧ 0 ≤ p.y ∧ p.y ≤ 189 then
            .done () { s with fb := fbPut (p.y * 320 + p.x).toNat (eff pen p) s.fb }
          else .raised { s with status := .faulted, fault := .outOfBounds }

/-- Painting reads back: in a framebuffer in canonical form, a cell of a painted pixel holds that pixel's effective colour and
every other cell is as before (spec/41_lines.md section 1). -/
def Obligations.PaintedCellsHoldEffectiveColours : Prop :=
  ∀ (pen : Pen) (ps : List Point) (m : Framebuffer), Memory.wf m = true → (∀ p ∈ ps, onCanvas p = true) →
    Memory.wf (paint pen ps m) = true ∧
    (∀ p ∈ ps, fbGet (address p) (paint pen ps m) = eff pen p) ∧
    (∀ q, onCanvas q = true → q ∉ ps → fbGet (address q) (paint pen ps m) = fbGet (address q) m)

/-- The pixels of a line (spec/41_lines.md, items 1, 2 and 4 of the properties; the algorithm is decision D5, log entry 11):
the first is the start, the last is the end, and there are `max(|x1-x0|, |y1-y0|) + 1`. -/
def Obligations.LineEndpointsAndLength : Prop :=
  ∀ p q : Point,
    (linePixels p q).head? = some p ∧ (linePixels p q).getLast? = some q ∧
    (linePixels p q).length = max (q.x - p.x).natAbs (q.y - p.y).natAbs + 1

/-- The pixels of a line at every slope (spec/41_lines.md section 1; the algorithm is decision D5, log entry 11), and items 3
and 6 of its properties: successive pixels differ by at most 1 in each coordinate and by exactly 1 in the one of the larger
distance, and all lie in the bounding box of the two ends; pixel `k` is `k` steps along the longer axis, and along the
shorter one the exact line's offset rounded to the nearest, halves up. -/
def Obligations.LineStepsAndBox : Prop :=
  ∀ p q : Point,
    (linePixels p q).IsChain (fun a b =>
      (b.x - a.x).natAbs ≤ 1 ∧ (b.y - a.y).natAbs ≤ 1 ∧
      ((q.y - p.y).natAbs ≤ (q.x - p.x).natAbs → (b.x - a.x).natAbs = 1) ∧
      ((q.x - p.x).natAbs ≤ (q.y - p.y).natAbs → (b.y - a.y).natAbs = 1)) ∧
    (∀ r ∈ linePixels p q, min p.x q.x ≤ r.x ∧ r.x ≤ max p.x q.x ∧ min p.y q.y ≤ r.y ∧ r.y ≤ max p.y q.y) ∧
    ∀ k : Nat, k ≤ max (q.x - p.x).natAbs (q.y - p.y).natAbs →
      (linePixels p q)[k]? = some (
        if (q.y - p.y).natAbs ≤ (q.x - p.x).natAbs then
          ⟨p.x + (q.x - p.x).sign * k,
            p.y + (q.y - p.y).sign *
              ((2 * k * (q.y - p.y).natAbs + (q.x - p.x).natAbs) / (2 * (q.x - p.x).natAbs) : Nat)⟩
        else
          ⟨p.x + (q.x - p.x).sign *
              ((2 * k * (q.x - p.x).natAbs + (q.y - p.y).natAbs) / (2 * (q.y - p.y).natAbs) : Nat),
            p.y + (q.y - p.y).sign * k⟩)

/-- Item 5 of the properties of a line (spec/41_lines.md): horizontal, vertical and exactly diagonal lines, in every
direction. -/
def Obligations.StraightLines : Prop :=
  ∀ (p : Point) (n : Nat) (dx dy : Int), dx ∈ [-1, 0, 1] → dy ∈ [-1, 0, 1] → (dx ≠ 0 ∨ dy ≠ 0) →
    linePixels p ⟨p.x + n * dx, p.y + n * dy⟩ =
      (List.range (n + 1)).map fun k : Nat => (⟨p.x + k * dx, p.y + k * dy⟩ : Point)

/-! ### Polylines -/

/-- `longLines` (spec/41_lines.md section 2), drawing enabled with a pen and every pixel on the canvas: the segments between
successive points are painted, `pos` is past the payload, nothing else changes. With the first point alone nothing is
drawn. -/
def Obligations.LongLinesDraw : Prop :=
  ∀ (s : State) (pen : Pen) (p : Point) (ps : List Point), s.visualEnabled = true → s.pen = some pen →
    Encodable p → (∀ q ∈ ps, Encodable q ∧ StartsElement (encodeAbs q)) →
    PayloadIs s (encodeAbs p ++ ps.flatMap encodeAbs) → (∀ r ∈ pathPixels p ps, onCanvas r = true) →
    exec .longLines s =
      .next { s with pos := s.pos + 3 * (ps.length + 1), fb := paint pen (pathPixels p ps) s.fb }

/-- `mediumRelativeLines` (spec/41_lines.md section 2): as `longLines`, to the clamped points of the walk. -/
def Obligations.MediumRelativeLinesDraw : Prop :=
  ∀ (s : State) (pen : Pen) (p : Point) (ds : List (Byte × Byte)), s.visualEnabled = true → s.pen = some pen →
    Encodable p → (∀ d ∈ ds, d.1.toNat < 0xF0) →
    PayloadIs s (encodeAbs p ++ ds.flatMap fun d => [d.1, d.2]) →
    (∀ r ∈ pathPixels p (mediumWalk p ds), onCanvas r = true) →
    exec .mediumRelativeLines s =
      .next { s with pos := s.pos + 3 + 2 * ds.length, fb := paint pen (pathPixels p (mediumWalk p ds)) s.fb }

/-- `shortRelativeLines` (spec/41_lines.md section 2): as `longLines`, along the unclamped walk. -/
def Obligations.ShortRelativeLinesDraw : Prop :=
  ∀ (s : State) (pen : Pen) (p : Point) (bs : List Byte), s.visualEnabled = true → s.pen = some pen →
    Encodable p → (∀ b ∈ bs, b.toNat < 0xF0) → PayloadIs s (encodeAbs p ++ bs) →
    (∀ r ∈ pathPixels p (shortWalk p bs), onCanvas r = true) →
    exec .shortRelativeLines s =
      .next { s with pos := s.pos + 3 + bs.length, fb := paint pen (pathPixels p (shortWalk p bs)) s.fb }

/-- The frame of the polyline and pattern commands, whatever the payload and whether or not they fault: no register changes
but `pos`, `status` and `fault`, and every cell outside the pixels of the segments or stamps that the payload describes is
as before (spec/10_state.md section 9, spec/41_lines.md section 2, spec/43_patterns.md sections 2 and 3). Those pixels are
the model's own (`polylinePixels`, `stampListPixels`, `patternPixels`), and they rest on decisions whose log entries are
marked unsafe: the absolute first coordinate of 0xF4 and 0xFD (D11, log entry 16), the stamp's clamp, configured and not fed
back into the running coordinate (D18, log entry 22), the clamp in 0xFD (D12, log entry 17), the polarity of deltas (D9, log
entry 14) and the pixels of a line (D5, log entry 11). -/
def Obligations.LinesAndPatternsFrame : Prop :=
  ∀ s t : State,
    (exec .longLines s = .next t → SameButDrawing s t ∧ SameCellsOutside (polylinePixels nextAbs s) s t) ∧
    (exec .mediumRelativeLines s = .next t →
      SameButDrawing s t ∧ SameCellsOutside (polylinePixels nextMedium s) s t) ∧
    (exec .shortRelativeLines s = .next t →
      SameButDrawing s t ∧ SameCellsOutside (polylinePixels nextShort s) s t) ∧
    (exec .longPatterns s = .next t → SameButDrawing s t ∧ SameCellsOutside (stampListPixels s) s t) ∧
    (exec .shortRelativePatterns s = .next t →
      SameButDrawing s t ∧ SameCellsOutside (patternPixels nextShort s) s t) ∧
    (exec .mediumRelativePatterns s = .next t →
      SameButDrawing s t ∧ SameCellsOutside (patternPixels nextMedium s) s t)

/-- Where drawing faults, when enabled (spec/60_exceptions.md sections 2 and 3; decisions D4, D7, D24, log entries 4, 10, 28). A
line is drawn up to its first pixel outside the canvas and then raises OutOfBounds; each polyline command ends so at its
first segment that leaves the canvas, the earlier segments painted and `pos` just past that segment's element (the pixels
of a line are decision D5, log entry 11); a seed outside raises it as well. Without a pen, PenUnset is raised at the first
segment of each polyline command, the first seed, and the first plain size-0 stamp of each pattern command (the layout of
the relative ones is decision D11, log entry 16; that the size-0 stamp plots is derived in spec/43_patterns.md section 3,
log entry 23): its element has been fetched and nothing after it. -/
def Obligations.DrawingFaults : Prop :=
  (∀ (s : State) (pen : Pen) (p q : Point) (before : List Point), s.visualEnabled = true → s.pen = some pen →
    FirstOutside (linePixels p q) before →
    drawLine p q s = .raised { s with
      fb := paint pen before s.fb, status := .faulted, fault := .outOfBounds }) ∧
  (∀ (s : State) (pen : Pen) (p q : Point) (ps before : List Point), s.visualEnabled = true → s.pen = some pen →
    Encodable p → (∀ x ∈ ps ++ [q], Encodable x ∧ StartsElement (encodeAbs x)) →
    StreamHas s (encodeAbs p ++ (ps ++ [q]).flatMap encodeAbs) → (∀ r ∈ pathPixels p ps, onCanvas r = true) →
    FirstOutside (linePixels (ps.getLastD p) q) before →
    exec .longLines s = .next { s with
      pos := s.pos + 3 * (ps.length + 2), fb := paint pen (pathPixels p ps ++ before) s.fb
      status := .faulted, fault := .outOfBounds }) ∧
  (∀ (s : State) (pen : Pen) (p : Point) (ds : List (Byte × Byte)) (d : Byte × Byte) (before : List Point),
    s.visualEnabled = true → s.pen = some pen → Encodable p → (∀ e ∈ ds ++ [d], e.1.toNat < 0xF0) →
    StreamHas s (encodeAbs p ++ (ds ++ [d]).flatMap fun e => [e.1, e.2]) →
    (∀ r ∈ pathPixels p (mediumWalk p ds), onCanvas r = true) →
    FirstOutside (linePixels ((mediumWalk p ds).getLastD p) (mediumStep d.1 d.2 ((mediumWalk p ds).getLastD p))) before →
    exec .mediumRelativeLines s = .next { s with
      pos := s.pos + 3 + 2 * (ds.length + 1), fb := paint pen (pathPixels p (mediumWalk p ds) ++ before) s.fb
      status := .faulted, fault := .outOfBounds }) ∧
  (∀ (s : State) (pen : Pen) (p : Point) (bs : List Byte) (b : Byte) (before : List Point),
    s.visualEnabled = true → s.pen = some pen → Encodable p → (∀ e ∈ bs ++ [b], e.toNat < 0xF0) →
    StreamHas s (encodeAbs p ++ (bs ++ [b])) → (∀ r ∈ pathPixels p (shortWalk p bs), onCanvas r = true) →
    FirstOutside (linePixels ((shortWalk p bs).getLastD p) (shortStep b ((shortWalk p bs).getLastD p))) before →
    exec .shortRelativeLines s = .next { s with
      pos := s.pos + 3 + (bs.length + 1), fb := paint pen (pathPixels p (shortWalk p bs) ++ before) s.fb
      status := .faulted, fault := .outOfBounds }) ∧
  (∀ (s : State) (p : Point), s.visualEnabled = true → s.pen ≠ none → Encodable p → StartsElement (encodeAbs p) →
    StreamHas s (encodeAbs p) → onCanvas p = false →
    exec .floodFill s = .next { s with pos := s.pos + 3, status := .faulted, fault := .outOfBounds }) ∧
  (∀ (s : State) (p : Point), s.visualEnabled = true → s.pen = none → Encodable p →
    (∀ q : Point, Encodable q → StartsElement (encodeAbs q) → StreamHas s (encodeAbs p ++ encodeAbs q) →
      exec .longLines s = .next { s with pos := s.pos + 6, status := .faulted, fault := .penUnset }) ∧
    (∀ d : Byte × Byte, d.1.toNat < 0xF0 → StreamHas s (encodeAbs p ++ [d.1, d.2]) →
      exec .mediumRelativeLines s = .next { s with pos := s.pos + 5, status := .faulted, fault := .penUnset }) ∧
    (∀ b : Byte, b.toNat < 0xF0 → StreamHas s (encodeAbs p ++ [b]) →
      exec .shortRelativeLines s = .next { s with pos := s.pos + 4, status := .faulted, fault := .penUnset }) ∧
    (StartsElement (encodeAbs p) → StreamHas s (encodeAbs p) →
      exec .floodFill s = .next { s with pos := s.pos + 3, status := .faulted, fault := .penUnset } ∧
      (usesTexture s.patternFlags = false → isRectangle s.patternFlags = false → patternSize s.patternFlags = 0 →
        ∀ i, i ∈ [Instr.longPatterns, .shortRelativePatterns, .mediumRelativePatterns] →
        exec i s = .next { s with pos := s.pos + 3, status := .faulted, fault := .penUnset })))

/-- Where the stream ends inside an element of a drawing command, UnexpectedEnd is raised with every byte consumed and the
complete elements before it drawn; and where it ends inside the fixed coordinate, before anything is drawn
(spec/60_exceptions.md section 2, spec/41_lines.md section 2, spec/42_fill.md section 2, spec/43_patterns.md section 2;
decisions D5, D9, D11, D12, log entries 11, 14, 16, 17). A short delta without a selector is one byte, so it cannot be
cut. The seeds of `floodFill` before the cut one are those of FloodFillSeedsInTurn. -/
def Obligations.DrawingCutShort : Prop :=
  (∀ (s : State) (bs : List Byte), s.prog.drop s.pos = bs →
    (bs.length < 3 → ∀ i, i ∈ [Instr.longLines, .mediumRelativeLines, .shortRelativeLines] →
      exec i s = .next { s with pos := s.pos + bs.length, status := .faulted, fault := .unexpectedEnd }) ∧
    (bs.length < 3 + selectorBytes s.patternFlags → ∀ i, i ∈ [Instr.shortRelativePatterns, .mediumRelativePatterns] →
      exec i s = .next { s with pos := s.pos + bs.length, status := .faulted, fault := .unexpectedEnd }) ∧
    (CutElement bs 3 →
      exec .floodFill s = .next { s with pos := s.prog.length, status := .faulted, fault := .unexpectedEnd })) ∧
  (∀ (s : State) (pen : Pen) (cut : List Byte), s.visualEnabled = true → s.pen = some pen →
    (∀ (p : Point) (ps : List Point), Encodable p → (∀ q ∈ ps, Encodable q ∧ StartsElement (encodeAbs q)) →
      s.prog.drop s.pos = encodeAbs p ++ ps.flatMap encodeAbs ++ cut → CutElement cut 3 →
      (∀ r ∈ pathPixels p ps, onCanvas r = true) →
      exec .longLines s = .next { s with
        pos := s.prog.length, fb := paint pen (pathPixels p ps) s.fb
        status := .faulted, fault := .unexpectedEnd }) ∧
    (∀ (p : Point) (ds : List (Byte × Byte)), Encodable p → (∀ d ∈ ds, d.1.toNat < 0xF0) →
      s.prog.drop s.pos = encodeAbs p ++ (ds.flatMap fun d => [d.1, d.2]) ++ cut → CutElement cut 2 →
      (∀ r ∈ pathPixels p (mediumWalk p ds), onCanvas r = true) →
      exec .mediumRelativeLines s = .next { s with
        pos := s.prog.length, fb := paint pen (pathPixels p (mediumWalk p ds)) s.fb
        status := .faulted, fault := .unexpectedEnd }) ∧
    (∀ es : List (Option Byte × Point),
      (∀ e ∈ es, e.1.isSome = usesTexture s.patternFlags ∧ Encodable e.2 ∧
        StartsElement (e.1.toList ++ encodeAbs e.2)) →
      s.prog.drop s.pos = (es.flatMap fun e => e.1.toList ++ encodeAbs e.2) ++ cut →
      CutElement cut (3 + selectorBytes s.patternFlags) →
      exec .longPatterns s = .next { s with
        pos := s.prog.length
        fb := paint pen (es.flatMap fun e => stampPixels s.config.pattern e.1 s.patternFlags e.2) s.fb
        status := .faulted, fault := .unexpectedEnd }) ∧
    (∀ (sel : Option Byte) (p : Point) (es : List (Option Byte × Byte)), sel.isSome = usesTexture s.patternFlags →
      Encodable p → (∀ e ∈ es, e.1.isSome = usesTexture s.patternFlags ∧ StartsElement (e.1.toList ++ [e.2])) →
      s.prog.drop s.pos = sel.toList ++ encodeAbs p ++ (es.flatMap fun e => e.1.toList ++ [e.2]) ++ cut →
      CutElement cut (1 + selectorBytes s.patternFlags) →
      exec .shortRelativePatterns s = .next { s with
        pos := s.prog.length
        fb := paint pen (stampPixels s.config.pattern sel s.patternFlags p ++
          ((es.map Prod.fst).zip (shortWalk p (es.map Prod.snd))).flatMap fun e =>
            stampPixels s.config.pattern e.1 s.patternFlags e.2) s.fb
        status := .faulted, fault := .unexpectedEnd }) ∧
    (∀ (sel : Option Byte) (p : Point) (es : List (Option Byte × Byte × Byte)),
      sel.isSome = usesTexture s.patternFlags → Encodable p →
      (∀ e ∈ es, e.1.isSome = usesTexture s.patternFlags ∧ StartsElement (e.1.toList ++ [e.2.1, e.2.2])) →
      s.prog.drop s.pos = sel.toList ++ encodeAbs p ++ (es.flatMap fun e => e.1.toList ++ [e.2.1, e.2.2]) ++ cut →
      CutElement cut (2 + selectorBytes s.patternFlags) →
      exec .mediumRelativePatterns s = .next { s with
        pos := s.prog.length
        fb := paint pen (stampPixels s.config.pattern sel s.patternFlags p ++
          ((es.map Prod.fst).zip (mediumWalk p (es.map Prod.snd))).flatMap fun e =>
            stampPixels s.config.pattern e.1 s.patternFlags e.2) s.fb
        status := .faulted, fault := .unexpectedEnd }))

/-- With `visualEnabled` false the drawing commands (spec/40_color_and_enable.md section 2, spec/41_lines.md section 2,
spec/43_patterns.md section 2) change no state but `pos`, unless the stream ends inside their payload; and they consume the
payload exactly as when enabled. -/
def Obligations.DisabledDrawingConsumesOnly : Prop :=
  ∀ i : Instr,
    i ∈ [Instr.longLines, .mediumRelativeLines, .shortRelativeLines, .floodFill, .longPatterns, .shortRelativePatterns,
      .mediumRelativePatterns] →
    (∀ s : State, s.visualEnabled = false →
      ∃ t, exec i s = .next t ∧
        (t = { s with pos := t.pos } ∨
          t = { s with pos := s.prog.length, status := .faulted, fault := .unexpectedEnd } ∨
          (s.prog.length ≤ s.pos ∧ t = { s with status := .faulted, fault := .unexpectedEnd }))) ∧
    (∀ s t : State, s.status = .running → exec i s = .next t → t.status = .running →
      exec i { s with visualEnabled := false } = .next { s with visualEnabled := false, pos := t.pos })

/-! ### The flood fill -/

/-- The result of a fill (spec/42_fill.md section 1; that reachability is judged on the framebuffer before the fill is decision
D6, log entry 12), drawing enabled with a pen: a fill that completes gives every cell of the region its effective colour, and
no fill, not even one that faults, changes a cell outside the region or any register but `status` and `fault`. -/
def Obligations.FillPaintsTheRegion : Prop :=
  ∀ (s t : State) (pen : Pen) (p : Point), s.visualEnabled = true → s.pen = some pen → Memory.wf s.fb = true →
    (floodFill p s = .done () t →
      t = { s with fb := t.fb } ∧
      ∀ q, onCanvas q = true → Region s.fb p q → fbGet (address q) t.fb = eff pen q) ∧
    (floodFill p s = .done () t ∨ floodFill p s = .raised t →
      t = { s with status := t.status, fault := t.fault, fb := t.fb } ∧
      ∀ q, onCanvas q = true → ¬ Region s.fb p q → fbGet (address q) t.fb = fbGet (address q) s.fb)

/-- The checks before a fill (spec/42_fill.md section 1), in order: disabled, no pen (decision D7), a seed outside the canvas
(decision D4), a seed that is not background (log entries 4, 10, 28); and the bound: a push on 32768 pending sites is the
overflow and a push on fewer is none. Then the loop: it starts with the seed, examines the cells to the right, left, below
and above of the site it pops, in that order (decision D6, log entry 12), raises FillStackOverflow where a push overflows,
the popped site painted, goes on where none does, and ends with the stack. -/
def Obligations.FillChecks : Prop :=
  (∀ (s : State) (p : Point),
    (s.visualEnabled = false → floodFill p s = .done () s) ∧
    (s.visualEnabled = true → s.pen = none →
      floodFill p s = .raised { s with status := .faulted, fault := .penUnset }) ∧
    (s.visualEnabled = true → s.pen ≠ none → onCanvas p = false →
      floodFill p s = .raised { s with status := .faulted, fault := .outOfBounds }) ∧
    (s.visualEnabled = true → s.pen ≠ none → onCanvas p = true → fbGet (address p) s.fb ≠ 0xF →
      floodFill p s = .done () s)) ∧
  (∀ (m : Framebuffer) (p : Point) (ps visited stack : List Point), onCanvas p = true → p ∉ visited →
    fbGet (address p) m = 0xF →
    (stack.length < 32768 → pushSites m (p :: ps) visited stack = pushSites m ps (p :: visited) (p :: stack)) ∧
    (32768 ≤ stack.length → pushSites m (p :: ps) visited stack = none)) ∧
  (∀ p : Point, neighbours p = [⟨p.x + 1, p.y⟩, ⟨p.x - 1, p.y⟩, ⟨p.x, p.y + 1⟩, ⟨p.x, p.y - 1⟩]) ∧
  (∀ (s : State) (pen : Pen) (p : Point), s.visualEnabled = true → s.pen = some pen → onCanvas p = true →
    fbGet (address p) s.fb = 0xF → floodFill p s = fillLoop pen 60800 [p] [p] s) ∧
  (∀ (pen : Pen) (n : Nat) (visited stack : List Point) (c : Point) (s : State), onCanvas c = true →
    (pushSites (fbPut (address c) (eff pen c) s.fb) (neighbours c) visited stack = none →
      fillLoop pen (n + 1) visited (c :: stack) s = .raised { s with
        fb := fbPut (address c) (eff pen c) s.fb, status := .faulted, fault := .fillStackOverflow }) ∧
    (∀ v st, pushSites (fbPut (address c) (eff pen c) s.fb) (neighbours c) visited stack = some (v, st) →
      fillLoop pen (n + 1) visited (c :: stack) s =
        fillLoop pen n v st { s with fb := fbPut (address c) (eff pen c) s.fb }) ∧
    fillLoop pen n visited [] s = .done () s)

/-- A fill whose region has at most 32768 cells completes (spec/42_fill.md section 1, item 2 of the stack bound). -/
def Obligations.SmallFillCompletes : Prop :=
  ∀ (s : State) (pen : Pen) (p : Point) (cells : List Point), s.visualEnabled = true → s.pen = some pen →
    Memory.wf s.fb = true → onCanvas p = true → (∀ q, Region s.fb p q → q ∈ cells) → cells.length ≤ 32768 →
    ∃ t, floodFill p s = .done () t

/-- The command (spec/42_fill.md section 2) with one seed on the canvas whose region has at most 32768 cells: the region holds
its effective colours, every other cell is as before, `pos` is past the seed, nothing else changes. -/
def Obligations.FloodFillOneSeed : Prop :=
  ∀ (s : State) (pen : Pen) (p : Point) (cells : List Point), s.visualEnabled = true → s.pen = some pen →
    Memory.wf s.fb = true → onCanvas p = true → (∀ q, Region s.fb p q → q ∈ cells) → cells.length ≤ 32768 →
    PayloadIs s (encodeAbs p) →
    ∃ t, exec .floodFill s = .next t ∧ t = { s with pos := s.pos + 3, fb := t.fb } ∧
      ∀ q, onCanvas q = true →
        (Region s.fb p q → fbGet (address q) t.fb = eff pen q) ∧
        (¬ Region s.fb p q → fbGet (address q) t.fb = fbGet (address q) s.fb)

/-- The command takes its seeds one after another in stream order, each on the framebuffer as the fills before left it
(spec/42_fill.md section 2), and ends where the next byte is a command or there is none. -/
def Obligations.FloodFillSeedsInTurn : Prop :=
  (∀ s : State, nextIsCommand s = true → exec .floodFill s = .next s) ∧
  (∀ (s : State) (u lx ly : Byte), StreamHas s [u, lx, ly] → u.toNat < 0xF0 →
    exec .floodFill s =
      match floodFill (absPoint u lx ly) { s with pos := s.pos + 3 } with
      | .done _ t => exec .floodFill t
      | .raised t => .next t
      | .stuck r => .fault r)

/-- The frame of `floodFill`: no register changes but `pos`, `status` and `fault`, and only background cells are ever painted,
whether or not it faults (spec/42_fill.md section 2, corner case 5). -/
def Obligations.FloodFillFrame : Prop :=
  ∀ s t : State, exec .floodFill s = .next t →
    SameButDrawing s t ∧ ∀ a, fbGet a s.fb ≠ 0xF → fbGet a t.fb = fbGet a s.fb

/-! ### Patterns -/

/-- R126, R127: the fields of the pattern flags, bits 7, 6 and 3 in none of them, and the table index of a selector, its bit 0
not used. -/
def Obligations.PatternFlagAndSelectorFields : Prop :=
  (∀ f : Byte, (patternSize f).val = f.toNat % 8 ∧ (isRectangle f = true ↔ f.toNat / 16 % 2 = 1) ∧
    (usesTexture f = true ↔ f.toNat / 32 % 2 = 1)) ∧
  (∀ (c : PatternConfig) (sel : Byte), ∃ k : Fin 128, k.val = sel.toNat / 2 ∧ textureStart c sel = c.textureStart[k])

/-- `setPattern` stores its payload byte, whatever it is, and raises UnexpectedEnd where there is none (spec/43_patterns.md
section 2). -/
def Obligations.SetPatternRule : Prop :=
  (∀ (s : State) (b : Byte), s.prog[s.pos]? = some b →
    exec .setPattern s = .next { s with pos := s.pos + 1, patternFlags := b }) ∧
  (∀ s : State, s.prog.length ≤ s.pos →
    exec .setPattern s = .next { s with status := .faulted, fault := .unexpectedEnd })

/-- Every pixel of a stamp is on the canvas, for every configuration; the plain circle of size 0 on the canvas is the one pixel
itself. A footprint, placed at its configured position, has each of its pixels once: for a circle those of the configured
mask, for a rectangle every pixel between the configured corners, and in the configured order where that names each once;
that no pixel comes twice and that a rectangle has at least one pixel is the model's choice (log entry 22, unsafe).
The configured clamp is the one used wherever it keeps the footprint on the canvas, but for that circle; and every clamp
that meets what the spec asks of one can be configured, on any list of positions (spec/43_patterns.md section 3; the tables
are decision D18, log entries 22, 23). -/
def Obligations.StampPlacement : Prop :=
  ∀ c : PatternConfig,
    (∀ (sel : Option Byte) (flags : Byte) (p q : Point), q ∈ stampPixels c sel flags p → onCanvas q = true) ∧
    (∀ (flags : Byte) (p : Point), patternSize flags = 0 → isRectangle flags = false → onCanvas p = true →
      stampPixels c none flags p = [p]) ∧
    (∀ (size : Fin 8) (rect : Bool), (footprint c size rect).Nodup) ∧
    (∀ (size : Fin 8) (p : Point),
      p ∈ (footprint c size true).map (Point.plus c.rectangles[size].anchor) ↔
        min c.rectangles[size].corner.1.val c.rectangles[size].opposite.1.val ≤ p.x ∧
        p.x ≤ max c.rectangles[size].corner.1.val c.rectangles[size].opposite.1.val ∧
        min c.rectangles[size].corner.2.val c.rectangles[size].opposite.2.val ≤ p.y ∧
        p.y ≤ max c.rectangles[size].corner.2.val c.rectangles[size].opposite.2.val) ∧
    (∀ size : Fin 8, c.rectangles[size].order.Nodup →
      (∀ e, e ∈ c.rectangles[size].order ↔ inRectangle c.rectangles[size] e = true) →
      (footprint c size true).map (Point.plus c.rectangles[size].anchor) =
        c.rectangles[size].order.map fun e => ⟨e.1.val, e.2.val⟩) ∧
    (∀ (size : Fin 7) (p : Point),
      p ∈ (footprint c size.succ false).map (Point.plus c.circles[size].anchor) ↔
        ∃ e ∈ c.circles[size].cells, p = ⟨e.1.val, e.2.val⟩) ∧
    (∀ size : Fin 7, c.circles[size].cells.Nodup →
      (footprint c size.succ false).map (Point.plus c.circles[size].anchor) =
        c.circles[size].cells.map fun e => ⟨e.1.val, e.2.val⟩) ∧
    (∀ (size : Fin 8) (rect : Bool) (p : Point),
      (∀ o ∈ footprint c size rect, onCanvas (Point.plus (clampTo (configuredClamp c size rect) p) o) = true) →
      ¬ (size = 0 ∧ rect = false ∧ onCanvas p = true) →
      clampStamp c size rect p = clampTo (configuredClamp c size rect) p) ∧
    (∀ (f : Fin 8 → Bool → Point → Point) (ps : List Point),
      (∀ (size : Fin 8) (rect : Bool) (p : Point), ∀ o ∈ footprint c size rect, onCanvas (Point.plus (f size rect p) o) = true) →
      (∀ p, onCanvas p = true → f 0 false p = p) →
      ∃ c' : PatternConfig, c'.texture = c.texture ∧ c'.textureStart = c.textureStart ∧
        (∀ (size : Fin 8) (rect : Bool), footprint c' size rect = footprint c size rect) ∧
        ∀ p ∈ ps, ∀ (size : Fin 8) (rect : Bool), clampStamp c' size rect p = f size rect p)

/-- Which pixels a stamp plots (spec/43_patterns.md section 3): without a selector the whole footprint at the clamped position,
in its order; with one, the pixel of index `j` exactly where the texture bit at the start position plus `j`, wrapping at
254, is 1; and the texture bit at `k` is bit `7 - k mod 8` of texture byte `k / 8`, so the most significant bit of byte 0
comes first (the reading of decision D29, log entry 24). -/
def Obligations.StampPixelSelection : Prop :=
  ∀ (c : PatternConfig) (flags : Byte) (p : Point),
    stampPixels c none flags p =
      (footprint c (patternSize flags) (isRectangle flags)).map
        (Point.plus (clampStamp c (patternSize flags) (isRectangle flags) p)) ∧
    (∀ sel : Byte,
      stampPixels c (some sel) flags p =
        ((footprint c (patternSize flags) (isRectangle flags)).zipIdx.filter fun e =>
          texBit c ⟨((textureStart c sel).val + e.2) % 254, Nat.mod_lt _ (by decide)⟩).map fun e =>
            Point.plus (clampStamp c (patternSize flags) (isRectangle flags) p) e.1) ∧
    ∀ (b : Fin 32) (j : Fin 8) (h : 8 * b.val + j.val < 254),
      texBit c ⟨8 * b.val + j.val, h⟩ = (c.texture[b]).getLsbD (7 - j.val)

/-- `longPatterns` (spec/43_patterns.md section 2), drawing enabled with a pen: every element, with a selector exactly when the
flags ask for one, is stamped in turn; `pos` is past the payload, nothing else changes. -/
def Obligations.LongPatternsDraw : Prop :=
  ∀ (s : State) (pen : Pen) (es : List (Option Byte × Point)), s.visualEnabled = true → s.pen = some pen →
    (∀ e ∈ es, e.1.isSome = usesTexture s.patternFlags ∧ Encodable e.2 ∧
      StartsElement (e.1.toList ++ encodeAbs e.2)) →
    PayloadIs s (es.flatMap fun e => e.1.toList ++ encodeAbs e.2) →
    exec .longPatterns s = .next { s with
      pos := s.pos + (es.flatMap fun e => e.1.toList ++ encodeAbs e.2).length
      fb := paint pen (es.flatMap fun e => stampPixels s.config.pattern e.1 s.patternFlags e.2) s.fb }

/-- `shortRelativePatterns` (spec/43_patterns.md section 2; the absolute first coordinate is decision D11, log entry 16; the
polarity of deltas D9, log entry 14; the stamp's clamp, not fed back into the walk, D18, log entry 22), drawing enabled with
a pen: a stamp at the first point and at each point of the unclamped walk. -/
def Obligations.ShortRelativePatternsDraw : Prop :=
  ∀ (s : State) (pen : Pen) (sel : Option Byte) (p : Point) (es : List (Option Byte × Byte)),
    s.visualEnabled = true → s.pen = some pen → sel.isSome = usesTexture s.patternFlags → Encodable p →
    (∀ e ∈ es, e.1.isSome = usesTexture s.patternFlags ∧ StartsElement (e.1.toList ++ [e.2])) →
    PayloadIs s (sel.toList ++ encodeAbs p ++ es.flatMap fun e => e.1.toList ++ [e.2]) →
    exec .shortRelativePatterns s = .next { s with
      pos := s.pos + (sel.toList ++ encodeAbs p ++ es.flatMap fun e => e.1.toList ++ [e.2]).length
      fb := paint pen (stampPixels s.config.pattern sel s.patternFlags p ++
        ((es.map Prod.fst).zip (shortWalk p (es.map Prod.snd))).flatMap fun e =>
          stampPixels s.config.pattern e.1 s.patternFlags e.2) s.fb }

/-- `mediumRelativePatterns` (spec/43_patterns.md section 2; decisions D9, D11, D12, D18 as above, log entries 14, 16, 17, 22),
drawing enabled with a pen: a stamp at the first point and at each point of the clamped walk. -/
def Obligations.MediumRelativePatternsDraw : Prop :=
  ∀ (s : State) (pen : Pen) (sel : Option Byte) (p : Point) (es : List (Option Byte × Byte × Byte)),
    s.visualEnabled = true → s.pen = some pen → sel.isSome = usesTexture s.patternFlags → Encodable p →
    (∀ e ∈ es, e.1.isSome = usesTexture s.patternFlags ∧ StartsElement (e.1.toList ++ [e.2.1, e.2.2])) →
    PayloadIs s (sel.toList ++ encodeAbs p ++ es.flatMap fun e => e.1.toList ++ [e.2.1, e.2.2]) →
    exec .mediumRelativePatterns s = .next { s with
      pos := s.pos + (sel.toList ++ encodeAbs p ++ es.flatMap fun e => e.1.toList ++ [e.2.1, e.2.2]).length
      fb := paint pen (stampPixels s.config.pattern sel s.patternFlags p ++
        ((es.map Prod.fst).zip (mediumWalk p (es.map Prod.snd))).flatMap fun e =>
          stampPixels s.config.pattern e.1 s.patternFlags e.2) s.fb }

/-! ### Whole commands -/

/-- A line that the assembler accepts (spec/30_encoding.md section 6; decision D21, log entry 36), standing at the program
counter with drawing disabled and its operands in range, is one command: the step consumes exactly its bytes and raises no
fault. The bytes are the payloads of spec/40_color_and_enable.md sections 2 and 3, spec/41_lines.md section 2,
spec/42_fill.md section 2, spec/43_patterns.md section 2 and spec/44_extended.md; that lines of 0xF4 and 0xFD are consumed
exactly rests on the layout of decision D11 (log entry 16, unsafe), and that lines of 0xFE 0x02..0x08 are, on the skip of
decision D14 (log entry 19, unsafe). The line stands before a command byte or the end of the stream; a command of fixed
format before a byte below 0xF0 is the matter of O22 to O26, O32 and O53. -/
def Obligations.AssembledLineIsOneCommand : Prop :=
  ∀ (s : State) (line : AsmLine) (bs : List Byte), assemble line = some bs → line.Runnable s.patternFlags →
    s.status = .running → s.pos ≠ 0 → s.visualEnabled = false → PayloadIs s bs →
    ∃ t, step s = .next t ∧ t.pos = s.pos + bs.length ∧ t.fault = s.fault ∧ t.fb = s.fb ∧
      (t.status = if line = .pictureEnd then Status.halted else Status.running)
end

