-- ==== Sys2Proof/Laws/Decode.lean ====
section
/-! SUPPORT. Every byte belongs to a row of the opcode table (R64). -/

namespace Sys2Proof

theorem oneByteRows_cover : ∀ b : Byte, (lookupRow oneByteRows b).isSome = true := by decide

theorem twoByteRows_cover : ∀ sub : Byte, (lookupRow twoByteRows (extendedOpcode ++ sub)).isSome = true := by decide

/-- Where there is a byte, there is an instruction. -/
theorem decode_ok_of_nonempty (b : Byte) (bs : List Byte) : ∃ i n, decode (b :: bs) = .ok (i, n) := by
  have one : ∃ i n, decodeOne b = .ok (i, n) := by
    obtain ⟨i, hi⟩ := Option.isSome_iff_exists.mp (oneByteRows_cover b)
    exact ⟨i, 1, by simp [decodeOne, hi]⟩
  cases bs with
  | nil => exact one
  | cons sub rest =>
    by_cases hb : b = extendedOpcode
    · obtain ⟨i, hi⟩ := Option.isSome_iff_exists.mp (twoByteRows_cover sub)
      exact ⟨i, 2, by simp [decode, hb, decodeTwo, hi]⟩
    · simpa [decode, hb] using one

end Sys2Proof
end

