-- ==== Sys2Proof/Laws/State.lean ====
section
/-! SUPPORT. The field updates: for each, what every field of the updated state reads, so that no later proof unfolds a
record update. -/

namespace Sys2Proof.Machine

variable (s : State)

@[simp] theorem State.config_setPos (v : Nat) : (s.setPos v).config = s.config := rfl
@[simp] theorem State.prog_setPos (v : Nat) : (s.setPos v).prog = s.prog := rfl
@[simp] theorem State.pos_setPos (v : Nat) : (s.setPos v).pos = v := rfl
@[simp] theorem State.pen_setPos (v : Nat) : (s.setPos v).pen = s.pen := rfl
@[simp] theorem State.visualEnabled_setPos (v : Nat) : (s.setPos v).visualEnabled = s.visualEnabled := rfl
@[simp] theorem State.patternFlags_setPos (v : Nat) : (s.setPos v).patternFlags = s.patternFlags := rfl
@[simp] theorem State.status_setPos (v : Nat) : (s.setPos v).status = s.status := rfl
@[simp] theorem State.fault_setPos (v : Nat) : (s.setPos v).fault = s.fault := rfl
@[simp] theorem State.pal_setPos (v : Nat) : (s.setPos v).pal = s.pal := rfl
@[simp] theorem State.locked_setPos (v : Nat) : (s.setPos v).locked = s.locked := rfl
@[simp] theorem State.fb_setPos (v : Nat) : (s.setPos v).fb = s.fb := rfl

@[simp] theorem State.config_setPen (v : Option Pen) : (s.setPen v).config = s.config := rfl
@[simp] theorem State.prog_setPen (v : Option Pen) : (s.setPen v).prog = s.prog := rfl
@[simp] theorem State.pos_setPen (v : Option Pen) : (s.setPen v).pos = s.pos := rfl
@[simp] theorem State.pen_setPen (v : Option Pen) : (s.setPen v).pen = v := rfl
@[simp] theorem State.visualEnabled_setPen (v : Option Pen) : (s.setPen v).visualEnabled = s.visualEnabled := rfl
@[simp] theorem State.patternFlags_setPen (v : Option Pen) : (s.setPen v).patternFlags = s.patternFlags := rfl
@[simp] theorem State.status_setPen (v : Option Pen) : (s.setPen v).status = s.status := rfl
@[simp] theorem State.fault_setPen (v : Option Pen) : (s.setPen v).fault = s.fault := rfl
@[simp] theorem State.pal_setPen (v : Option Pen) : (s.setPen v).pal = s.pal := rfl
@[simp] theorem State.locked_setPen (v : Option Pen) : (s.setPen v).locked = s.locked := rfl
@[simp] theorem State.fb_setPen (v : Option Pen) : (s.setPen v).fb = s.fb := rfl

@[simp] theorem State.config_setVisual (v : Bool) : (s.setVisual v).config = s.config := rfl
@[simp] theorem State.prog_setVisual (v : Bool) : (s.setVisual v).prog = s.prog := rfl
@[simp] theorem State.pos_setVisual (v : Bool) : (s.setVisual v).pos = s.pos := rfl
@[simp] theorem State.pen_setVisual (v : Bool) : (s.setVisual v).pen = s.pen := rfl
@[simp] theorem State.visualEnabled_setVisual (v : Bool) : (s.setVisual v).visualEnabled = v := rfl
@[simp] theorem State.patternFlags_setVisual (v : Bool) : (s.setVisual v).patternFlags = s.patternFlags := rfl
@[simp] theorem State.status_setVisual (v : Bool) : (s.setVisual v).status = s.status := rfl
@[simp] theorem State.fault_setVisual (v : Bool) : (s.setVisual v).fault = s.fault := rfl
@[simp] theorem State.pal_setVisual (v : Bool) : (s.setVisual v).pal = s.pal := rfl
@[simp] theorem State.locked_setVisual (v : Bool) : (s.setVisual v).locked = s.locked := rfl
@[simp] theorem State.fb_setVisual (v : Bool) : (s.setVisual v).fb = s.fb := rfl

@[simp] theorem State.config_setFlags (v : Byte) : (s.setFlags v).config = s.config := rfl
@[simp] theorem State.prog_setFlags (v : Byte) : (s.setFlags v).prog = s.prog := rfl
@[simp] theorem State.pos_setFlags (v : Byte) : (s.setFlags v).pos = s.pos := rfl
@[simp] theorem State.pen_setFlags (v : Byte) : (s.setFlags v).pen = s.pen := rfl
@[simp] theorem State.visualEnabled_setFlags (v : Byte) : (s.setFlags v).visualEnabled = s.visualEnabled := rfl
@[simp] theorem State.patternFlags_setFlags (v : Byte) : (s.setFlags v).patternFlags = v := rfl
@[simp] theorem State.status_setFlags (v : Byte) : (s.setFlags v).status = s.status := rfl
@[simp] theorem State.fault_setFlags (v : Byte) : (s.setFlags v).fault = s.fault := rfl
@[simp] theorem State.pal_setFlags (v : Byte) : (s.setFlags v).pal = s.pal := rfl
@[simp] theorem State.locked_setFlags (v : Byte) : (s.setFlags v).locked = s.locked := rfl
@[simp] theorem State.fb_setFlags (v : Byte) : (s.setFlags v).fb = s.fb := rfl

@[simp] theorem State.config_setStatus (v : Status) : (s.setStatus v).config = s.config := rfl
@[simp] theorem State.prog_setStatus (v : Status) : (s.setStatus v).prog = s.prog := rfl
@[simp] theorem State.pos_setStatus (v : Status) : (s.setStatus v).pos = s.pos := rfl
@[simp] theorem State.pen_setStatus (v : Status) : (s.setStatus v).pen = s.pen := rfl
@[simp] theorem State.visualEnabled_setStatus (v : Status) : (s.setStatus v).visualEnabled = s.visualEnabled := rfl
@[simp] theorem State.patternFlags_setStatus (v : Status) : (s.setStatus v).patternFlags = s.patternFlags := rfl
@[simp] theorem State.status_setStatus (v : Status) : (s.setStatus v).status = v := rfl
@[simp] theorem State.fault_setStatus (v : Status) : (s.setStatus v).fault = s.fault := rfl
@[simp] theorem State.pal_setStatus (v : Status) : (s.setStatus v).pal = s.pal := rfl
@[simp] theorem State.locked_setStatus (v : Status) : (s.setStatus v).locked = s.locked := rfl
@[simp] theorem State.fb_setStatus (v : Status) : (s.setStatus v).fb = s.fb := rfl

@[simp] theorem State.config_setFault (v : FaultCode) : (s.setFault v).config = s.config := rfl
@[simp] theorem State.prog_setFault (v : FaultCode) : (s.setFault v).prog = s.prog := rfl
@[simp] theorem State.pos_setFault (v : FaultCode) : (s.setFault v).pos = s.pos := rfl
@[simp] theorem State.pen_setFault (v : FaultCode) : (s.setFault v).pen = s.pen := rfl
@[simp] theorem State.visualEnabled_setFault (v : FaultCode) : (s.setFault v).visualEnabled = s.visualEnabled := rfl
@[simp] theorem State.patternFlags_setFault (v : FaultCode) : (s.setFault v).patternFlags = s.patternFlags := rfl
@[simp] theorem State.status_setFault (v : FaultCode) : (s.setFault v).status = s.status := rfl
@[simp] theorem State.fault_setFault (v : FaultCode) : (s.setFault v).fault = v := rfl
@[simp] theorem State.pal_setFault (v : FaultCode) : (s.setFault v).pal = s.pal := rfl
@[simp] theorem State.locked_setFault (v : FaultCode) : (s.setFault v).locked = s.locked := rfl
@[simp] theorem State.fb_setFault (v : FaultCode) : (s.setFault v).fb = s.fb := rfl

@[simp] theorem State.config_setPal (v : Vector Byte 160) : (s.setPal v).config = s.config := rfl
@[simp] theorem State.prog_setPal (v : Vector Byte 160) : (s.setPal v).prog = s.prog := rfl
@[simp] theorem State.pos_setPal (v : Vector Byte 160) : (s.setPal v).pos = s.pos := rfl
@[simp] theorem State.pen_setPal (v : Vector Byte 160) : (s.setPal v).pen = s.pen := rfl
@[simp] theorem State.visualEnabled_setPal (v : Vector Byte 160) : (s.setPal v).visualEnabled = s.visualEnabled := rfl
@[simp] theorem State.patternFlags_setPal (v : Vector Byte 160) : (s.setPal v).patternFlags = s.patternFlags := rfl
@[simp] theorem State.status_setPal (v : Vector Byte 160) : (s.setPal v).status = s.status := rfl
@[simp] theorem State.fault_setPal (v : Vector Byte 160) : (s.setPal v).fault = s.fault := rfl
@[simp] theorem State.pal_setPal (v : Vector Byte 160) : (s.setPal v).pal = v := rfl
@[simp] theorem State.locked_setPal (v : Vector Byte 160) : (s.setPal v).locked = s.locked := rfl
@[simp] theorem State.fb_setPal (v : Vector Byte 160) : (s.setPal v).fb = s.fb := rfl

@[simp] theorem State.config_setLocked (v : Vector Bool 40) : (s.setLocked v).config = s.config := rfl
@[simp] theorem State.prog_setLocked (v : Vector Bool 40) : (s.setLocked v).prog = s.prog := rfl
@[simp] theorem State.pos_setLocked (v : Vector Bool 40) : (s.setLocked v).pos = s.pos := rfl
@[simp] theorem State.pen_setLocked (v : Vector Bool 40) : (s.setLocked v).pen = s.pen := rfl
@[simp] theorem State.visualEnabled_setLocked (v : Vector Bool 40) : (s.setLocked v).visualEnabled = s.visualEnabled := rfl
@[simp] theorem State.patternFlags_setLocked (v : Vector Bool 40) : (s.setLocked v).patternFlags = s.patternFlags := rfl
@[simp] theorem State.status_setLocked (v : Vector Bool 40) : (s.setLocked v).status = s.status := rfl
@[simp] theorem State.fault_setLocked (v : Vector Bool 40) : (s.setLocked v).fault = s.fault := rfl
@[simp] theorem State.pal_setLocked (v : Vector Bool 40) : (s.setLocked v).pal = s.pal := rfl
@[simp] theorem State.locked_setLocked (v : Vector Bool 40) : (s.setLocked v).locked = v := rfl
@[simp] theorem State.fb_setLocked (v : Vector Bool 40) : (s.setLocked v).fb = s.fb := rfl

@[simp] theorem State.config_setFb (v : Framebuffer) : (s.setFb v).config = s.config := rfl
@[simp] theorem State.prog_setFb (v : Framebuffer) : (s.setFb v).prog = s.prog := rfl
@[simp] theorem State.pos_setFb (v : Framebuffer) : (s.setFb v).pos = s.pos := rfl
@[simp] theorem State.pen_setFb (v : Framebuffer) : (s.setFb v).pen = s.pen := rfl
@[simp] theorem State.visualEnabled_setFb (v : Framebuffer) : (s.setFb v).visualEnabled = s.visualEnabled := rfl
@[simp] theorem State.patternFlags_setFb (v : Framebuffer) : (s.setFb v).patternFlags = s.patternFlags := rfl
@[simp] theorem State.status_setFb (v : Framebuffer) : (s.setFb v).status = s.status := rfl
@[simp] theorem State.fault_setFb (v : Framebuffer) : (s.setFb v).fault = s.fault := rfl
@[simp] theorem State.pal_setFb (v : Framebuffer) : (s.setFb v).pal = s.pal := rfl
@[simp] theorem State.locked_setFb (v : Framebuffer) : (s.setFb v).locked = s.locked := rfl
@[simp] theorem State.fb_setFb (v : Framebuffer) : (s.setFb v).fb = v := rfl

/-! ### Fault entry -/

@[simp] theorem config_takeFault (f : FaultCode) : (takeFault f s).config = s.config := rfl
@[simp] theorem prog_takeFault (f : FaultCode) : (takeFault f s).prog = s.prog := rfl
@[simp] theorem pos_takeFault (f : FaultCode) : (takeFault f s).pos = s.pos := rfl
@[simp] theorem pen_takeFault (f : FaultCode) : (takeFault f s).pen = s.pen := rfl
@[simp] theorem visualEnabled_takeFault (f : FaultCode) : (takeFault f s).visualEnabled = s.visualEnabled := rfl
@[simp] theorem patternFlags_takeFault (f : FaultCode) : (takeFault f s).patternFlags = s.patternFlags := rfl
@[simp] theorem status_takeFault (f : FaultCode) : (takeFault f s).status = .faulted := rfl
@[simp] theorem fault_takeFault (f : FaultCode) : (takeFault f s).fault = f := rfl
@[simp] theorem pal_takeFault (f : FaultCode) : (takeFault f s).pal = s.pal := rfl
@[simp] theorem locked_takeFault (f : FaultCode) : (takeFault f s).locked = s.locked := rfl
@[simp] theorem fb_takeFault (f : FaultCode) : (takeFault f s).fb = s.fb := rfl

/-! ### Updates one after another -/

@[simp] theorem State.setPos_setPos (v w : Nat) : (s.setPos v).setPos w = s.setPos w := rfl
@[simp] theorem State.setFb_setFb (v w : Framebuffer) : (s.setFb v).setFb w = s.setFb w := rfl
@[simp] theorem State.setPos_self : s.setPos s.pos = s := rfl
@[simp] theorem State.setFb_self : s.setFb s.fb = s := rfl
theorem State.setFb_setPos (v : Framebuffer) (n : Nat) : (s.setFb v).setPos n = (s.setPos n).setFb v := rfl

end Sys2Proof.Machine
end

