-- ==== Sys2Proof/Laws/Ops.lean ====
section
/-! SUPPORT. What the named operations do: sequencing, fetching, the framebuffer. -/

namespace Sys2Proof.Machine

/-! ### Sequencing -/

section
variable {α β γ : Type}

@[simp] theorem Flow.bind_done (a : α) (s : State) (f : α → State → Flow β) : (Flow.done a s).bind f = f a s := rfl
@[simp] theorem Flow.bind_raised (s : State) (f : α → State → Flow β) : (Flow.raised s : Flow α).bind f = .raised s := rfl
@[simp] theorem Flow.bind_stuck (r : Fault) (f : α → State → Flow β) : (Flow.stuck r : Flow α).bind f = .stuck r := rfl
@[simp] theorem Flow.void_done (a : α) (s : State) : (Flow.done a s).void = .done () s := rfl
@[simp] theorem Flow.void_raised (s : State) : (Flow.raised s : Flow α).void = .raised s := rfl
@[simp] theorem Flow.void_stuck (r : Fault) : (Flow.stuck r : Flow α).void = .stuck r := rfl
@[simp] theorem Flow.outcome_done (a : α) (s : State) : (Flow.done a s).outcome = .next s := rfl
@[simp] theorem Flow.outcome_raised (s : State) : (Flow.raised s : Flow α).outcome = .next s := rfl
@[simp] theorem Flow.outcome_stuck (r : Fault) : (Flow.stuck r : Flow α).outcome = .fault r := rfl
@[simp] theorem raise_eq (f : FaultCode) (s : State) : (raise f s : Flow α) = .raised (takeFault f s) := rfl

theorem Flow.bind_assoc (x : Flow α) (f : α → State → Flow β) (g : β → State → Flow γ) :
    (x.bind f).bind g = x.bind fun a s => (f a s).bind g := by
  cases x <;> rfl

@[simp] theorem Flow.outcome_void (x : Flow α) : x.void.outcome = x.outcome := by
  cases x <;> rfl

end

/-- Every state that `x` can leave, after going on or after fault entry, is one that `Q` holds of. -/
def Flow.Leaves {α : Type} (x : Flow α) (Q : State → Prop) : Prop :=
  match x with
  | .done _ t => Q t
  | .raised t => Q t
  | .stuck _ => True

section
variable {α β : Type}

@[simp] theorem Flow.leaves_done (a : α) (t : State) (Q : State → Prop) : (Flow.done a t).Leaves Q ↔ Q t := Iff.rfl
@[simp] theorem Flow.leaves_raised (t : State) (Q : State → Prop) : (Flow.raised t : Flow α).Leaves Q ↔ Q t := Iff.rfl
@[simp] theorem Flow.leaves_stuck (r : Fault) (Q : State → Prop) : (Flow.stuck r : Flow α).Leaves Q ↔ True := Iff.rfl

theorem Flow.leaves_mono {x : Flow α} {Q Q' : State → Prop} (h : x.Leaves Q) (hq : ∀ t, Q t → Q' t) : x.Leaves Q' := by
  cases x with
  | done a t => exact hq t h
  | raised t => exact hq t h
  | stuck r => trivial

/-- One part of a command after another, for a relation between the state before and after that composes. -/
theorem Flow.leaves_bind {R : State → State → Prop} (trans : ∀ {a b c}, R a b → R b c → R a c) {s : State} {x : Flow α}
    {f : α → State → Flow β} (hx : x.Leaves (R s)) (hf : ∀ a t, x = .done a t → (f a t).Leaves (R t)) :
    (x.bind f).Leaves (R s) := by
  cases x with
  | done a t => exact Flow.leaves_mono (hf a t rfl) fun _ h => trans hx h
  | raised t => exact hx
  | stuck r => trivial

theorem Flow.leaves_void {x : Flow α} {Q : State → Prop} : x.void.Leaves Q ↔ x.Leaves Q := by
  cases x <;> rfl

/-- What holds of every state that `x` leaves holds of the next state that its outcome is. -/
theorem Flow.of_outcome_next {x : Flow α} {Q : State → Prop} {t : State} (h : x.Leaves Q) (ht : x.outcome = .next t) :
    Q t := by
  cases x with
  | done a u => cases ht; exact h
  | raised u => cases ht; exact h
  | stuck r => cases ht

end

/-! ### The stream -/

theorem fetch_of_some {s : State} {b : Byte} (h : s.prog[s.pos]? = some b) :
    fetch s = .done b (s.setPos (s.pos + 1)) := by
  simp [fetch, h]

theorem fetch_of_none {s : State} (h : s.prog[s.pos]? = none) :
    fetch s = .raised (takeFault .unexpectedEnd s) := by
  simp [fetch, h]

/-- Everything `fetch` can do: a byte of the stream, with `pos` one further, or UnexpectedEnd at the end. -/
theorem fetch_cases (s : State) :
    (∃ b, s.pos < s.prog.length ∧ s.prog[s.pos]? = some b ∧ fetch s = .done b (s.setPos (s.pos + 1))) ∨
    (s.prog.length ≤ s.pos ∧ fetch s = .raised (takeFault .unexpectedEnd s)) := by
  cases h : s.prog[s.pos]? with
  | none => exact .inr ⟨by simpa using h, fetch_of_none h⟩
  | some b =>
    obtain ⟨hlt, -⟩ := List.getElem?_eq_some_iff.mp h
    exact .inl ⟨b, hlt, rfl, fetch_of_some h⟩

/-- The unread stream begins with `b`: the byte at `pos`, and what is left after it. -/
theorem drop_cons {s : State} {b : Byte} {bs : List Byte} (h : s.prog.drop s.pos = b :: bs) :
    s.prog[s.pos]? = some b ∧ s.prog.drop (s.pos + 1) = bs := by
  constructor
  · have := congrArg (·[0]?) h
    simpa using this
  · have := congrArg (·.drop 1) h
    simpa [List.drop_drop] using this

theorem fetch_of_drop {s : State} {b : Byte} {bs : List Byte} (h : s.prog.drop s.pos = b :: bs) :
    fetch s = .done b (s.setPos (s.pos + 1)) :=
  fetch_of_some (drop_cons h).1

theorem nextIsCommand_of_lt {s : State} (h : nextIsCommand s = false) :
    ∃ b, s.prog[s.pos]? = some b ∧ b.toNat < cmdMin ∧ s.pos < s.prog.length := by
  unfold nextIsCommand at h
  split at h
  · next b hb =>
    obtain ⟨hlt, -⟩ := List.getElem?_eq_some_iff.mp hb
    exact ⟨b, hb, by simpa using h, hlt⟩
  · cases h

@[simp] theorem nextIsCommand_setFb (s : State) (m : Framebuffer) : nextIsCommand (s.setFb m) = nextIsCommand s := rfl

/-! ### The framebuffer -/

@[simp] theorem fbGet_nil (a : Nat) : fbGet a [] = background := rfl

theorem fbAbove_iff {a : Nat} {m : Framebuffer} : fbAbove a m = true ↔ ∀ c ∈ m, a < c.1 := by
  simp [fbAbove]

theorem fbAbove_trans {a b : Nat} {m : Framebuffer} (hab : a ≤ b) (h : fbAbove b m = true) : fbAbove a m = true := by
  rw [fbAbove_iff] at *
  intro c hc
  have := h c hc
  omega

/-- A cell below every listed address is at the clear colour. -/
theorem fbGet_of_above {a : Nat} {m : Framebuffer} (h : fbAbove a m = true) : fbGet a m = background := by
  induction m with
  | nil => rfl
  | cons c rest ih =>
    obtain ⟨k, v⟩ := c
    rw [fbAbove_iff] at h
    have hk : a < k := h (k, v) (by simp)
    have hr : fbAbove a rest = true := fbAbove_iff.mpr fun c hc => h c (by simp [hc])
    simp [fbGet, Nat.ne_of_lt hk, ih hr]

theorem fbGet_entry_append (a b : Nat) (v : Ega) (m : Framebuffer) (h : fbAbove b m = true) :
    fbGet a (fbEntry b v ++ m) = if a = b then v else fbGet a m := by
  unfold fbEntry
  by_cases hv : v = background
  · subst hv
    by_cases hab : a = b
    · subst hab; simp [fbGet_of_above h]
    · simp [hab]
  · simp [hv, fbGet]

theorem wf_cons {k : Nat} {v : Ega} {m : Framebuffer} :
    Memory.wf ((k, v) :: m) = true ↔ k < fbCells ∧ v ≠ background ∧ fbAbove k m = true ∧ Memory.wf m = true := by
  simp [Memory.wf, and_assoc]

/-- Reading a cell of a framebuffer in canonical form after a write. -/
theorem fbGet_fbPut {m : Framebuffer} (hm : Memory.wf m = true) (a b : Nat) (v : Ega) :
    fbGet a (fbPut b v m) = if a = b then v else fbGet a m := by
  induction m with
  | nil => simpa [fbPut] using fbGet_entry_append a b v [] rfl
  | cons c rest ih =>
    obtain ⟨k, w⟩ := c
    obtain ⟨-, -, habove, hrest⟩ := wf_cons.mp hm
    unfold fbPut
    split
    · next hlt =>
      refine fbGet_entry_append a b v _ (fbAbove_iff.mpr ?_)
      intro c hc
      rcases List.mem_cons.mp hc with rfl | hc
      · exact hlt
      · exact Nat.lt_trans hlt (fbAbove_iff.mp habove c hc)
    · split
      · next _ heq =>
        subst heq
        rw [fbGet_entry_append a b v rest habove]
        by_cases hab : a = b <;> simp [fbGet, hab]
      · next hlt hne =>
        by_cases hak : a = k
        · subst hak
          simp [fbGet, Ne.symm hne]
        · simp [fbGet, hak, ih hrest]

theorem fbGet_entry_append_ne {a b : Nat} (h : a ≠ b) (v : Ega) (m : Framebuffer) :
    fbGet a (fbEntry b v ++ m) = fbGet a m := by
  unfold fbEntry
  split
  · rfl
  · simp [fbGet, h]

/-- A write leaves every other cell alone, in any framebuffer. -/
theorem fbGet_fbPut_ne {a b : Nat} (h : a ≠ b) (v : Ega) (m : Framebuffer) : fbGet a (fbPut b v m) = fbGet a m := by
  induction m with
  | nil => simpa [fbPut] using fbGet_entry_append_ne h v []
  | cons c rest ih =>
    obtain ⟨k, w⟩ := c
    unfold fbPut
    split
    · exact fbGet_entry_append_ne h v _
    · split
      · next _ hbk => subst hbk; rw [fbGet_entry_append_ne h]; simp [fbGet, h]
      · simp [fbGet, ih]

theorem fbAbove_entry_append {a b : Nat} {v : Ega} {m : Framebuffer} (hb : a < b) (h : fbAbove a m = true) :
    fbAbove a (fbEntry b v ++ m) = true := by
  rw [fbAbove_iff] at *
  intro c hc
  rcases List.mem_append.mp hc with hc | hc
  · unfold fbEntry at hc
    split at hc
    · cases hc
    · rw [List.mem_singleton] at hc; subst hc; exact hb
  · exact h c hc

theorem fbAbove_fbPut {a b : Nat} {v : Ega} {m : Framebuffer} (hb : a < b) (h : fbAbove a m = true) :
    fbAbove a (fbPut b v m) = true := by
  induction m with
  | nil => simpa [fbPut] using fbAbove_entry_append (v := v) hb h
  | cons c rest ih =>
    obtain ⟨k, w⟩ := c
    have hk : a < k := fbAbove_iff.mp h (k, w) (by simp)
    have hr : fbAbove a rest = true := fbAbove_iff.mpr fun c hc => fbAbove_iff.mp h c (by simp [hc])
    unfold fbPut
    split
    · exact fbAbove_entry_append hb h
    · split
      · exact fbAbove_entry_append hb hr
      · refine fbAbove_iff.mpr fun c hc => ?_
        rcases List.mem_cons.mp hc with rfl | hc
        · exact hk
        · exact fbAbove_iff.mp (ih hr) c hc

theorem wf_entry_append {b : Nat} {v : Ega} {m : Framebuffer} (hb : b < fbCells) (h : fbAbove b m = true)
    (hm : Memory.wf m = true) : Memory.wf (fbEntry b v ++ m) = true := by
  unfold fbEntry
  split
  · simpa using hm
  · next hv => exact wf_cons.mpr ⟨hb, hv, h, hm⟩

/-- A write to a cell of the canvas keeps the canonical form. -/
theorem wf_fbPut {b : Nat} (v : Ega) {m : Framebuffer} (hb : b < fbCells) (hm : Memory.wf m = true) :
    Memory.wf (fbPut b v m) = true := by
  induction m with
  | nil => simpa [fbPut] using wf_entry_append (v := v) hb rfl hm
  | cons c rest ih =>
    obtain ⟨k, w⟩ := c
    obtain ⟨hk, hw, habove, hrest⟩ := wf_cons.mp hm
    unfold fbPut
    split
    · next hlt =>
      refine wf_entry_append hb (fbAbove_iff.mpr fun c hc => ?_) hm
      rcases List.mem_cons.mp hc with rfl | hc
      · exact hlt
      · exact Nat.lt_trans hlt (fbAbove_iff.mp habove c hc)
    · split
      · next _ heq => subst heq; exact wf_entry_append hb habove hrest
      · next hlt hne => exact wf_cons.mpr ⟨hk, hw, fbAbove_fbPut (by omega) habove, ih hrest⟩

theorem wf_reset : Memory.wf State.reset.fb = true := rfl

/-! ### The canvas -/

theorem onCanvas_iff {p : Point} : onCanvas p = true ↔ 0 ≤ p.x ∧ p.x < 320 ∧ 0 ≤ p.y ∧ p.y < 190 := by
  simp only [onCanvas, Bool.and_eq_true, decide_eq_true_eq]
  simp only [fbW, fbH]
  omega

theorem address_lt {p : Point} (h : onCanvas p = true) : address p < fbCells := by
  rw [onCanvas_iff] at h
  simp only [address, fbCells, fbW, fbH]
  omega

/-- Different pixels of the canvas have different addresses (R22). -/
theorem address_injective {p q : Point} (hp : onCanvas p = true) (hq : onCanvas q = true)
    (h : address p = address q) : p = q := by
  rw [onCanvas_iff] at hp hq
  obtain ⟨px, py⟩ := p
  obtain ⟨qx, qy⟩ := q
  simp only [address, fbW] at h hp hq
  have : px = qx ∧ py = qy := by omega
  rw [this.1, this.2]

theorem fbRead_of_onCanvas {p : Point} (h : onCanvas p = true) (s : State) :
    fbRead p s = .done (fbGet (address p) s.fb) s := by
  simp [fbRead, h]

theorem fbWrite_of_onCanvas {p : Point} (h : onCanvas p = true) (v : Ega) (s : State) :
    fbWrite p v s = .done () (s.setFb (fbPut (address p) v s.fb)) := by
  simp [fbWrite, h]

theorem fbWrite_of_outside {p : Point} (h : onCanvas p = false) (v : Ega) (s : State) :
    fbWrite p v s = .raised (takeFault .outOfBounds s) := by
  simp [fbWrite, h]

end Sys2Proof.Machine
end

