-- ==== Sys2Proof/Laws/Operands.lean ====
section
/-! SUPPORT. What fetching an operand and repeating an element do. -/

namespace Sys2Proof.Machine

/-! ### Operands -/

theorem fetchAbs_of_drop {s : State} {u lx ly : Byte} {rest : List Byte}
    (h : s.prog.drop s.pos = u :: lx :: ly :: rest) :
    fetchAbs s = .done (absPoint u lx ly) (s.setPos (s.pos + 3)) := by
  obtain ⟨-, h1⟩ := drop_cons h
  obtain ⟨-, h2⟩ := drop_cons (s := s.setPos (s.pos + 1)) h1
  simp only [fetchAbs, fetch_of_drop h, Flow.bind_done, fetch_of_drop (s := s.setPos (s.pos + 1)) h1,
    fetch_of_drop (s := (s.setPos (s.pos + 1)).setPos ((s.setPos (s.pos + 1)).pos + 1)) h2]
  rfl

/-- The relation of fetching: only `pos` moves, forward and within the stream, and a fault changes `status` and `fault`. -/
def Fetched (s t : State) : Prop :=
  (t = s.setPos t.pos ∨ ∃ f, t = takeFault f (s.setPos t.pos)) ∧ s.pos ≤ t.pos ∧
    (s.pos ≤ s.prog.length → t.pos ≤ s.prog.length)

theorem fetch_leaves (s : State) : (fetch s).Leaves (Fetched s) := by
  rcases fetch_cases s with ⟨b, hlt, -, h⟩ | ⟨-, h⟩
  · rw [h]
    exact ⟨.inl rfl, Nat.le_succ _, fun _ => hlt⟩
  · rw [h]
    exact ⟨.inr ⟨_, rfl⟩, Nat.le_refl _, id⟩

/-- An absolute coordinate is three bytes further on. -/
theorem fetchAbs_done {s t : State} {p : Point} (h : fetchAbs s = .done p t) :
    t = s.setPos (s.pos + 3) ∧ s.pos + 3 ≤ s.prog.length := by
  unfold fetchAbs at h
  rcases fetch_cases s with ⟨b, hlt, -, hb⟩ | ⟨-, hb⟩
  · rw [hb, Flow.bind_done] at h
    rcases fetch_cases (s.setPos (s.pos + 1)) with ⟨c, hlt2, -, hc⟩ | ⟨-, hc⟩
    · rw [hc, Flow.bind_done] at h
      rcases fetch_cases ((s.setPos (s.pos + 1)).setPos ((s.setPos (s.pos + 1)).pos + 1)) with ⟨d, hlt3, -, hd⟩ | ⟨-, hd⟩
      · rw [hd, Flow.bind_done] at h
        cases h
        exact ⟨rfl, Nat.succ_le_of_lt hlt3⟩
      · rw [hd] at h; cases h
    · rw [hc] at h; cases h
  · rw [hb] at h; cases h

/-! ### Repetition -/

section
variable {α : Type} {element : α → State → Flow α}

/-- An element that goes on has moved `pos` forward over the same stream. -/
def Advances (element : α → State → Flow α) : Prop :=
  ∀ a s b t, element a s = .done b t → s.pos < t.pos ∧ t.prog = s.prog

theorem nextIsCommand_of_bytesLeft {s : State} (h : bytesLeft s = 0) : nextIsCommand s = true := by
  have : s.prog[s.pos]? = none := by
    simp only [bytesLeft] at h
    exact List.getElem?_eq_none (by omega)
  simp [nextIsCommand, this]

/-- More than the bytes left is as good as the bytes left: the bound of `whileElements` cuts nothing off. -/
theorem repeatElements_enough (h : Advances element) (n m : Nat) (a : α) (s : State) (hn : bytesLeft s ≤ n)
    (hm : bytesLeft s ≤ m) : repeatElements element n a s = repeatElements element m a s := by
  induction n generalizing m a s with
  | zero =>
    have := nextIsCommand_of_bytesLeft (Nat.le_zero.mp hn)
    cases m <;> simp [repeatElements, this]
  | succ n ih =>
    cases m with
    | zero =>
      have := nextIsCommand_of_bytesLeft (Nat.le_zero.mp hm)
      simp [repeatElements, this]
    | succ m =>
      unfold repeatElements
      split
      · rfl
      · next hc =>
        have hlt : s.pos < s.prog.length := by
          obtain ⟨_, _, _, hlt⟩ := nextIsCommand_of_lt (by simpa using hc)
          exact hlt
        cases he : element a s with
        | done b t =>
          obtain ⟨hpos, hprog⟩ := h a s b t he
          simp only [Flow.bind_done]
          apply ih <;> · simp only [bytesLeft, hprog] at *; omega
        | raised t => rfl
        | stuck r => rfl

theorem repeatElements_succ (n : Nat) (a : α) (s : State) :
    repeatElements element (n + 1) a s =
      if nextIsCommand s then .done a s else (element a s).bind fun b t => repeatElements element n b t := rfl

/-- `while not NextIsCommand(): <element>` is what its words say (R54). -/
theorem whileElements_unfold (h : Advances element) (a : α) (s : State) :
    whileElements element a s =
      if nextIsCommand s then .done a s else (element a s).bind fun b t => whileElements element b t := by
  cases hb : bytesLeft s with
  | zero => simp [whileElements, hb, repeatElements, nextIsCommand_of_bytesLeft hb]
  | succ n =>
    rw [whileElements, hb, repeatElements_succ]
    split
    · rfl
    · cases he : element a s with
      | done b t =>
        obtain ⟨hpos, hprog⟩ := h a s b t he
        refine repeatElements_enough h n (bytesLeft t) b t ?_ (Nat.le_refl _)
        simp only [bytesLeft, hprog] at *
        omega
      | raised t => rfl
      | stuck r => rfl

/-- What holds of one element, for a relation that composes, holds of all of them. -/
theorem repeatElements_leaves {R : State → State → Prop} (refl : ∀ s, R s s) (trans : ∀ {a b c}, R a b → R b c → R a c)
    (h : ∀ a s, (element a s).Leaves (R s)) (n : Nat) (a : α) (s : State) :
    (repeatElements element n a s).Leaves (R s) := by
  induction n generalizing a s with
  | zero => exact refl s
  | succ n ih =>
    unfold repeatElements
    split
    · exact refl s
    · exact Flow.leaves_bind (R := R) trans (h a s) fun b t _ => ih b t

theorem whileElements_leaves {R : State → State → Prop} (refl : ∀ s, R s s) (trans : ∀ {a b c}, R a b → R b c → R a c)
    (h : ∀ a s, (element a s).Leaves (R s)) (a : α) (s : State) : (whileElements element a s).Leaves (R s) :=
  repeatElements_leaves refl trans h _ a s

end

end Sys2Proof.Machine
end

