-- ==== Sys2Proof/Laws/Raster.lean ====
section
/-! SUPPORT. What plotting, drawing a line and stamping do. -/

namespace Sys2Proof.Machine

theorem plot_disabled {s : State} (h : s.visualEnabled = false) (p : Point) : plot p s = .done () s := by
  simp [plot, h]

theorem plot_penUnset {s : State} (h : s.visualEnabled = true) (hp : s.pen = none) (p : Point) :
    plot p s = .raised (takeFault .penUnset s) := by
  simp [plot, h, hp]

theorem plot_enabled {s : State} {pen : Pen} (h : s.visualEnabled = true) (hp : s.pen = some pen) (p : Point) :
    plot p s = fbWrite p (eff pen p) s := by
  simp [plot, h, hp]

theorem plotAll_disabled {s : State} (h : s.visualEnabled = false) (ps : List Point) : plotAll ps s = .done () s := by
  induction ps with
  | nil => rfl
  | cons p ps ih => simp [plotAll, plot_disabled h, ih]

/-- Plotting pixels of the canvas with a pen paints them. -/
theorem plotAll_enabled {s : State} {pen : Pen} (h : s.visualEnabled = true) (hp : s.pen = some pen) {ps : List Point}
    (hps : ∀ p ∈ ps, onCanvas p = true) : plotAll ps s = .done () (s.setFb (paint pen ps s.fb)) := by
  induction ps generalizing s with
  | nil => rfl
  | cons p ps ih =>
    have hpc := hps p (by simp)
    rw [plotAll, plot_enabled h hp, fbWrite_of_onCanvas hpc, Flow.bind_done,
      ih (s := s.setFb (fbPut (address p) (eff pen p) s.fb)) h hp fun q hq => hps q (by simp [hq])]
    rfl

theorem paint_append (pen : Pen) (ps qs : List Point) (m : Framebuffer) :
    paint pen (ps ++ qs) m = paint pen qs (paint pen ps m) := by
  induction ps generalizing m with
  | nil => rfl
  | cons p ps ih => exact ih _

theorem wf_paint {pen : Pen} {ps : List Point} (hps : ∀ p ∈ ps, onCanvas p = true) {m : Framebuffer}
    (hm : Memory.wf m = true) : Memory.wf (paint pen ps m) = true := by
  induction ps generalizing m with
  | nil => exact hm
  | cons p ps ih =>
    exact ih (fun q hq => hps q (by simp [hq])) (wf_fbPut _ (address_lt (hps p (by simp))) hm)

theorem fbGet_paint_ne {pen : Pen} {ps : List Point} {a : Nat} (h : ∀ p ∈ ps, address p ≠ a) (m : Framebuffer) :
    fbGet a (paint pen ps m) = fbGet a m := by
  induction ps generalizing m with
  | nil => rfl
  | cons p ps ih =>
    rw [paint, ih fun q hq => h q (by simp [hq])]
    exact fbGet_fbPut_ne (Ne.symm (h p (by simp))) _ _

/-- What drawing `ps` can leave: the framebuffer is written, at cells of `ps` only and in canonical form, and a fault
changes `status` and `fault`. -/
def Drew (ps : List Point) (s t : State) : Prop :=
  (t = s.setFb t.fb ∨ ∃ f, (f = .penUnset ∨ f = .outOfBounds) ∧ t = takeFault f (s.setFb t.fb)) ∧
    (Memory.wf s.fb = true → Memory.wf t.fb = true) ∧ SameCellsOutside ps s t ∧
    (s.visualEnabled = false → t = s)

theorem Drew.refl (ps : List Point) (s : State) : Drew ps s s :=
  ⟨.inl rfl, id, fun _ _ => rfl, fun _ => rfl⟩

/-- Everything `plotAll` can do. -/
theorem plotAll_leaves (ps : List Point) (s : State) : (plotAll ps s).Leaves (Drew ps s) := by
  induction ps generalizing s with
  | nil => exact Drew.refl _ s
  | cons p ps ih =>
    rw [plotAll]
    cases hv : s.visualEnabled with
    | false =>
      rw [plot_disabled hv, Flow.bind_done, plotAll_disabled hv]
      exact Drew.refl _ s
    | true =>
      cases hp : s.pen with
      | none =>
        rw [plot_penUnset hv hp]
        exact ⟨.inr ⟨_, .inl rfl, rfl⟩, id, fun _ _ => rfl, fun h => absurd (hv ▸ h) (by decide)⟩
      | some pen =>
        rw [plot_enabled hv hp]
        cases hc : onCanvas p with
        | false =>
          rw [fbWrite_of_outside hc]
          exact ⟨.inr ⟨_, .inr rfl, rfl⟩, id, fun _ _ => rfl, fun h => absurd (hv ▸ h) (by decide)⟩
        | true =>
          rw [fbWrite_of_onCanvas hc, Flow.bind_done]
          refine Flow.leaves_mono (ih _) ?_
          rintro t ⟨hform, hwf, hsame, -⟩
          refine ⟨hform, fun h => hwf (wf_fbPut _ (address_lt hc) h), fun a ha => ?_, fun h => absurd (hv ▸ h) (by decide)⟩
          rw [hsame a fun q hq => ha q (by simp [hq])]
          exact fbGet_fbPut_ne (Ne.symm (ha p (by simp) hc)) _ _

/-- Where plotting goes on, it has written the framebuffer and nothing else. -/
theorem plotAll_done {ps : List Point} {s t : State} (h : plotAll ps s = .done () t) : t = s.setFb t.fb := by
  induction ps generalizing s with
  | nil => cases h; rfl
  | cons p ps ih =>
    rw [plotAll] at h
    have hp : ∀ u, plot p s = .done () u → u = s.setFb u.fb := by
      intro u hu
      unfold plot at hu
      split at hu
      · split at hu
        · cases hu
        · unfold fbWrite at hu
          split at hu <;> cases hu
          rfl
      · cases hu; rfl
    cases hx : plot p s with
    | done a u => rw [hx, Flow.bind_done] at h; rw [ih h, hp u hx]; rfl
    | raised u => rw [hx] at h; cases h
    | stuck r => rw [hx] at h; cases h

theorem drawLine_done {p q : Point} {s t : State} (h : drawLine p q s = .done () t) : t = s.setFb t.fb := by
  unfold drawLine at h
  split at h
  · exact plotAll_done h
  · cases h; rfl

theorem stamp_done {sel : Option Byte} {p : Point} {s t : State} (h : stamp sel p s = .done () t) :
    t = s.setFb t.fb := by
  unfold stamp at h
  split at h
  · exact plotAll_done h
  · cases h; rfl

/-- Everything `drawLine` can do. -/
theorem drawLine_leaves (p q : Point) (s : State) : (drawLine p q s).Leaves (Drew (linePixels p q) s) := by
  unfold drawLine
  split
  · exact plotAll_leaves _ s
  · exact Drew.refl _ s

/-- Everything `stamp` can do. -/
theorem stamp_leaves (sel : Option Byte) (p : Point) (s : State) :
    (stamp sel p s).Leaves (Drew (stampPixels s.config.pattern sel s.patternFlags p) s) := by
  unfold stamp
  split
  · exact plotAll_leaves _ s
  · exact Drew.refl _ s

theorem drawLine_enabled {s : State} {pen : Pen} (h : s.visualEnabled = true) (hp : s.pen = some pen) {p q : Point}
    (hpq : ∀ r ∈ linePixels p q, onCanvas r = true) :
    drawLine p q s = .done () (s.setFb (paint pen (linePixels p q) s.fb)) := by
  simp only [drawLine, h, if_true]
  exact plotAll_enabled h hp hpq

/-! ### Stamps -/

theorem homePosition_fits (c : PatternConfig) (size : Fin 8) (rect : Bool) :
    fitsAt c size rect (homePosition c size rect) = true := by
  unfold fitsAt footprint homePosition
  simp only [List.all_map, List.all_eq_true, Function.comp, onCanvas_iff, Point.plus]
  intro e _
  have := e.1.isLt
  have := e.2.isLt
  omega

theorem footprint_dot (c : PatternConfig) : footprint c 0 false = [⟨0, 0⟩] := rfl

/-- A placed footprint is on the canvas (R130). -/
theorem clampStamp_fits (c : PatternConfig) (size : Fin 8) (rect : Bool) (p : Point) :
    fitsAt c size rect (clampStamp c size rect p) = true := by
  unfold clampStamp
  split
  · next h =>
    rw [Bool.and_eq_true] at h
    have hd : size = 0 ∧ rect = false := by simpa [isDot] using h.1
    rw [hd.1, hd.2]
    simpa [fitsAt, footprint_dot, Point.plus] using h.2
  · split
    · assumption
    · exact homePosition_fits c size rect

theorem mem_rectangleRows {r : Rectangle} {e : Fin 320 × Fin 190} : e ∈ rectangleRows r ↔ inRectangle r e = true := by
  obtain ⟨column, row⟩ := e
  simp [rectangleRows, inRectangle, and_comm]

theorem nodup_rectangleRows (r : Rectangle) : (rectangleRows r).Nodup := by
  refine List.nodup_flatMap.mpr ⟨fun row _ => ((List.nodup_finRange 320).filter _).map fun a b h => congrArg Prod.fst h, ?_⟩
  refine ((List.nodup_finRange 190).filter _).imp fun {a b} hab e ha hb => hab ?_
  obtain ⟨_, _, rfl⟩ := List.mem_map.mp ha
  obtain ⟨_, _, h⟩ := List.mem_map.mp hb
  exact (congrArg Prod.snd h).symm

/-- The pixels of a rectangle: all between the corners, and no other (R129). -/
theorem mem_rectangleCells {r : Rectangle} {e : Fin 320 × Fin 190} : e ∈ rectangleCells r ↔ inRectangle r e = true := by
  simp only [rectangleCells, List.mem_append, List.mem_dedup, List.mem_filter, mem_rectangleRows, Bool.not_eq_true',
    List.contains_eq_mem, decide_eq_false_iff_not]
  tauto

/-- Each once. -/
theorem nodup_rectangleCells (r : Rectangle) : (rectangleCells r).Nodup := by
  refine List.nodup_append.mpr ⟨List.nodup_dedup _, (nodup_rectangleRows r).filter _, ?_⟩
  rintro a ha b hb rfl
  simp only [List.mem_dedup, List.mem_filter, Bool.not_eq_true', List.contains_eq_mem, decide_eq_false_iff_not] at ha hb
  exact hb.2 ha.1

/-- On finitely many positions, every function of the position is some formula's. -/
theorem exists_clampTerm (f : Point → Int) (ps : List Point) : ∃ t, ∀ p ∈ ps, clampValue p t = f p := by
  induction ps with
  | nil => exact ⟨.x, fun _ h => nomatch h⟩
  | cons q qs ih =>
    obtain ⟨t, ht⟩ := ih
    refine ⟨.ifLess .x (.const q.x) t (.ifLess (.const q.x) .x t (.ifLess .y (.const q.y) t
      (.ifLess (.const q.y) .y t (.const (f q))))), fun p hp => ?_⟩
    simp only [clampValue]
    by_cases hpq : p = q
    · subst hpq; simp
    · have ht := ht p ((List.mem_cons.mp hp).resolve_left hpq)
      have hne : p.x < q.x ∨ q.x < p.x ∨ p.y < q.y ∨ q.y < p.y := by
        by_contra hn
        refine hpq ?_
        cases p; cases q
        simp only [Point.mk.injEq] at *
        omega
      simp only [ht]
      split_ifs <;> first | rfl | omega

theorem texturedPixels_subset (c : PatternConfig) (os : List Point) (k : Fin 254) : ∀ o ∈ texturedPixels c os k, o ∈ os := by
  induction os generalizing k with
  | nil => simp [texturedPixels]
  | cons o os ih =>
    intro q hq
    unfold texturedPixels at hq
    split at hq
    · rcases List.mem_cons.mp hq with rfl | hq
      · simp
      · exact List.mem_cons_of_mem _ (ih _ _ hq)
    · exact List.mem_cons_of_mem _ (ih _ _ hq)

theorem stampOffsets_subset (c : PatternConfig) (sel : Option Byte) (size : Fin 8) (rect : Bool) :
    ∀ o ∈ stampOffsets c sel size rect, o ∈ footprint c size rect := by
  cases sel with
  | none => exact fun _ h => h
  | some b => exact texturedPixels_subset _ _ _

end Sys2Proof.Machine
end

