-- ==== Sys2Proof/Laws/Fill.lean ====
section
/-! SUPPORT. What the flood fill's procedure does (R111, R114). -/

namespace Sys2Proof.Machine

/-- Everything `pushSites` can do where it does not overflow: it marks and pushes the same new sites, each wanted and once,
and leaves no wanted site of its list unvisited. -/
theorem pushSites_some {fb : Framebuffer} {ps visited stack v st : List Point}
    (h : pushSites fb ps visited stack = some (v, st)) :
    ∃ new, v = new ++ visited ∧ st = new ++ stack ∧ new.Nodup ∧
      (∀ p ∈ new, p ∈ ps ∧ p ∉ visited ∧ onCanvas p = true ∧ fbGet (address p) fb = background) ∧
      (∀ p ∈ ps, onCanvas p = true → fbGet (address p) fb = background → p ∈ v) := by
  induction ps generalizing visited stack with
  | nil =>
    simp only [pushSites, Option.some.injEq, Prod.mk.injEq] at h
    exact ⟨[], by simp [h.1], by simp [h.2], by simp, by simp, by simp⟩
  | cons p ps ih =>
    unfold pushSites at h
    split at h
    · next hw =>
      simp only [wanted, Bool.and_eq_true, Bool.not_eq_true', beq_iff_eq] at hw
      obtain ⟨⟨hc, hnv⟩, hb⟩ := hw
      split at h
      · cases h
      · obtain ⟨new, hv, hst, hnd, hnew, hall⟩ := ih h
        refine ⟨new ++ [p], by simp [hv], by simp [hst], ?_, ?_, ?_⟩
        · rw [List.nodup_append]
          refine ⟨hnd, by simp, ?_⟩
          intro a ha b hb' hab
          rw [List.mem_singleton] at hb'
          subst hb' hab
          exact (hnew a ha).2.1 (by simp)
        · intro q hq
          rcases List.mem_append.mp hq with hq | hq
          · obtain ⟨h1, h2, h3, h4⟩ := hnew q hq
            exact ⟨by simp [h1], fun hm => h2 (by simp [hm]), h3, h4⟩
          · rw [List.mem_singleton] at hq
            subst hq
            exact ⟨by simp, by simpa using hnv, hc, hb⟩
        · intro q hq hqc hqb
          rcases List.mem_cons.mp hq with rfl | hq
          · rw [hv]; simp
          · exact hall q hq hqc hqb
    · next hw =>
      obtain ⟨new, hv, hst, hnd, hnew, hall⟩ := ih h
      refine ⟨new, hv, hst, hnd, fun q hq => ?_, fun q hq hqc hqb => ?_⟩
      · obtain ⟨h1, h2⟩ := hnew q hq
        exact ⟨by simp [h1], h2⟩
      · rcases List.mem_cons.mp hq with rfl | hq
        · have : q ∈ visited := by
            by_contra hnv
            exact hw (by simp [wanted, hqc, hqb, hnv])
          rw [hv]; simp [this]
        · exact hall q hq hqc hqb

/-- A list of different sites of the canvas is no longer than the canvas. -/
theorem length_le_fbCells {l : List Point} (hnd : l.Nodup) (hc : ∀ p ∈ l, onCanvas p = true) : l.length ≤ fbCells := by
  have hnd' : (l.map address).Nodup :=
    List.Nodup.map_on (fun p hp q hq h => address_injective (hc p hp) (hc q hq) h) hnd
  have hsub : (l.map address).toFinset ⊆ Finset.range fbCells := by
    intro a ha
    obtain ⟨p, hp, rfl⟩ := List.mem_map.mp (List.mem_toFinset.mp ha)
    exact Finset.mem_range.mpr (address_lt (hc p hp))
  have := Finset.card_le_card hsub
  rwa [List.toFinset_card_of_nodup hnd', List.length_map, Finset.card_range] at this

/-- A fill never uses up its pops with sites pending (R114). -/
theorem fillLoop_not_stuck (pen : Pen) (n : Nat) (visited stack : List Point) (s : State) (r : Fault)
    (hnd : visited.Nodup) (hc : ∀ p ∈ visited, onCanvas p = true)
    (hn : fbCells + stack.length ≤ n + visited.length) : fillLoop pen n visited stack s ≠ .stuck r := by
  induction n generalizing visited stack s with
  | zero =>
    cases stack with
    | nil => simp [fillLoop]
    | cons c rest =>
      have := length_le_fbCells hnd hc
      simp only [List.length_cons] at hn
      omega
  | succ n ih =>
    cases stack with
    | nil => simp [fillLoop]
    | cons c rest =>
      unfold fillLoop
      cases hw : fbWrite c (eff pen c) s with
      | raised t => simp
      | stuck r' =>
        unfold fbWrite at hw
        split at hw <;> cases hw
      | done a t =>
        simp only [Flow.bind_done]
        cases hp : pushSites t.fb (neighbours c) visited rest with
        | none => simp
        | some vs =>
          obtain ⟨v, st⟩ := vs
          obtain ⟨new, hv, hst, hnew, hprops, -⟩ := pushSites_some hp
          refine ih v st t ?_ ?_ ?_
          · rw [hv, List.nodup_append]
            exact ⟨hnew, hnd, fun a ha b hb hab => (hprops a ha).2.1 (hab ▸ hb)⟩
          · intro p hp'
            rw [hv] at hp'
            rcases List.mem_append.mp hp' with h | h
            · exact (hprops p h).2.2.1
            · exact hc p h
          · rw [hv, hst]
            simp only [List.length_append, List.length_cons] at *
            omega

/-- The sites the fill examines are the unit steps of `Region`. -/
theorem mem_neighbours_iff (p q : Point) : q ∈ neighbours p ↔ UnitStep p q := by
  obtain ⟨px, py⟩ := p
  obtain ⟨qx, qy⟩ := q
  simp [neighbours, UnitStep]

/-- A flood fill never makes the model stop (R114). -/
theorem floodFill_not_stuck (p : Point) (s : State) (r : Fault) : floodFill p s ≠ .stuck r := by
  unfold floodFill
  split
  · split
    · simp
    · next pen _ =>
      unfold fbRead
      split
      · next hc =>
        rw [Flow.bind_done]
        split
        · exact fillLoop_not_stuck _ _ _ _ _ _ (by simp) (by simpa using hc) (by simp)
        · simp
      · simp
  · simp

end Sys2Proof.Machine
end

