-- ==== Sys2Proof/Laws/Elements.lean ====
section
/-! SUPPORT. What an element of each repeated payload does: how far it moves, and what it can leave. -/

namespace Sys2Proof.Machine

theorem nextIsCommand_of_some {s : State} {b : Byte} (h : s.prog[s.pos]? = some b) :
    nextIsCommand s = decide (cmdMin ≤ b.toNat) := by
  simp [nextIsCommand, h]

theorem whileElements_end {α : Type} {element : α → State → Flow α} {s : State} (h : nextIsCommand s = true) (a : α) :
    whileElements element a s = .done a s := by
  unfold whileElements
  cases bytesLeft s <;> simp [repeatElements, h]

/-! ### How far a part of a command moves -/

/-- A part of a command that goes on has moved `pos` forward by at least `n` and changed neither the stream nor the pattern
flags nor the configuration. -/
def Moves {α : Type} (n : Nat) (s : State) (x : Flow α) : Prop :=
  ∀ a t, x = .done a t → s.pos + n ≤ t.pos ∧ t.prog = s.prog ∧ t.patternFlags = s.patternFlags ∧ t.config = s.config

section
variable {α β : Type}

theorem Moves.bind {n m : Nat} {s : State} {x : Flow α} {f : α → State → Flow β} (hx : Moves n s x)
    (hf : ∀ a t, Moves m t (f a t)) : Moves (n + m) s (x.bind f) := by
  intro b u h
  cases x with
  | done a t =>
    obtain ⟨h1, h2, h3, h4⟩ := hx a t rfl
    obtain ⟨k1, k2, k3, k4⟩ := hf a t b u h
    exact ⟨by omega, k2.trans h2, k3.trans h3, k4.trans h4⟩
  | raised t => cases h
  | stuck r => cases h

theorem Moves.done (a : α) (s : State) : Moves 0 s (.done a s) := by
  intro b t h; cases h; exact ⟨Nat.le_refl _, rfl, rfl, rfl⟩

theorem Moves.raise (f : FaultCode) (n : Nat) (s : State) : Moves n s (raise f s : Flow α) := by
  intro b t h; cases h

theorem Moves.le {n m : Nat} {s : State} {x : Flow α} (h : Moves n s x) (hm : m ≤ n) : Moves m s x := by
  intro a t ht
  obtain ⟨h1, h2⟩ := h a t ht
  exact ⟨by omega, h2⟩

end

theorem Moves.fetch (s : State) : Moves 1 s (fetch s) := by
  intro b t h
  rcases fetch_cases s with ⟨c, -, -, hc⟩ | ⟨-, hc⟩
  · rw [hc] at h; cases h; exact ⟨Nat.le_refl _, rfl, rfl, rfl⟩
  · rw [hc] at h; cases h

theorem Moves.fetchAbs (s : State) : Moves 3 s (fetchAbs s) :=
  (Moves.fetch s).bind fun _ t => (Moves.fetch t).bind fun _ t => (Moves.fetch t).bind fun _ t => Moves.done _ t

theorem Moves.fetchSelector (s : State) : Moves 0 s (fetchSelector s) := by
  unfold Machine.fetchSelector
  split
  · exact ((Moves.fetch s).bind fun _ t => Moves.done _ t).le (by omega)
  · exact Moves.done _ s

theorem Moves.nextAbs (p : Point) (s : State) : Moves 1 s (nextAbs p s) := (Moves.fetchAbs s).le (by omega)

theorem Moves.nextShort (p : Point) (s : State) : Moves 1 s (nextShort p s) :=
  (Moves.fetch s).bind fun _ t => Moves.done _ t

theorem Moves.nextMedium (p : Point) (s : State) : Moves 1 s (nextMedium p s) :=
  ((Moves.fetch s).bind fun _ t => (Moves.fetch t).bind fun _ t => Moves.done _ t).le (by omega)

theorem Moves.fbWrite (p : Point) (v : Ega) (s : State) : Moves 0 s (fbWrite p v s) := by
  unfold Machine.fbWrite
  split
  · intro a t h; cases h; exact ⟨Nat.le_refl _, rfl, rfl, rfl⟩
  · exact Moves.raise _ _ s

theorem Moves.plot (p : Point) (s : State) : Moves 0 s (plot p s) := by
  unfold Machine.plot
  split
  · split
    · exact Moves.raise _ _ s
    · exact Moves.fbWrite _ _ s
  · exact Moves.done _ s

theorem Moves.plotAll (ps : List Point) (s : State) : Moves 0 s (plotAll ps s) := by
  induction ps generalizing s with
  | nil => exact Moves.done _ s
  | cons p ps ih => exact (Moves.plot p s).bind fun _ t => ih t

theorem Moves.drawLine (p q : Point) (s : State) : Moves 0 s (drawLine p q s) := by
  unfold Machine.drawLine
  split
  · exact Moves.plotAll _ s
  · exact Moves.done _ s

theorem Moves.stamp (sel : Option Byte) (p : Point) (s : State) : Moves 0 s (stamp sel p s) := by
  unfold Machine.stamp
  split
  · exact Moves.plotAll _ s
  · exact Moves.done _ s

theorem Moves.fillLoop (pen : Pen) (n : Nat) (visited stack : List Point) (s : State) :
    Moves 0 s (fillLoop pen n visited stack s) := by
  induction n generalizing visited stack s with
  | zero =>
    cases stack with
    | nil => exact Moves.done _ s
    | cons c rest => intro a t h; cases h
  | succ n ih =>
    cases stack with
    | nil => exact Moves.done _ s
    | cons c rest =>
      refine Moves.bind (n := 0) (m := 0) (Moves.fbWrite _ _ s) fun _ t => ?_
      split
      · exact Moves.raise _ _ t
      · exact ih _ _ t

theorem Moves.floodFill (p : Point) (s : State) : Moves 0 s (floodFill p s) := by
  unfold Machine.floodFill
  split
  · split
    · exact Moves.raise _ _ s
    · unfold fbRead
      split
      · rw [Flow.bind_done]
        split
        · exact Moves.fillLoop _ _ _ _ s
        · exact Moves.done _ s
      · intro a t h; cases h
  · exact Moves.done _ s

/-- The elements of a polyline advance where its points do. -/
theorem advances_segment {next : Point → State → Flow Point} (h : ∀ p s, Moves 1 s (next p s)) :
    Advances (segment next) := by
  intro p s q t ht
  obtain ⟨h1, h2, -⟩ :=
    ((h p s).bind fun q t => (Moves.drawLine p q t).bind fun _ u => Moves.done q u) q t ht
  exact ⟨by omega, h2⟩

theorem advances_stampElement {next : Point → State → Flow Point} (h : ∀ p s, Moves 1 s (next p s)) :
    Advances (stampElement next) := by
  intro p s q t ht
  obtain ⟨h1, h2, -⟩ :=
    ((Moves.fetchSelector s).bind fun sel t => (h p t).bind fun q t =>
      (Moves.stamp sel q t).bind fun _ u => Moves.done q u) q t ht
  exact ⟨by omega, h2⟩

theorem advances_stampSeed : Advances stampSeed := by
  intro a s b t ht
  obtain ⟨h1, h2, -⟩ :=
    ((Moves.fetchSelector s).bind fun sel t => (Moves.fetchAbs t).bind fun q u => Moves.stamp sel q u) b t ht
  exact ⟨by omega, h2⟩

theorem advances_seed : Advances seed := by
  intro a s b t ht
  obtain ⟨h1, h2, -⟩ := ((Moves.fetchAbs s).bind fun q u => Moves.floodFill q u) b t ht
  exact ⟨by omega, h2⟩

theorem advances_skipByte : Advances skipByte := by
  intro a s b t ht
  obtain ⟨h1, h2, -⟩ := ((Moves.fetch s).bind fun _ u => Moves.done () u) b t ht
  exact ⟨by omega, h2⟩

theorem prog_writeEntry (i : Fin 160) (c : Byte) (s : State) : (writeEntry i c s).prog = s.prog := by
  unfold writeEntry lockSlot
  split <;> rfl

theorem pos_writeEntry (i : Fin 160) (c : Byte) (s : State) : (writeEntry i c s).pos = s.pos := by
  unfold writeEntry lockSlot
  split <;> rfl

theorem patternFlags_writeEntry (i : Fin 160) (c : Byte) (s : State) :
    (writeEntry i c s).patternFlags = s.patternFlags := by
  unfold writeEntry lockSlot
  split <;> rfl

theorem config_writeEntry (i : Fin 160) (c : Byte) (s : State) : (writeEntry i c s).config = s.config := by
  unfold writeEntry lockSlot
  split <;> rfl

theorem Moves.checkSlot (c : Byte) (s : State) : Moves 0 s (checkSlot c s) := by
  unfold Machine.checkSlot
  split
  · exact Moves.done _ s
  · exact Moves.raise _ _ s

theorem advances_paletteEntry : Advances paletteEntry := by
  intro a s b t ht
  obtain ⟨h1, h2, -⟩ :=
    ((Moves.fetch s).bind fun i u => (Moves.fetch u).bind fun c u => (Moves.checkSlot i u).bind fun i u =>
      (fun b t h => by
        cases h
        exact ⟨Nat.le_of_eq (pos_writeEntry i c u).symm, prog_writeEntry i c u, patternFlags_writeEntry i c u,
          config_writeEntry i c u⟩ :
        Moves 0 u (Flow.done () (writeEntry i c u)))) b t ht
  exact ⟨by omega, h2⟩

/-! ### What the fill can leave -/

/-- What painting on background cells can leave: the framebuffer is written, only at cells that held the background and in
canonical form, and a fault changes `status` and `fault`. -/
def Filled (s t : State) : Prop :=
  (t = s.setFb t.fb ∨ ∃ f, f ≠ .noFault ∧ t = takeFault f (s.setFb t.fb)) ∧
    (Memory.wf s.fb = true → Memory.wf t.fb = true) ∧ ∀ a, fbGet a s.fb ≠ background → fbGet a t.fb = fbGet a s.fb

theorem Filled.refl (s : State) : Filled s s := ⟨.inl rfl, id, fun _ _ => rfl⟩

/-- The loop writes cells of `clear` only, where every pending site is in `clear` and every background cell is. -/
theorem fillLoop_leaves (pen : Pen) (n : Nat) (visited stack : List Point) (s : State) (m : Framebuffer)
    (hm : ∀ a, fbGet a m ≠ background → fbGet a s.fb = fbGet a m)
    (hs : ∀ c ∈ stack, onCanvas c = true ∧ fbGet (address c) m = background) :
    (fillLoop pen n visited stack s).Leaves fun t =>
      (t = s.setFb t.fb ∨ ∃ f, f ≠ .noFault ∧ t = takeFault f (s.setFb t.fb)) ∧
      (Memory.wf s.fb = true → Memory.wf t.fb = true) ∧ ∀ a, fbGet a m ≠ background → fbGet a t.fb = fbGet a m := by
  induction n generalizing visited stack s with
  | zero =>
    cases stack with
    | nil => exact ⟨.inl rfl, id, hm⟩
    | cons c rest => trivial
  | succ n ih =>
    cases stack with
    | nil => exact ⟨.inl rfl, id, hm⟩
    | cons c rest =>
      obtain ⟨hc, hcm⟩ := hs c (by simp)
      unfold fillLoop
      rw [fbWrite_of_onCanvas hc, Flow.bind_done]
      have hm' : ∀ a, fbGet a m ≠ background →
          fbGet a (s.setFb (fbPut (address c) (eff pen c) s.fb)).fb = fbGet a m := by
        intro a ha
        rw [← hm a ha]
        exact fbGet_fbPut_ne (fun h => ha (by rw [h]; exact hcm)) _ _
      cases hp : pushSites (s.setFb (fbPut (address c) (eff pen c) s.fb)).fb (neighbours c) visited rest with
      | none => exact ⟨.inr ⟨_, by decide, rfl⟩, fun h => wf_fbPut _ (address_lt hc) h, hm'⟩
      | some vs =>
        obtain ⟨v, st⟩ := vs
        obtain ⟨new, -, hst, -, hnew, -⟩ := pushSites_some hp
        refine Flow.leaves_mono (ih v st _ hm' ?_) ?_
        · intro q hq
          rw [hst] at hq
          rcases List.mem_append.mp hq with hq | hq
          · obtain ⟨-, -, hqc, hqb⟩ := hnew q hq
            refine ⟨hqc, ?_⟩
            by_contra hne
            exact hne ((hm' _ hne).symm.trans hqb)
          · exact hs q (by simp [hq])
        · rintro t ⟨hform, hwf, hsame⟩
          exact ⟨hform, fun h => hwf (wf_fbPut _ (address_lt hc) h), hsame⟩

/-- Everything `floodFill` can leave. -/
theorem floodFill_leaves (p : Point) (s : State) : (floodFill p s).Leaves (Filled s) := by
  unfold floodFill
  split
  · split
    · exact ⟨.inr ⟨_, by decide, rfl⟩, id, fun _ _ => rfl⟩
    · unfold fbRead
      split
      · next hc =>
        rw [Flow.bind_done]
        split
        · next hb =>
          exact fillLoop_leaves _ _ _ _ s s.fb (fun _ _ => rfl) (by simpa using ⟨hc, hb⟩)
        · exact Filled.refl s
      · exact ⟨.inr ⟨_, by decide, rfl⟩, id, fun _ _ => rfl⟩
  · exact Filled.refl s

/-- Where a fill goes on, it has written the framebuffer and nothing else. -/
theorem fillLoop_done {pen : Pen} {n : Nat} {visited stack : List Point} {s t : State}
    (h : fillLoop pen n visited stack s = .done () t) : t = s.setFb t.fb := by
  induction n generalizing visited stack s with
  | zero =>
    cases stack with
    | nil => cases h; rfl
    | cons c rest => cases h
  | succ n ih =>
    cases stack with
    | nil => cases h; rfl
    | cons c rest =>
      unfold fillLoop fbWrite at h
      split at h
      · rw [Flow.bind_done] at h
        split at h
        · cases h
        · rw [ih h]; rfl
      · cases h

theorem floodFill_done {p : Point} {s t : State} (h : floodFill p s = .done () t) : t = s.setFb t.fb := by
  unfold floodFill at h
  split at h
  · split at h
    · cases h
    · unfold fbRead at h
      split at h
      · rw [Flow.bind_done] at h
        split at h
        · exact fillLoop_done h
        · cases h; rfl
      · cases h
  · cases h; rfl

end Sys2Proof.Machine
end

