-- ==== Sys2Proof/Laws/Frames.lean ====
section
/-! SUPPORT. What every part of a command keeps, part by part: the configuration, the stream, the cursor's direction and bound, the canonical
form, the pairing of `status` and `fault`, the locks; and for the drawing parts, every other register. -/

namespace Sys2Proof.Machine

/-- What any part of a command keeps. -/
def Ran (s t : State) : Prop :=
  t.config = s.config ∧ t.prog = s.prog ∧ s.pos ≤ t.pos ∧ (s.pos ≤ s.prog.length → t.pos ≤ s.prog.length) ∧
    (Memory.wf s.fb = true → Memory.wf t.fb = true) ∧
    ((t.status = s.status ∧ t.fault = s.fault) ∨ (t.status = .faulted ∧ t.fault ≠ .noFault)) ∧
    ∀ j : Fin 40, s.locked[j] = true → t.locked[j] = true

theorem Ran.refl (s : State) : Ran s s := ⟨rfl, rfl, Nat.le_refl _, id, id, .inl ⟨rfl, rfl⟩, fun _ h => h⟩

theorem Ran.trans {s t u : State} (h : Ran s t) (h' : Ran t u) : Ran s u := by
  obtain ⟨c1, p1, q1, b1, w1, f1, l1⟩ := h
  obtain ⟨c2, p2, q2, b2, w2, f2, l2⟩ := h'
  refine ⟨c2.trans c1, p2.trans p1, Nat.le_trans q1 q2, fun h => p1 ▸ b2 (p1 ▸ b1 h), fun h => w2 (w1 h), ?_,
    fun j h => l2 j (l1 j h)⟩
  rcases f2 with ⟨e1, e2⟩ | h
  · rw [e1, e2]; exact f1
  · exact .inr h

/-- What any drawing part keeps. -/
def Drawn (s t : State) : Prop := Ran s t ∧ SameButDrawing s t

theorem Drawn.refl (s : State) : Drawn s s := ⟨Ran.refl s, rfl⟩

theorem SameButDrawing.trans {s t u : State} (h : SameButDrawing s t) (h' : SameButDrawing t u) : SameButDrawing s u := by
  unfold SameButDrawing at *
  rw [h', h]

theorem Drawn.trans {s t u : State} (h : Drawn s t) (h' : Drawn t u) : Drawn s u :=
  ⟨h.1.trans h'.1, h.2.trans h'.2⟩

theorem Drawn.bind {α β : Type} {s : State} {x : Flow α} {f : α → State → Flow β} (hx : x.Leaves (Drawn s))
    (hf : ∀ a t, (f a t).Leaves (Drawn t)) : (x.bind f).Leaves (Drawn s) :=
  Flow.leaves_bind (R := Drawn) Drawn.trans hx fun a t _ => hf a t

theorem ran_takeFault {f : FaultCode} (hf : f ≠ .noFault) (s : State) : Ran s (takeFault f s) :=
  ⟨rfl, rfl, Nat.le_refl _, id, id, .inr ⟨rfl, hf⟩, fun _ h => h⟩

theorem drawn_takeFault {f : FaultCode} (hf : f ≠ .noFault) (s : State) : Drawn s (takeFault f s) :=
  ⟨ran_takeFault hf s, rfl⟩

theorem drawn_fetch (s : State) : (fetch s).Leaves (Drawn s) := by
  rcases fetch_cases s with ⟨b, hlt, -, h⟩ | ⟨-, h⟩
  · rw [h]
    exact ⟨⟨rfl, rfl, Nat.le_succ _, fun _ => hlt, id, .inl ⟨rfl, rfl⟩, fun _ h => h⟩, rfl⟩
  · rw [h]
    exact drawn_takeFault (by decide) s

theorem drawn_fetchAbs (s : State) : (fetchAbs s).Leaves (Drawn s) :=
  Drawn.bind (drawn_fetch s) fun _ t => Drawn.bind (drawn_fetch t) fun _ t =>
    Drawn.bind (drawn_fetch t) fun _ t => Drawn.refl t

theorem drawn_fetchSelector (s : State) : (fetchSelector s).Leaves (Drawn s) := by
  unfold fetchSelector
  split
  · exact Drawn.bind (drawn_fetch s) fun _ t => Drawn.refl t
  · exact Drawn.refl s

theorem drawn_nextShort (p : Point) (s : State) : (nextShort p s).Leaves (Drawn s) :=
  Drawn.bind (drawn_fetch s) fun _ t => Drawn.refl t

theorem drawn_nextMedium (p : Point) (s : State) : (nextMedium p s).Leaves (Drawn s) :=
  Drawn.bind (drawn_fetch s) fun _ t => Drawn.bind (drawn_fetch t) fun _ t =>
    Drawn.refl t

theorem drawn_of_drew {ps : List Point} {s t : State} (h : Drew ps s t) : Drawn s t := by
  obtain ⟨hform, hwf, -, -⟩ := h
  rcases hform with ht | ⟨f, hf, ht⟩
  · rw [ht]
    exact ⟨⟨rfl, rfl, Nat.le_refl _, id, hwf, .inl ⟨rfl, rfl⟩, fun _ h => h⟩, rfl⟩
  · rw [ht]
    refine ⟨⟨rfl, rfl, Nat.le_refl _, id, hwf, .inr ⟨rfl, ?_⟩, fun _ h => h⟩, rfl⟩
    rcases hf with rfl | rfl
    · exact FaultCode.noConfusion
    · exact FaultCode.noConfusion

theorem drawn_of_filled {s t : State} (h : Filled s t) : Drawn s t := by
  obtain ⟨hform, hwf, -⟩ := h
  rcases hform with ht | ⟨f, hf, ht⟩
  · rw [ht]
    exact ⟨⟨rfl, rfl, Nat.le_refl _, id, hwf, .inl ⟨rfl, rfl⟩, fun _ h => h⟩, rfl⟩
  · rw [ht]
    exact ⟨⟨rfl, rfl, Nat.le_refl _, id, hwf, .inr ⟨rfl, hf⟩, fun _ h => h⟩, rfl⟩

theorem drawn_drawLine (p q : Point) (s : State) : (drawLine p q s).Leaves (Drawn s) :=
  Flow.leaves_mono (drawLine_leaves p q s) fun _ => drawn_of_drew

theorem drawn_stamp (sel : Option Byte) (p : Point) (s : State) : (stamp sel p s).Leaves (Drawn s) :=
  Flow.leaves_mono (stamp_leaves sel p s) fun _ => drawn_of_drew

theorem drawn_floodFill (p : Point) (s : State) : (floodFill p s).Leaves (Drawn s) :=
  Flow.leaves_mono (floodFill_leaves p s) fun _ => drawn_of_filled

/-- Everything a polyline command can leave. -/
theorem drawn_polyline {next : Point → State → Flow Point} (h : ∀ p s, (next p s).Leaves (Drawn s)) (s : State) :
    (polyline next s).Leaves (Drawn s) :=
  Flow.leaves_void.mpr <| Drawn.bind (drawn_fetchAbs s) fun p t =>
    whileElements_leaves (R := Drawn) Drawn.refl Drawn.trans (fun p s => Drawn.bind (h p s) fun q t =>
      Drawn.bind (drawn_drawLine p q t) fun _ u => (Flow.leaves_done q u _).mpr (Drawn.refl u)) p t

/-- Everything `floodFill`, the command, can leave. -/
theorem drawn_seeds (s : State) : (whileElements seed () s).Leaves (Drawn s) :=
  whileElements_leaves (R := Drawn) Drawn.refl Drawn.trans (fun _ s => Drawn.bind (drawn_fetchAbs s) fun p t =>
    drawn_floodFill p t) () s

/-- Everything `longPatterns` can leave. -/
theorem drawn_stampSeeds (s : State) : (whileElements stampSeed () s).Leaves (Drawn s) :=
  whileElements_leaves (R := Drawn) Drawn.refl Drawn.trans (fun _ s => Drawn.bind (drawn_fetchSelector s)
    fun sel t => Drawn.bind (drawn_fetchAbs t) fun p u => drawn_stamp sel p u) () s

/-- Everything a relative pattern command can leave. -/
theorem drawn_patternWalk {next : Point → State → Flow Point} (h : ∀ p s, (next p s).Leaves (Drawn s)) (s : State) :
    (patternWalk next s).Leaves (Drawn s) :=
  Flow.leaves_void.mpr <| Drawn.bind (drawn_fetchSelector s) fun sel t =>
    Drawn.bind (drawn_fetchAbs t) fun p u =>
    Drawn.bind (drawn_stamp sel p u) fun _ v =>
    whileElements_leaves (R := Drawn) Drawn.refl Drawn.trans (fun p s => Drawn.bind (drawn_fetchSelector s)
      fun sel t => Drawn.bind (h p t) fun q u =>
        Drawn.bind (drawn_stamp sel q u) fun _ v => (Flow.leaves_done q v _).mpr (Drawn.refl v)) p v

/-! ### The palette commands -/

/-- What any part of a palette command keeps. -/
def Paletted (s t : State) : Prop := Ran s t ∧ SameButPalette s t

theorem Paletted.refl (s : State) : Paletted s s := ⟨Ran.refl s, rfl⟩

theorem Paletted.trans {s t u : State} (h : Paletted s t) (h' : Paletted t u) : Paletted s u := by
  refine ⟨h.1.trans h'.1, ?_⟩
  have h1 := h.2
  have h2 := h'.2
  unfold SameButPalette at *
  rw [h2, h1]

theorem Paletted.bind {α β : Type} {s : State} {x : Flow α} {f : α → State → Flow β} (hx : x.Leaves (Paletted s))
    (hf : ∀ a t, (f a t).Leaves (Paletted t)) : (x.bind f).Leaves (Paletted s) :=
  Flow.leaves_bind (R := Paletted) Paletted.trans hx fun a t _ => hf a t

theorem paletted_fetch (s : State) : (fetch s).Leaves (Paletted s) := by
  rcases fetch_cases s with ⟨b, hlt, -, h⟩ | ⟨-, h⟩
  · rw [h]
    exact ⟨⟨rfl, rfl, Nat.le_succ _, fun _ => hlt, id, .inl ⟨rfl, rfl⟩, fun _ h => h⟩, rfl⟩
  · rw [h]
    exact ⟨ran_takeFault (by decide) s, rfl⟩

theorem paletted_checkSlot (c : Byte) (s : State) : (checkSlot c s).Leaves (Paletted s) := by
  unfold checkSlot
  split
  · exact Paletted.refl s
  · exact ⟨ran_takeFault (by decide) s, rfl⟩

theorem paletted_writeSlot (i : Fin 160) (c : Byte) (s : State) : Paletted s (writeSlot i c s) :=
  ⟨⟨rfl, rfl, Nat.le_refl _, id, id, .inl ⟨rfl, rfl⟩, fun _ h => h⟩, rfl⟩

theorem paletted_writeEntry (i : Fin 160) (c : Byte) (s : State) : Paletted s (writeEntry i c s) := by
  refine (paletted_writeSlot i c s).trans ?_
  unfold writeEntry lockSlot
  split
  · refine ⟨⟨rfl, rfl, Nat.le_refl _, id, id, .inl ⟨rfl, rfl⟩, fun j h => ?_⟩, rfl⟩
    simp only [Fin.getElem_fin, State.locked_setLocked, Vector.getElem_set]
    split
    · rfl
    · exact h
  · exact Paletted.refl _

/-- Everything `setPaletteEntries` can leave. -/
theorem paletted_setPaletteEntries (s : State) : (setPaletteEntries s).Leaves (Paletted s) :=
  whileElements_leaves (R := Paletted) Paletted.refl Paletted.trans (fun _ s => Paletted.bind (paletted_fetch s)
    fun i t => Paletted.bind (paletted_fetch t) fun c u =>
      Paletted.bind (paletted_checkSlot i u) fun i v => (Flow.leaves_done () _ _).mpr (paletted_writeEntry i c v)) () s

theorem paletted_loadSlots (is : List (Fin 160)) (s : State) : (loadSlots is s).Leaves (Paletted s) := by
  induction is generalizing s with
  | nil => exact Paletted.refl s
  | cons i is ih =>
    exact Paletted.bind (paletted_fetch s) fun c t =>
      Flow.leaves_mono (ih _) fun _ h => (paletted_writeSlot i c t).trans h

/-- Everything `setEntirePalette` can leave. -/
theorem paletted_setEntirePalette (s : State) : (setEntirePalette s).Leaves (Paletted s) := by
  refine Paletted.bind (paletted_fetch s) fun p t => Paletted.bind ?_ fun p u =>
    paletted_loadSlots _ u
  unfold checkBank
  split
  · exact Paletted.refl t
  · exact ⟨ran_takeFault (by decide) t, rfl⟩

/-- Everything a skipped payload can leave. -/
theorem paletted_skipPayload (s : State) : (skipPayload s).Leaves (Paletted s) :=
  whileElements_leaves (R := Paletted) Paletted.refl Paletted.trans (fun _ s => Flow.leaves_void.mpr (paletted_fetch s)) () s

theorem paletted_dispatchExtended (sub : Byte) (s : State) : (dispatchExtended sub s).Leaves (Paletted s) := by
  unfold dispatchExtended
  split
  · exact paletted_setPaletteEntries s
  · split
    · exact paletted_setEntirePalette s
    · split
      · exact paletted_skipPayload s
      · exact ⟨ran_takeFault (by decide) s, rfl⟩

end Sys2Proof.Machine
end

