-- ==== Sys2Proof/Laws/PerInstr.lean ====
section
/-! SUPPORT. One lemma for each instruction: its opcode bytes, alone in the stream, decode to it (R60, R61, R64). -/

namespace Sys2Proof.Laws.OpcodeRoundTrip

/-- The opcode bytes of a well-formed instruction decode to it, all of them read. -/
def Statement (i : Instr) : Prop :=
  i.wellFormed = true → decode (encode i) = .ok (i, (encode i).length)

theorem setVisualColor : Statement .setVisualColor := fun _ => by decide

theorem disableVisual : Statement .disableVisual := fun _ => by decide

theorem setPriorityColor : Statement .setPriorityColor := fun _ => by decide

theorem disablePriority : Statement .disablePriority := fun _ => by decide

theorem shortRelativePatterns : Statement .shortRelativePatterns := fun _ => by decide

theorem mediumRelativeLines : Statement .mediumRelativeLines := fun _ => by decide

theorem longLines : Statement .longLines := fun _ => by decide

theorem shortRelativeLines : Statement .shortRelativeLines := fun _ => by decide

theorem floodFill : Statement .floodFill := fun _ => by decide

theorem setPattern : Statement .setPattern := fun _ => by decide

theorem longPatterns : Statement .longPatterns := fun _ => by decide

theorem setControlColor : Statement .setControlColor := fun _ => by decide

theorem disableControl : Statement .disableControl := fun _ => by decide

theorem mediumRelativePatterns : Statement .mediumRelativePatterns := fun _ => by decide

theorem extendedCommand : Statement .extendedCommand := fun _ => by decide

theorem pictureEnd : Statement .pictureEnd := fun _ => by decide

theorem setPaletteEntries : Statement .setPaletteEntries := fun _ => by decide

theorem setEntirePalette : Statement .setEntirePalette := fun _ => by decide

theorem ext02 : Statement .ext02 := fun _ => by decide

theorem ext03 : Statement .ext03 := fun _ => by decide

theorem ext04 : Statement .ext04 := fun _ => by decide

theorem ext05 : Statement .ext05 := fun _ => by decide

theorem ext06 : Statement .ext06 := fun _ => by decide

theorem ext07 : Statement .ext07 := fun _ => by decide

theorem ext08 : Statement .ext08 := fun _ => by decide

theorem extUnknown09 : Statement .extUnknown09 := fun _ => by decide

theorem extUnknown0A0B (sub : Byte) : Statement (.extUnknown0A0B sub) := by
  have : ∀ sub : Byte, Instr.wellFormed (.extUnknown0A0B sub) = true →
      lookupRow twoByteRows (extendedOpcode ++ sub) = some (.extUnknown0A0B sub) := by decide
  intro h
  have := this sub h
  simp_all [encode, decode, decodeTwo, extendedOpcode]

theorem extUnknown0C0F (sub : Byte) : Statement (.extUnknown0C0F sub) := by
  have : ∀ sub : Byte, Instr.wellFormed (.extUnknown0C0F sub) = true →
      lookupRow twoByteRows (extendedOpcode ++ sub) = some (.extUnknown0C0F sub) := by decide
  intro h
  have := this sub h
  simp_all [encode, decode, decodeTwo, extendedOpcode]

theorem extUnknown101F (sub : Byte) : Statement (.extUnknown101F sub) := by
  have : ∀ sub : Byte, Instr.wellFormed (.extUnknown101F sub) = true →
      lookupRow twoByteRows (extendedOpcode ++ sub) = some (.extUnknown101F sub) := by decide
  intro h
  have := this sub h
  simp_all [encode, decode, decodeTwo, extendedOpcode]

theorem extUnknown203F (sub : Byte) : Statement (.extUnknown203F sub) := by
  have : ∀ sub : Byte, Instr.wellFormed (.extUnknown203F sub) = true →
      lookupRow twoByteRows (extendedOpcode ++ sub) = some (.extUnknown203F sub) := by decide
  intro h
  have := this sub h
  simp_all [encode, decode, decodeTwo, extendedOpcode]

theorem extUnknown407F (sub : Byte) : Statement (.extUnknown407F sub) := by
  have : ∀ sub : Byte, Instr.wellFormed (.extUnknown407F sub) = true →
      lookupRow twoByteRows (extendedOpcode ++ sub) = some (.extUnknown407F sub) := by decide
  intro h
  have := this sub h
  simp_all [encode, decode, decodeTwo, extendedOpcode]

theorem extUnknown80FF (sub : Byte) : Statement (.extUnknown80FF sub) := by
  have : ∀ sub : Byte, Instr.wellFormed (.extUnknown80FF sub) = true →
      lookupRow twoByteRows (extendedOpcode ++ sub) = some (.extUnknown80FF sub) := by decide
  intro h
  have := this sub h
  simp_all [encode, decode, decodeTwo, extendedOpcode]

theorem unknownOpcode007F (b : Byte) : Statement (.unknownOpcode007F b) := by
  have : ∀ b : Byte, Instr.wellFormed (.unknownOpcode007F b) = true → lookupRow oneByteRows b = some (.unknownOpcode007F b) := by decide
  intro h
  simp [encode, decode, decodeOne, this b h]

theorem unknownOpcode80BF (b : Byte) : Statement (.unknownOpcode80BF b) := by
  have : ∀ b : Byte, Instr.wellFormed (.unknownOpcode80BF b) = true → lookupRow oneByteRows b = some (.unknownOpcode80BF b) := by decide
  intro h
  simp [encode, decode, decodeOne, this b h]

theorem unknownOpcodeC0DF (b : Byte) : Statement (.unknownOpcodeC0DF b) := by
  have : ∀ b : Byte, Instr.wellFormed (.unknownOpcodeC0DF b) = true → lookupRow oneByteRows b = some (.unknownOpcodeC0DF b) := by decide
  intro h
  simp [encode, decode, decodeOne, this b h]

theorem unknownOpcodeE0EF (b : Byte) : Statement (.unknownOpcodeE0EF b) := by
  have : ∀ b : Byte, Instr.wellFormed (.unknownOpcodeE0EF b) = true → lookupRow oneByteRows b = some (.unknownOpcodeE0EF b) := by decide
  intro h
  simp [encode, decode, decodeOne, this b h]

end Sys2Proof.Laws.OpcodeRoundTrip
end

