-- ==== Sys2Proof/Tests/Slice0.lean ====
section
/-! SUPPORT. The model's own tests. Expected results are from spec/95_test_vectors.md (the vector is named) or worked by hand
from the rules named. The witness_ theorems show, for each statement with hypotheses, a state and operands that meet them. -/

namespace Sys2Proof.Machine

/-! ### Helpers -/

/-- A configuration: a grey default palette, a texture whose first bits are 1, 0, 1 and then zeros, starts at 2 but for
entry 1 at 1, rectangles of two pixels side by side, visited right to left, whose stamp position is the right one and is kept from
column 0; empty circles. -/
def sample : Configuration where
  defaultPalette := Vector.replicate 39 0x88
  pattern :=
    { circles := Vector.replicate 7 ⟨[], ⟨0, 0⟩, ⟨.x, .y⟩⟩
      dotClamp := ⟨.const 0, .const 0⟩
      rectangles := Vector.replicate 8 ⟨(10, 10), (11, 10), [(11, 10)], ⟨11, 10⟩, ⟨.ifLess .x (.const 1) (.const 1) .x, .y⟩⟩
      texture := (Vector.replicate 32 0).set 0 0b10100000
      textureStart := (Vector.replicate 128 2).set 1 1 }

/-- A block past its header check, with the pen (0,0), about to run `bytes`. -/
def ready (bytes : List Byte) : State :=
  { hostLoad sample ([hdr0, hdr1] ++ bytes) with pos := 2, pen := some ⟨0, 0⟩ }

/-- The same without a pen. -/
def noPen (bytes : List Byte) : State :=
  { hostLoad sample ([hdr0, hdr1] ++ bytes) with pos := 2 }

/-- The same with drawing disabled. -/
def dark (bytes : List Byte) : State :=
  { hostLoad sample ([hdr0, hdr1] ++ bytes) with pos := 2, visualEnabled := false }

/-- A field of the next state, if there is one. -/
def nextIs {α : Type} [DecidableEq α] (o : Host.Outcome State Fault Refusal) (f : State → α) (v : α) : Bool :=
  match o with
  | .next t => f t == v
  | .fault _ => false
  | .refused _ => false

/-- The pixels of the framebuffer that are listed, as (x, y, colour). -/
def pixels (s : State) : List (Nat × Nat × Nat) :=
  s.fb.map fun c => (c.1 % 320, c.1 / 320, c.2.toNat)

/-! ### Well-formedness: an ill-formed term for each check -/

theorem test_wf_refuses_ext0A0B : Instr.wellFormed (.extUnknown0A0B 0x0C) = false := by decide
theorem test_wf_refuses_ext0C0F : Instr.wellFormed (.extUnknown0C0F 0x0B) = false := by decide
theorem test_wf_refuses_ext101F : Instr.wellFormed (.extUnknown101F 0x20) = false := by decide
theorem test_wf_refuses_ext203F : Instr.wellFormed (.extUnknown203F 0x1F) = false := by decide
theorem test_wf_refuses_ext407F : Instr.wellFormed (.extUnknown407F 0x80) = false := by decide
theorem test_wf_refuses_ext80FF : Instr.wellFormed (.extUnknown80FF 0x7F) = false := by decide
theorem test_wf_refuses_op007F : Instr.wellFormed (.unknownOpcode007F 0x80) = false := by decide
theorem test_wf_refuses_op80BF : Instr.wellFormed (.unknownOpcode80BF 0xC0) = false := by decide
theorem test_wf_refuses_opC0DF : Instr.wellFormed (.unknownOpcodeC0DF 0xE0) = false := by decide
theorem test_wf_refuses_opE0EF : Instr.wellFormed (.unknownOpcodeE0EF 0xF0) = false := by decide

/-! ### Decoding: words written out bit by bit from R60 and R61 -/

theorem test_decode_colour : decode [0b11110000, 0x00] = .ok (.setVisualColor, 1) ∧
    decode [0b11110001] = .ok (.disableVisual, 1) ∧ decode [0b11110010, 0xFF] = .ok (.setPriorityColor, 1) ∧
    decode [0b11110011] = .ok (.disablePriority, 1) ∧ decode [0b11111011, 0x03] = .ok (.setControlColor, 1) ∧
    decode [0b11111100] = .ok (.disableControl, 1) ∧ decode [0b11111111] = .ok (.pictureEnd, 1) := by decide
theorem test_decode_lines : decode [0b11110101, 0x00] = .ok (.mediumRelativeLines, 1) ∧
    decode [0b11110110, 0x00] = .ok (.longLines, 1) ∧ decode [0b11110111, 0x00] = .ok (.shortRelativeLines, 1) := by decide
theorem test_decode_fill : decode [0b11111000, 0x00, 0x01, 0x01] = .ok (.floodFill, 1) := by decide
theorem test_decode_patterns : decode [0b11110100, 0x00] = .ok (.shortRelativePatterns, 1) ∧
    decode [0b11111001, 0x25] = .ok (.setPattern, 1) ∧ decode [0b11111010, 0x00] = .ok (.longPatterns, 1) ∧
    decode [0b11111101, 0x00] = .ok (.mediumRelativePatterns, 1) := by decide
theorem test_decode_extended : decode [0b11111110] = .ok (.extendedCommand, 1) ∧
    decode [0b11111110, 0b00000000] = .ok (.setPaletteEntries, 2) ∧
    decode [0b11111110, 0b00000001, 0x01] = .ok (.setEntirePalette, 2) ∧
    decode [0b11111110, 0b00000010] = .ok (.ext02, 2) ∧ decode [0b11111110, 0b00000011] = .ok (.ext03, 2) ∧
    decode [0b11111110, 0b00000100] = .ok (.ext04, 2) ∧ decode [0b11111110, 0b00000101] = .ok (.ext05, 2) ∧
    decode [0b11111110, 0b00000110] = .ok (.ext06, 2) ∧ decode [0b11111110, 0b00000111] = .ok (.ext07, 2) ∧
    decode [0b11111110, 0b00001000] = .ok (.ext08, 2) := by decide
theorem test_decode_unknown_ext : decode [0b11111110, 0b00001001] = .ok (.extUnknown09, 2) ∧
    decode [0b11111110, 0b00001011] = .ok (.extUnknown0A0B 0x0B, 2) ∧
    decode [0b11111110, 0b00001111] = .ok (.extUnknown0C0F 0x0F, 2) ∧
    decode [0b11111110, 0b00010000] = .ok (.extUnknown101F 0x10, 2) ∧
    decode [0b11111110, 0b00111111] = .ok (.extUnknown203F 0x3F, 2) ∧
    decode [0b11111110, 0b01000000] = .ok (.extUnknown407F 0x40, 2) ∧
    decode [0b11111110, 0b11110000] = .ok (.extUnknown80FF 0xF0, 2) := by decide
theorem test_decode_unknown_op : decode [0b01111111] = .ok (.unknownOpcode007F 0x7F, 1) ∧
    decode [0b10000000, 0x00] = .ok (.unknownOpcode80BF 0x80, 1) ∧
    decode [0b11011111] = .ok (.unknownOpcodeC0DF 0xDF, 1) ∧
    decode [0b11101111] = .ok (.unknownOpcodeE0EF 0xEF, 1) ∧ decode [] = .error .endOfStream := by decide
theorem test_table_words : decodeTableWord 8 0xF6 = some .longLines ∧ decodeTableWord 8 0xFE = some .extendedCommand ∧
    decodeTableWord 16 0xFE00 = some .setPaletteEntries ∧
    decodeTableWord 16 0xFE0B = some (.extUnknown0A0B 0x0B) ∧ decodeTableWord 8 0x12 = some (.unknownOpcode007F 0x12) := by
  decide
theorem test_fetch_word_runs : nextIs (step (State.reset.withFetchWord 8 0xF9)) State.pos 4 = true ∧
    nextIs (step (State.reset.withFetchWord 16 0xFE01)) State.pos 45 = true ∧
    nextIs (step (State.reset.withFetchWord 8 0xF6)) State.status .running = true := by decide

/-! ### Operands -/

/-- V-ENC-A. -/
theorem test_abs : absPoint 0x10 0x3F 0xBD = ⟨319, 189⟩ ∧ absPoint 0x01 0x01 0x01 = ⟨1, 257⟩ ∧
    absPoint 0xEF 0xFF 0xFF = ⟨3839, 4095⟩ ∧ encodeAbs ⟨319, 189⟩ = [0x10, 0x3F, 0xBD] := by decide
/-- V-ENC-S. -/
theorem test_short : shortStep 0x9A ⟨0, 0⟩ = ⟨-1, -2⟩ ∧ shortStep 0xEF ⟨0, 0⟩ = ⟨-6, -7⟩ ∧
    shortStep 0x88 ⟨0, 0⟩ = ⟨0, 0⟩ ∧ shortStep 0xFF ⟨0, 0⟩ = ⟨-7, -7⟩ ∧ encodeShort (-1) (-2) = 0x9A := by decide
/-- V-ENC-M. -/
theorem test_medium : mediumStep 0x85 0xFB ⟨2, 2⟩ = ⟨0, 0⟩ ∧ mediumStep 0x80 0x80 ⟨100, 50⟩ = ⟨0, 50⟩ ∧
    mediumStep 0x7F 0x7F ⟨314, 185⟩ = ⟨319, 189⟩ ∧ mediumStep 0xEF 0x81 ⟨200, 150⟩ = ⟨73, 39⟩ ∧
    [encodeMediumDy (-5), encodeMediumDx 2] = [0x85, 0x02] := by decide
/-- V-ENC-N. -/
theorem test_next_is_command : nextIsCommand (ready []) = true ∧ nextIsCommand (ready [0xF0]) = true ∧
    nextIsCommand (ready [0xEF]) = false := by decide
/-- V-PAT-7. -/
theorem test_flag_fields : usesTexture 0x25 = true ∧ isRectangle 0x25 = false ∧ patternSize 0x25 = 5 ∧
    isRectangle 0x17 = true ∧ patternSize 0x17 = 7 ∧ usesTexture 0xC8 = false ∧ patternSize 0xC8 = 0 := by decide
/-- The texture cursor wraps at 254 (R131). -/
theorem test_texture_wraps : texNext 253 = 0 ∧ texNext 0 = 1 := by decide

/-! ### The framebuffer -/

theorem test_fb_write_back_to_clear : fbPut 5 0xF (fbPut 5 3 []) = [] := by decide
theorem test_fb_order : fbPut 2 1 (fbPut 9 2 (fbPut 5 3 [])) = [(2, 1), (5, 3), (9, 2)] := by decide

/-! ### The header check and the main loop -/

/-- S1: the header check of a good stream leaves `pos = 2`. -/
theorem test_header_passes : nextIs (step (hostLoad sample [0x81, 0x00, 0xFF])) State.pos 2 = true := by decide
/-- V-FAULT-22, V-FAULT-5, V-FAULT-6. -/
theorem test_header_fails : nextIs (step (hostLoad sample [0x81, 0x01, 0xFF])) State.fault .invalidResource = true ∧
    nextIs (step (hostLoad sample [0x81])) State.fault .invalidResource = true ∧
    nextIs (step (hostLoad sample [])) State.pos 0 = true := by decide
/-- V-FAULT-7. -/
theorem test_stream_without_end : nextIs (step (ready [])) State.fault .unexpectedEnd = true := by decide
theorem test_halted_stays : nextIs (step { ready [0xF1] with status := .halted }) State.pos 2 = true := by decide

/-! ### Colour and enable commands -/

/-- S4's `setVisualColor 40`, on a palette whose slot 40 is (0,15). -/
theorem test_set_visual_color :
    nextIs (step (writeSlot 40 0x0F (ready [0xF0, 0x28]))) State.pen (some ⟨0, 15⟩) = true := by decide +kernel
/-- V-EXT-1: a locked slot coerces 45 to 5. -/
theorem test_set_visual_color_locked :
    nextIs (step (writeEntry 5 0x12 (dark [0xF0, 0x2D]))) (fun t => (t.pen, t.visualEnabled)) (some ⟨1, 2⟩, true) = true := by
  decide +kernel
/-- V-COL-6. -/
theorem test_set_visual_color_fault :
    nextIs (step (noPen [0xF0, 0xA0, 0xFF])) (fun t => (t.fault, t.pos, t.pen)) (.invalidPaletteIndex, 4, none) = true := by
  decide
theorem test_disable_visual : nextIs (step (ready [0xF1])) State.visualEnabled false = true := by decide
/-- V-COL-2. -/
theorem test_set_priority_color : nextIs (step (ready [0xF2, 0xFF, 0xFF])) (fun t => (t.pos, t.status)) (4, .running) = true := by
  decide
theorem test_disable_priority : nextIs (step (ready [0xF3, 0xFF])) (fun t => (t.pos, t.visualEnabled)) (3, true) = true := by
  decide
/-- V-COL-3: `FB` consumes `F5`. -/
theorem test_set_control_color : nextIs (step (ready [0xFB, 0xF5, 0xFF])) (fun t => (t.pos, t.fault)) (4, .noFault) = true := by
  decide
theorem test_disable_control : nextIs (step (ready [0xFC, 0xFF])) (fun t => (t.pos, t.status)) (3, .running) = true := by decide
/-- V-COL-7. -/
theorem test_picture_end : nextIs (step (ready [0xFF, 0x12, 0x34])) (fun t => (t.status, t.pos)) (.halted, 3) = true := by decide
/-- V-FAULT-23, V-FAULT-24. -/
theorem test_unknown_opcode : nextIs (step (ready [0x00])) (fun t => (t.fault, t.pos)) (.unknownOpcode, 3) = true ∧
    nextIs (step (ready [0xEF])) (fun t => (t.fault, t.pos)) (.unknownOpcode, 3) = true := by decide
theorem test_unknown_opcode_middle : nextIs (step (ready [0xBF])) State.fault .unknownOpcode = true ∧
    nextIs (step (ready [0xC0])) State.fault .unknownOpcode = true := by decide

/-! ### The extended command -/

/-- V-EXT-2's `FE 00`. -/
theorem test_set_palette_entries :
    nextIs (step (ready [0xFE, 0x00, 0x05, 0x12, 0x2D, 0x34, 0xF0, 0x2D]))
      (fun t => (t.pal[5], t.pal[45], t.locked[5], t.pos)) (0x12, 0x34, true, 8) = true := by decide +kernel
/-- V-FAULT-10, V-FAULT-12. -/
theorem test_set_palette_entries_faults :
    nextIs (step (ready [0xFE, 0x00, 0xA0, 0x00, 0xFF])) (fun t => (t.fault, t.pos)) (.invalidPaletteIndex, 6) = true ∧
    nextIs (step (ready [0xFE, 0x00, 0xA0])) (fun t => (t.fault, t.pos)) (.unexpectedEnd, 5) = true := by decide
/-- S4's `FE 01`. -/
theorem test_set_entire_palette :
    nextIs (step (ready ([0xFE, 0x01, 0x01] ++ List.replicate 40 0x0F)))
      (fun t => (t.pal[40], t.pal[79], t.pal[80], t.pos)) (0x0F, 0x0F, 0x00, 45) = true := by decide +kernel
/-- V-FAULT-9, V-FAULT-13. -/
theorem test_set_entire_palette_faults :
    nextIs (step (ready [0xFE, 0x01, 0x04, 0xFF])) (fun t => (t.fault, t.pos)) (.invalidPaletteBank, 5) = true ∧
    nextIs (step (ready ([0xFE, 0x01, 0x00] ++ List.replicate 38 0x00 ++ [0xFF])))
      (fun t => (t.fault, t.pal[38])) (.unexpectedEnd, 0xFF) = true := by decide +kernel
/-- V-EXT-7. -/
theorem test_ext04 : nextIs (step (ready [0xFE, 0x04, 0x11, 0x22, 0x33, 0xFF])) State.pos 7 = true := by decide
/-- V-EXT-9: the skip of `ext07` stops at `F1`. -/
theorem test_ext07 : nextIs (step (ready [0xFE, 0x07, 0x00, 0x05, 0x05, 0xF1, 0x03])) State.pos 7 = true := by decide
/-- V-EXT-10: at the end of the stream the skip just ends. -/
theorem test_ext02 : nextIs (step (ready [0xFE, 0x02, 0x11])) (fun t => (t.pos, t.status)) (5, .running) = true := by decide
theorem test_ext_others : nextIs (step (ready [0xFE, 0x03, 0xEF, 0xF0])) State.pos 5 = true ∧
    nextIs (step (ready [0xFE, 0x05, 0xFF])) State.pos 4 = true ∧ nextIs (step (ready [0xFE, 0x06])) State.pos 4 = true ∧
    nextIs (step (ready [0xFE, 0x08, 0x00, 0xFF])) State.pos 5 = true := by decide
/-- V-FAULT-8, V-FAULT-18. -/
theorem test_ext_unknown :
    nextIs (step (ready [0xFE, 0x09, 0xFF])) (fun t => (t.fault, t.pos)) (.unknownExtendedOpcode, 4) = true ∧
    nextIs (step (ready [0xFE, 0xFF])) (fun t => (t.fault, t.pos)) (.unknownExtendedOpcode, 4) = true := by decide
/-- V-FAULT-19: the stream ends just after 0xFE. -/
theorem test_extended_command : nextIs (step (ready [0xFE])) (fun t => (t.fault, t.pos)) (.unexpectedEnd, 3) = true := by decide
/-- R141: the dispatch itself, on V-EXT-1's entry. -/
theorem test_extended_command_dispatch :
    nextIs (exec .extendedCommand (ready [0x00, 0x05, 0x12])) (fun t => (t.pal[5], t.pos)) (0x12, 5) = true := by decide +kernel

/-! ### Lines -/

/-- V-LINE-P. -/
theorem test_line_shallow : linePixels ⟨0, 0⟩ ⟨5, 2⟩ = [⟨0, 0⟩, ⟨1, 0⟩, ⟨2, 1⟩, ⟨3, 1⟩, ⟨4, 2⟩, ⟨5, 2⟩] := by decide
/-- V-LINE-P. -/
theorem test_line_steep_back : linePixels ⟨3, 3⟩ ⟨0, 9⟩ =
    [⟨3, 3⟩, ⟨2, 4⟩, ⟨2, 5⟩, ⟨1, 6⟩, ⟨1, 7⟩, ⟨0, 8⟩, ⟨0, 9⟩] := by decide
/-- S2. -/
theorem test_long_lines : nextIs (step (ready [0xF6, 0, 0, 0, 0, 4, 0, 0xFF])) (fun t => (pixels t, t.pos))
    ([(0, 0, 0), (1, 0, 0), (2, 0, 0), (3, 0, 0), (4, 0, 0)], 9) = true := by decide
/-- V-FAULT-15: drawn up to the edge, then OutOfBounds. -/
theorem test_long_lines_fault : nextIs (step (ready [0xF6, 0x10, 0x3E, 0, 0x10, 0x42, 0, 0xFF]))
    (fun t => (t.fault, pixels t, t.pos)) (.outOfBounds, [(318, 0, 0), (319, 0, 0)], 9) = true := by decide
/-- V-LINE-3. -/
theorem test_medium_lines : nextIs (step (ready [0xF5, 0, 2, 2, 0x85, 0xFB, 0xFF])) pixels
    [(0, 0, 0), (1, 1, 0), (2, 2, 0)] = true := by decide
/-- V-LINE-10. -/
theorem test_medium_lines_clamp : nextIs (step (ready [0xF5, 0x10, 0x3A, 0xB9, 0x7F, 0x7F, 0xFF])) pixels
    [(314, 185, 0), (315, 186, 0), (316, 187, 0), (317, 187, 0), (318, 188, 0), (319, 189, 0)] = true := by decide
/-- V-LINE-2. -/
theorem test_short_lines : nextIs (step (ready [0xF7, 0, 10, 10, 0x12, 0x9A, 0xFF])) pixels
    [(10, 10, 0), (10, 11, 0), (11, 11, 0), (11, 12, 0)] = true := by decide
/-- V-LINE-12: disabled, nothing is drawn or raised. -/
theorem test_short_lines_disabled : nextIs (step (dark [0xF7, 0, 1, 1, 0x99, 0x99, 0xFF])) (fun t => (t.fault, t.pos, t.fb))
    (.noFault, 8, []) = true := by decide

/-! ### The fill -/

/-- V-FILL-11's `F8`: a one-cell region in the corner. -/
theorem test_flood_fill : nextIs (step { ready [0xF8, 0x10, 0x3F, 0xBD, 0xFF] with
    fb := [(60478, 0), (60479, 0), (60798, 0)] }) (fun t => t.fb) [(60478, 0), (60479, 0), (60798, 0), (60799, 0)] = true := by
  decide
/-- V-FAULT-16: the seed of S3 as printed is outside the canvas. -/
theorem test_flood_fill_fault : nextIs (step (ready [0xF8, 1, 1, 1, 0xFF])) (fun t => (t.fault, t.pos)) (.outOfBounds, 6) = true := by
  decide

/-! ### Patterns -/

/-- V-PAT-5 and R121. -/
theorem test_set_pattern : nextIs (step (ready [0xF9, 0xFF])) (fun t => (t.patternFlags, t.pos)) (0xFF, 4) = true ∧
    nextIs (step (ready [0xF9])) State.fault .unexpectedEnd = true := by decide
/-- P5. -/
theorem test_long_patterns : nextIs (step (ready [0xFA, 0, 5, 5, 0, 7, 5, 0xF4])) pixels [(5, 5, 0), (7, 5, 0)] = true := by
  decide
/-- P5. -/
theorem test_short_patterns : nextIs (step (ready [0xF4, 0, 50, 50, 0x20, 0x02, 0xFD])) pixels
    [(50, 50, 0), (52, 50, 0), (52, 52, 0)] = true := by decide
/-- P5. -/
theorem test_medium_patterns : nextIs (step (ready [0xFD, 0, 5, 15, 0x03, 0xFE, 0xFF])) pixels
    [(5, 15, 0), (3, 18, 0)] = true := by decide
/-- P6: with drawing disabled the textured payload is decoded, and its `FF` after a selector is a delta. -/
theorem test_short_patterns_textured : nextIs (step { dark [0xF4, 2, 0, 1, 1, 4, 0xFF, 0xFF] with patternFlags := 0x25 })
    (fun t => (t.pos, t.status, t.fb)) (9, .running, []) = true := by decide
/-- V-PAT-6: a selector, then the coordinate is cut short. -/
theorem test_long_patterns_cut : nextIs (step { ready [0xFA, 0x10, 0, 5] with patternFlags := 0x20 })
    (fun t => (t.fault, t.pos)) (.unexpectedEnd, 6) = true := by decide

/-- R131, D29: the texture 1010 0000 ..., most significant bit first; R126: the selector's bit 0 is not used. -/
theorem test_texture_bits : texBit sample.pattern 0 = true ∧ texBit sample.pattern 1 = false ∧
    texBit sample.pattern 2 = true ∧ texBit sample.pattern 7 = false ∧
    textureStart sample.pattern 0x02 = 1 ∧ textureStart sample.pattern 0x03 = 1 ∧ textureStart sample.pattern 0xFF = 2 := by decide
/-- R128: one texture bit for each pixel, plotted or not; R129: the offsets of a rectangle of two
pixels, the configured one first. -/
theorem test_textured_pixels : footprint sample.pattern 5 true = [⟨0, 0⟩, ⟨-1, 0⟩] ∧
    texturedPixels sample.pattern [⟨-1, 0⟩, ⟨0, 0⟩] 1 = [⟨0, 0⟩] ∧
    texturedPixels sample.pattern [⟨-1, 0⟩, ⟨0, 0⟩] 253 = [⟨0, 0⟩] := by decide
/-- R128: a size-0 circle is plotted where its texture bit is 1 and not where it is 0. -/
theorem test_textured_stamps : nextIs (step { ready [0xFA, 0x00, 0, 5, 5, 0x02, 0, 7, 5, 0xFF] with patternFlags := 0x20 }) pixels
    [(5, 5, 0)] = true := by decide
/-- R130: at (0,7) the rectangle would leave the canvas, and the configured clamp moves it one column to the right. -/
theorem test_rectangle_clamped : nextIs (step { ready [0xFA, 0, 0, 7, 0xFF] with patternFlags := 0x12 }) pixels
    [(0, 7, 0), (1, 7, 0)] = true := by decide +kernel
/-- R20, R180, R183: the configured default palette in all four banks, entry 0 the pen (0,0). -/
theorem test_host_configure : (hostLoad sample []).pal[(0 : Fin 160)] = 0x00 ∧ (hostLoad sample []).pal[(39 : Fin 160)] = 0x88 ∧
    (hostLoad sample []).pal[(40 : Fin 160)] = 0x00 ∧ (hostLoad sample []).pal[(121 : Fin 160)] = 0x88 := by decide +kernel

/-! ### The assembler -/

/-- P2's `longLines` begins and P3's deltas, assembled as R65 says; R66's refusal of `dx = -7` as an element. -/
theorem test_assemble : assemble (.mediumRelativeLines ⟨2, 2⟩ [(-5, -5), (3, 0)]) =
      some [0xF5, 0x00, 0x02, 0x02, 0x85, 0xFB, 0x00, 0x03] ∧
    assemble (.shortRelativeLines ⟨317, 187⟩ [(2, 2), (-6, 0)]) = some [0xF7, 0x10, 0x3D, 0xBB, 0x22, 0xE0] ∧
    assemble (.shortRelativeLines ⟨0, 0⟩ [(-7, 0)]) = none ∧
    assemble (.shortRelativePatterns (some 2) ⟨1, 1⟩ [(some 4, -7, -7)]) =
      some [0xF4, 0x02, 0x00, 0x01, 0x01, 0x04, 0xFF] := by decide

/-! ### Witnesses: the hypotheses of each statement are met -/

theorem witness_decodeOfEncode : Instr.wellFormed (.extUnknown407F 0x7F) = true ∧
    (Instr.extUnknown407F 0x7F = .extendedCommand → ([0xFF] : List Byte) = []) := by decide
theorem witness_decodeReadsTheOpcodeBytes : decode [0xFE, 0x0B, 0x00] = .ok (.extUnknown0A0B 0x0B, 2) ∧
    ([0x12] : List Byte) ≠ [] := by decide
theorem witness_absoluteCoordinateCodec : StreamHas (ready [0xFF, 0xFF, 0xFF]) [0xFF, 0xFF, 0xFF] ∧ 4095 ≤ 4095 ∧
    0xF0 ≤ (0xFF : Byte).toNat ∧ (ready [0xFF, 0xFF, 0xFF]).prog.length = (ready [0xFF, 0xFF, 0xFF]).pos + 3 :=
  ⟨⟨[], by decide⟩, Nat.le_refl _, by decide, rfl⟩
theorem witness_shortDeltaCodec : (-7 : Int) ≤ -7 ∧ (-7 : Int) ≤ 7 ∧ (-7 : Int) ≤ 7 ∧ (7 : Int) ≤ 7 := by decide
theorem witness_mediumDeltaCodec : (-128 : Int) ≤ -128 ∧ (-128 : Int) ≤ 127 ∧ (-127 : Int) ≤ 127 ∧ (127 : Int) ≤ 127 := by
  decide
theorem witness_resetState : onCanvas ⟨319, 189⟩ = true ∧ onCanvas ⟨0, 0⟩ = true ∧ onCanvas ⟨320, 0⟩ = false := by decide
theorem witness_stepKeepsInvariant : (ready [0xF1]).Inv ∧ ∃ t, step (ready [0xF1]) = .next t :=
  ⟨⟨by decide, by decide, by decide⟩, _, rfl⟩
theorem witness_headerCheckStep_passes : (hostLoad sample [0x81, 0x00]).status = .running ∧ (hostLoad sample [0x81, 0x00]).pos = 0 ∧
    ∃ rest, (hostLoad sample [0x81, 0x00]).prog = 0x81 :: 0x00 :: rest := ⟨rfl, rfl, [], rfl⟩
theorem witness_headerCheckStep_fails : (hostLoad sample [0x81]).status = .running ∧ (hostLoad sample [0x81]).pos = 0 ∧
    ¬ ∃ rest, (hostLoad sample [0x81]).prog = 0x81 :: 0x00 :: rest := ⟨rfl, rfl, by simp [hostLoad, hostWriteStream, assertReset]⟩
theorem witness_stepRunsDecodedInstruction : (ready [0xFE, 0x00]).status = .running ∧ (ready [0xFE, 0x00]).pos ≠ 0 ∧
    decode ((ready [0xFE, 0x00]).prog.drop (ready [0xFE, 0x00]).pos) = .ok (.setPaletteEntries, 2) := by decide
theorem witness_stepWithoutCommand : ((ready []).status = .running ∧ (ready []).pos ≠ 0 ∧
    (ready []).prog.length ≤ (ready []).pos) ∧ ({ ready [] with status := .faulted } : State).status ≠ .running := by decide
theorem witness_streamIsReadForward : (ready [0xF3]).pos ≤ (ready [0xF3]).prog.length ∧
    ∃ t, step (ready [0xF3]) = .next t := ⟨by decide, _, rfl⟩
theorem witness_locksPersist : (writeEntry 5 0x12 (ready [0xF3])).locked[(5 : Fin 40)] = true ∧
    ∃ t, step (writeEntry 5 0x12 (ready [0xF3])) = .next t := ⟨by decide, _, rfl⟩
theorem witness_accessMatrix : ∃ t, exec .setPattern (ready [0x25]) = .next t ∧
    t.patternFlags ≠ (ready [0x25]).patternFlags := ⟨_, rfl, by decide⟩
theorem witness_canonicalFramebufferIsUnique : Memory.wf [(0, 3), (60799, 0)] = true ∧
    ∀ a, fbGet a [(0, 3), (60799, 0)] = fbGet a (fbPut 0 3 (fbPut 60799 0 [])) := ⟨by decide, fun _ => rfl⟩
theorem witness_hostReadsTheResult : (ready []).status ≠ .halted ∧
    ({ ready [] with status := .halted } : State).status = .halted ∧ onCanvas ⟨319, 189⟩ = true := by decide
theorem witness_hostReadsTheResult_run :
    SuccessfulRun sample [0x81, 0x00, 0xFF] { hostLoad sample [0x81, 0x00, 0xFF] with pos := 3, status := .halted } :=
  ⟨2, rfl, rfl⟩
theorem witness_setVisualColorRule : (ready [0x00]).prog[(ready [0x00]).pos]? = some 0x00 ∧
    (ready [0x9F]).prog[(ready [0x9F]).pos]? = some 0x9F ∧ (0x9F : Byte).toNat < 160 ∧
    160 ≤ (0xA0 : Byte).toNat ∧ (ready [0xA0]).prog[(ready [0xA0]).pos]? = some 0xA0 ∧
    (ready []).prog.length ≤ (ready []).pos := by decide
theorem witness_ignoredColourByte : (ready [0xFF]).pos < (ready [0xFF]).prog.length ∧
    (ready []).prog.length ≤ (ready []).pos := by decide
theorem witness_unknownOpcodeFaults : (ready [0xEF]).status = .running ∧ (ready [0xEF]).pos ≠ 0 ∧
    (ready [0xEF]).prog[(ready [0xEF]).pos]? = some 0xEF ∧ (0xEF : Byte).toNat < 0xF0 ∧ 0xF0 ≤ (0xF0 : Byte).toNat := by decide
theorem witness_unknownExtendedOpcodeFaults : (ready [0xFE, 0x09]).status = .running ∧ (ready [0xFE, 0x09]).pos ≠ 0 ∧
    StreamHas (ready [0xFE, 0x09]) [0xFE, 0x09] ∧ 0x09 ≤ (0x09 : Byte).toNat :=
  ⟨rfl, by decide, ⟨[], rfl⟩, by decide⟩
theorem witness_extendedCommandDispatch : (ready [0x00]).prog[(ready [0x00]).pos]? = some 0x00 ∧
    (ready [0x01]).prog[(ready [0x01]).pos]? = some 0x01 ∧ (ready [0x02]).prog[(ready [0x02]).pos]? = some 0x02 ∧
    (ready [0x08]).prog[(ready [0x08]).pos]? = some 0x08 ∧ (ready [0x09]).prog[(ready [0x09]).pos]? = some 0x09 ∧
    (ready []).prog.length ≤ (ready []).pos := by decide
theorem witness_skippedPayload : (ready [0x08, 0x11, 0xF0]).prog[(ready [0x08, 0x11, 0xF0]).pos]? = some 0x08 ∧
    0x02 ≤ (0x08 : Byte).toNat ∧ (0x08 : Byte).toNat ≤ 0x08 := by decide
theorem witness_setPaletteEntriesWrites : PayloadIs (ready [0x9F, 0x12, 0x9F, 0x34, 0xF0]) (entryBytes [(159, 0x12), (159, 0x34)]) :=
  ⟨[0xF0], by decide, by simp [endsBefore, cmdMin]⟩
theorem witness_setEntirePaletteWrites :
    StreamHas (ready (0x03 :: List.replicate 40 0x77)) (BitVec.ofNat 8 (3 : Fin 4).val :: (Vector.replicate 40 0x77).toList) :=
  ⟨[], by decide⟩
theorem witness_paletteCommandFaults :
    StreamHas (ready [0x05, 0x12, 0xA0, 0x00]) (entryBytes [(5, 0x12)] ++ [0xA0, 0x00]) ∧
    160 ≤ (0xA0 : Byte).toNat ∧ (0xEF : Byte).toNat < 240 ∧
    (ready [0x05, 0x12, 0xA0]).prog.drop (ready [0x05, 0x12, 0xA0]).pos = entryBytes [(5, 0x12)] ++ [0xA0] ∧
    (ready [0x04]).prog[(ready [0x04]).pos]? = some 0x04 ∧ 4 ≤ (0x04 : Byte).toNat ∧
    (ready [0x03, 0x77]).prog.drop (ready [0x03, 0x77]).pos = BitVec.ofNat 8 (3 : Fin 4).val :: [0x77] ∧
    (ready []).prog.length ≤ (ready []).pos :=
  ⟨⟨[], by decide⟩, by decide, by decide, by decide, by decide, by decide, by decide, by decide⟩
theorem witness_effectiveColour : (0 : Ega) ≠ 15 := by decide
theorem witness_paintedCells : Memory.wf [(5, 0)] = true ∧ (∀ p ∈ [(⟨319, 189⟩ : Point), ⟨0, 0⟩], onCanvas p = true) ∧
    onCanvas ⟨1, 0⟩ = true ∧ (⟨1, 0⟩ : Point) ∉ [(⟨319, 189⟩ : Point), ⟨0, 0⟩] := by decide
theorem witness_lineStepsAndBox : 1 ≤ max ((5 : Int) - 0).natAbs ((2 : Int) - 0).natAbs ∧
    (linePixels ⟨0, 0⟩ ⟨5, 2⟩)[3]? = some ⟨3, 1⟩ := by decide
theorem witness_straightLines : (-1 : Int) ∈ [(-1 : Int), 0, 1] ∧ (1 : Int) ∈ [(-1 : Int), 0, 1] ∧ ((-1 : Int) ≠ 0 ∨ (1 : Int) ≠ 0) := by
  decide
theorem witness_longLinesDraw : (ready [0, 0, 0, 0, 4, 0, 0xFF]).visualEnabled = true ∧
    (ready [0, 0, 0, 0, 4, 0, 0xFF]).pen = some ⟨0, 0⟩ ∧ Encodable ⟨0, 0⟩ ∧
    (∀ q ∈ [(⟨4, 0⟩ : Point)], Encodable q ∧ StartsElement (encodeAbs q)) ∧
    PayloadIs (ready [0, 0, 0, 0, 4, 0, 0xFF]) (encodeAbs ⟨0, 0⟩ ++ [(⟨4, 0⟩ : Point)].flatMap encodeAbs) ∧
    ∀ r ∈ pathPixels ⟨0, 0⟩ [⟨4, 0⟩], onCanvas r = true :=
  ⟨rfl, rfl, by simp [Encodable], by simp only [List.mem_singleton]; rintro q rfl; exact ⟨by simp [Encodable], _, _, rfl, by decide⟩,
    ⟨[0xFF], by decide, by simp [endsBefore, cmdMin]⟩, by decide⟩
theorem witness_mediumRelativeLinesDraw : (ready [0, 2, 2, 0x85, 0xFB]).visualEnabled = true ∧
    (ready [0, 2, 2, 0x85, 0xFB]).pen = some ⟨0, 0⟩ ∧ Encodable ⟨2, 2⟩ ∧
    (∀ d ∈ [((0x85, 0xFB) : Byte × Byte)], d.1.toNat < 0xF0) ∧
    PayloadIs (ready [0, 2, 2, 0x85, 0xFB]) (encodeAbs ⟨2, 2⟩ ++ [((0x85, 0xFB) : Byte × Byte)].flatMap fun d => [d.1, d.2]) ∧
    ∀ r ∈ pathPixels ⟨2, 2⟩ (mediumWalk ⟨2, 2⟩ [(0x85, 0xFB)]), onCanvas r = true :=
  ⟨rfl, rfl, by simp [Encodable], by simp, ⟨[], by decide, by simp [endsBefore]⟩, by decide⟩
theorem witness_shortRelativeLinesDraw : (ready [0, 10, 10, 0x12, 0x9A]).visualEnabled = true ∧
    (ready [0, 10, 10, 0x12, 0x9A]).pen = some ⟨0, 0⟩ ∧ Encodable ⟨10, 10⟩ ∧
    (∀ b ∈ [(0x12 : Byte), 0x9A], b.toNat < 0xF0) ∧
    PayloadIs (ready [0, 10, 10, 0x12, 0x9A]) (encodeAbs ⟨10, 10⟩ ++ [0x12, 0x9A]) ∧
    ∀ r ∈ pathPixels ⟨10, 10⟩ (shortWalk ⟨10, 10⟩ [0x12, 0x9A]), onCanvas r = true :=
  ⟨rfl, rfl, by simp [Encodable], by decide, ⟨[], by decide, by simp [endsBefore]⟩, by decide⟩
theorem witness_linesAndPatternsFrame : (∃ t, exec .longLines (ready [0, 0, 0]) = .next t) ∧
    (∃ t, exec .mediumRelativeLines (ready [0, 0, 0]) = .next t) ∧ (∃ t, exec .shortRelativeLines (ready [0, 0, 0]) = .next t) ∧
    (∃ t, exec .longPatterns (ready [0, 0, 0]) = .next t) ∧ (∃ t, exec .shortRelativePatterns (ready [0, 0, 0]) = .next t) ∧
    ∃ t, exec .mediumRelativePatterns (ready [0, 0, 0]) = .next t :=
  ⟨⟨_, rfl⟩, ⟨_, rfl⟩, ⟨_, rfl⟩, ⟨_, rfl⟩, ⟨_, rfl⟩, ⟨_, rfl⟩⟩
theorem witness_drawingFaults_line : (ready []).visualEnabled = true ∧ (ready []).pen = some ⟨0, 0⟩ ∧
    linePixels ⟨318, 0⟩ ⟨322, 0⟩ = [⟨318, 0⟩, ⟨319, 0⟩] ++ ⟨320, 0⟩ :: [⟨321, 0⟩, ⟨322, 0⟩] ∧
    (∀ x ∈ [(⟨318, 0⟩ : Point), ⟨319, 0⟩], onCanvas x = true) ∧ onCanvas ⟨320, 0⟩ = false := by decide
theorem witness_drawingFaults_pen : (noPen [0, 0, 0, 0, 4, 0]).visualEnabled = true ∧ (noPen [0, 0, 0, 0, 4, 0]).pen = none ∧
    Encodable ⟨0, 0⟩ ∧ Encodable ⟨4, 0⟩ ∧ StartsElement (encodeAbs ⟨4, 0⟩) ∧
    StreamHas (noPen [0, 0, 0, 0, 4, 0]) (encodeAbs ⟨0, 0⟩ ++ encodeAbs ⟨4, 0⟩) ∧
    StreamHas (noPen [0, 0, 0, 0, 4, 0]) (encodeAbs ⟨0, 0⟩) ∧ usesTexture (noPen []).patternFlags = false ∧
    isRectangle (noPen []).patternFlags = false ∧ patternSize (noPen []).patternFlags = 0 :=
  ⟨rfl, rfl, by simp [Encodable], by simp [Encodable], ⟨_, _, rfl, by decide⟩, ⟨[], by decide⟩, ⟨[0, 4, 0], by decide⟩,
    by decide, by decide, by decide⟩
theorem witness_disabledDrawing : (dark [0, 0, 0, 0]).visualEnabled = false ∧ (ready [0, 0, 0]).status = .running ∧
    ∃ t, exec .longLines (ready [0, 0, 0]) = .next t ∧ t.status = .running := ⟨rfl, rfl, _, rfl, rfl⟩

theorem witness_drawingFaults_longLines : Encodable ⟨316, 0⟩ ∧
    (∀ x ∈ ([⟨318, 0⟩] ++ [⟨322, 0⟩] : List Point), Encodable x ∧ StartsElement (encodeAbs x)) ∧
    StreamHas (ready [0x10, 0x3C, 0, 0x10, 0x3E, 0, 0x10, 0x42, 0])
      (encodeAbs ⟨316, 0⟩ ++ ([⟨318, 0⟩] ++ [⟨322, 0⟩] : List Point).flatMap encodeAbs) ∧
    (∀ r ∈ pathPixels ⟨316, 0⟩ [⟨318, 0⟩], onCanvas r = true) ∧
    FirstOutside (linePixels (List.getLastD [(⟨318, 0⟩ : Point)] ⟨316, 0⟩) ⟨322, 0⟩) [⟨318, 0⟩, ⟨319, 0⟩] := by
  refine ⟨by simp [Encodable], ?_, ⟨[], by decide⟩, by decide, ⟨320, 0⟩, [⟨321, 0⟩, ⟨322, 0⟩], by decide, by decide, by decide⟩
  simp only [List.cons_append, List.nil_append, List.mem_cons, List.not_mem_nil, or_false]
  rintro x (rfl | rfl) <;> exact ⟨by simp [Encodable], _, _, rfl, by decide⟩
theorem witness_drawingFaults_mediumRelativeLines : Encodable ⟨322, 0⟩ ∧
    (∀ e ∈ ([] : List (Byte × Byte)) ++ [(0x00, 0xFB)], e.1.toNat < 0xF0) ∧
    StreamHas (ready [0x10, 0x42, 0, 0x00, 0xFB])
      (encodeAbs ⟨322, 0⟩ ++ (([] : List (Byte × Byte)) ++ [((0x00, 0xFB) : Byte × Byte)]).flatMap fun e : Byte × Byte => [e.1, e.2]) ∧
    FirstOutside (linePixels ⟨322, 0⟩ (mediumStep 0x00 0xFB ⟨322, 0⟩)) [] :=
  ⟨by simp [Encodable], by simp, ⟨[], by decide⟩, ⟨322, 0⟩, (linePixels ⟨322, 0⟩ ⟨317, 0⟩).tail, by decide, by simp, by decide⟩
theorem witness_drawingFaults_shortRelativeLines : (∀ e ∈ [(0x10 : Byte)] ++ [0x40], e.toNat < 0xF0) ∧
    StreamHas (ready [0x10, 0x3C, 0, 0x10, 0x40]) (encodeAbs ⟨316, 0⟩ ++ ([0x10] ++ [0x40])) ∧
    (∀ r ∈ pathPixels ⟨316, 0⟩ (shortWalk ⟨316, 0⟩ [0x10]), onCanvas r = true) ∧
    FirstOutside (linePixels ((shortWalk ⟨316, 0⟩ [0x10]).getLastD ⟨316, 0⟩)
      (shortStep 0x40 ((shortWalk ⟨316, 0⟩ [0x10]).getLastD ⟨316, 0⟩))) [⟨317, 0⟩, ⟨318, 0⟩, ⟨319, 0⟩] :=
  ⟨by decide, ⟨[], by decide⟩, by decide, ⟨320, 0⟩, [⟨321, 0⟩], by decide, by decide, by decide⟩
theorem witness_drawingFaults_seed : Encodable ⟨320, 0⟩ ∧ StartsElement (encodeAbs ⟨320, 0⟩) ∧
    StreamHas (ready [0x10, 0x40, 0]) (encodeAbs ⟨320, 0⟩) ∧ onCanvas ⟨320, 0⟩ = false ∧ (ready []).pen ≠ none :=
  ⟨by simp [Encodable], ⟨_, _, rfl, by decide⟩, ⟨[], by decide⟩, by decide, by decide⟩
theorem witness_drawingFaults_pen_relative : (0x12 : Byte).toNat < 0xF0 ∧
    StreamHas (noPen [0, 0, 0, 0x12, 0xFF]) (encodeAbs ⟨0, 0⟩ ++ [0x12, 0xFF]) ∧
    StreamHas (noPen [0, 0, 0, 0x12]) (encodeAbs ⟨0, 0⟩ ++ [0x12]) :=
  ⟨by decide, ⟨[], by decide⟩, ⟨[], by decide⟩⟩

theorem witness_drawingCutShort_fixed : (ready [0, 5]).prog.drop (ready [0, 5]).pos = [0, 5] ∧ CutElement [0, 5] 3 ∧
    ([0x10, 0, 5] : List Byte).length < 3 + selectorBytes 0x20 :=
  ⟨by decide, ⟨⟨_, _, rfl, by decide⟩, by decide⟩, by decide⟩
theorem witness_drawingCutShort_lines : (ready [0, 0, 0, 0, 4, 0, 0, 4]).prog.drop 2 =
      encodeAbs ⟨0, 0⟩ ++ [(⟨4, 0⟩ : Point)].flatMap encodeAbs ++ [0, 4] ∧
    (∀ q ∈ [(⟨4, 0⟩ : Point)], Encodable q ∧ StartsElement (encodeAbs q)) ∧ Encodable ⟨0, 0⟩ ∧
    (∀ r ∈ pathPixels ⟨0, 0⟩ [⟨4, 0⟩], onCanvas r = true) ∧
    (ready [0, 2, 2, 0x85, 0xFB, 0x01]).prog.drop 2 =
      encodeAbs ⟨2, 2⟩ ++ ([((0x85, 0xFB) : Byte × Byte)].flatMap fun d => [d.1, d.2]) ++ [0x01] ∧ CutElement [0x01] 2 := by
  refine ⟨by decide, ?_, by simp [Encodable], by decide, by decide, ⟨_, _, rfl, by decide⟩, by decide⟩
  simp only [List.mem_singleton]
  rintro q rfl
  exact ⟨by simp [Encodable], _, _, rfl, by decide⟩
theorem witness_drawingCutShort_patterns :
    (∀ e ∈ [((some 2, ⟨1, 1⟩) : Option Byte × Point)], e.1.isSome = usesTexture 0x20 ∧ Encodable e.2 ∧
      StartsElement (e.1.toList ++ encodeAbs e.2)) ∧
    (ready [2, 0, 1, 1, 4, 0, 1]).prog.drop 2 =
      ([((some 2, ⟨1, 1⟩) : Option Byte × Point)].flatMap fun e => e.1.toList ++ encodeAbs e.2) ++ [4, 0, 1] ∧
    CutElement [4, 0, 1] (3 + selectorBytes 0x20) ∧
    (ready [2, 0, 1, 1, 4, 0xFF, 6]).prog.drop 2 = (some (2 : Byte)).toList ++ encodeAbs ⟨1, 1⟩ ++
      ([((some 4, 0xFF) : Option Byte × Byte)].flatMap fun e => e.1.toList ++ [e.2]) ++ [6] ∧
    CutElement [6] (1 + selectorBytes 0x20) ∧
    (ready [2, 0, 1, 1, 4, 0xFF, 0x01, 6, 0xFF]).prog.drop 2 = (some (2 : Byte)).toList ++ encodeAbs ⟨1, 1⟩ ++
      ([((some 4, 0xFF, 0x01) : Option Byte × Byte × Byte)].flatMap fun e => e.1.toList ++ [e.2.1, e.2.2]) ++ [6, 0xFF] ∧
    CutElement [6, 0xFF] (2 + selectorBytes 0x20) := by
  refine ⟨?_, by decide, ⟨⟨_, _, rfl, by decide⟩, by decide⟩, by decide, ⟨⟨_, _, rfl, by decide⟩, by decide⟩, by decide,
    ⟨_, _, rfl, by decide⟩, by decide⟩
  simp only [List.mem_singleton]
  rintro e rfl
  exact ⟨by decide, by simp [Encodable], _, _, rfl, by decide⟩

/-- A framebuffer whose corner pixel (319,189) is walled in (V-FILL-11). -/
def corner : State := { ready [0x10, 0x3F, 0xBD] with fb := [(60478, 0), (60479, 0), (60798, 0)] }

/-- The region of the walled-in corner is the one cell. -/
theorem corner_region (q : Point) (h : Region corner.fb ⟨319, 189⟩ q) : q ∈ [(⟨319, 189⟩ : Point)] := by
  induction h with
  | start _ _ => simp
  | step p q _ hq hc hb ih =>
    rw [List.mem_singleton] at ih
    subst ih
    obtain ⟨x, y⟩ := q
    simp only [UnitStep] at hq
    rcases hq with ⟨rfl, rfl⟩ | ⟨rfl, rfl⟩ | ⟨rfl, rfl⟩ | ⟨rfl, rfl⟩
    · exact absurd hc (by decide)
    · exact absurd hb (by decide)
    · exact absurd hc (by decide)
    · exact absurd hb (by decide)

theorem witness_fillPaintsTheRegion : corner.visualEnabled = true ∧ corner.pen = some ⟨0, 0⟩ ∧ Memory.wf corner.fb = true ∧
    (∃ t, floodFill ⟨319, 189⟩ corner = .done () t) ∧ Region corner.fb ⟨319, 189⟩ ⟨319, 189⟩ ∧
    ∃ t, floodFill ⟨320, 0⟩ corner = .raised t :=
  ⟨rfl, rfl, by decide, ⟨_, rfl⟩, .start (by decide) (by decide), ⟨_, rfl⟩⟩
theorem witness_fillChecks : (dark []).visualEnabled = false ∧ (noPen []).visualEnabled = true ∧ (noPen []).pen = none ∧
    corner.pen ≠ none ∧ onCanvas ⟨320, 0⟩ = false ∧ onCanvas ⟨318, 189⟩ = true ∧
    fbGet (address ⟨318, 189⟩) corner.fb ≠ 0xF ∧ fbGet (address ⟨0, 0⟩) corner.fb = 0xF ∧
    (⟨0, 0⟩ : Point) ∉ [(⟨1, 0⟩ : Point)] := by decide
theorem witness_fillChecks_bound : (List.replicate 32767 (⟨1, 0⟩ : Point)).length < 32768 ∧
    32768 ≤ (List.replicate 32768 (⟨1, 0⟩ : Point)).length := by
  rw [List.length_replicate, List.length_replicate]
  decide
theorem witness_fillChecks_overflow : onCanvas ⟨0, 0⟩ = true ∧
    pushSites (fbPut (address ⟨0, 0⟩) (eff ⟨0, 0⟩ ⟨0, 0⟩) []) (neighbours ⟨0, 0⟩) [] (List.replicate 32768 ⟨5, 5⟩) = none := by
  refine ⟨by decide, ?_⟩
  rw [show neighbours ⟨0, 0⟩ = ⟨1, 0⟩ :: (neighbours ⟨0, 0⟩).tail from rfl, pushSites, if_pos (by decide), if_pos]
  rw [List.length_cons, List.length_replicate]
  decide
theorem witness_fillChecks_turn : onCanvas ⟨319, 189⟩ = true ∧ fbGet (address ⟨319, 189⟩) corner.fb = 0xF ∧
    pushSites (fbPut (address ⟨319, 189⟩) 0 corner.fb) (neighbours ⟨319, 189⟩) [⟨319, 189⟩] [] = some ([⟨319, 189⟩], []) := by decide
theorem witness_smallFillCompletes : corner.visualEnabled = true ∧ corner.pen = some ⟨0, 0⟩ ∧ Memory.wf corner.fb = true ∧
    onCanvas ⟨319, 189⟩ = true ∧ (∀ q, Region corner.fb ⟨319, 189⟩ q → q ∈ [(⟨319, 189⟩ : Point)]) ∧
    [(⟨319, 189⟩ : Point)].length ≤ 32768 :=
  ⟨rfl, rfl, by decide, by decide, corner_region, by decide⟩
theorem witness_floodFillOneSeed : PayloadIs corner (encodeAbs ⟨319, 189⟩) := ⟨[], by decide, by simp [endsBefore]⟩
theorem witness_floodFillSeedsInTurn : nextIsCommand (ready [0xF0]) = true ∧ StreamHas corner [0x10, 0x3F, 0xBD] ∧
    (0x10 : Byte).toNat < 0xF0 := ⟨by decide, ⟨[], by decide⟩, by decide⟩
theorem witness_floodFillFrame : (∃ t, exec .floodFill corner = .next t) ∧ fbGet 60798 corner.fb ≠ 0xF := ⟨⟨_, rfl⟩, by decide⟩
theorem witness_setPatternRule : (ready [0xFF]).prog[(ready [0xFF]).pos]? = some 0xFF ∧
    (ready []).prog.length ≤ (ready []).pos := by decide
theorem witness_stampPlacement : (⟨5, 5⟩ : Point) ∈ stampPixels sample.pattern none 0x00 ⟨5, 5⟩ ∧ patternSize 0xC8 = 0 ∧
    isRectangle 0xC8 = false ∧ onCanvas ⟨319, 189⟩ = true := by decide
theorem witness_stampPlacement_clamp : (∀ o ∈ footprint sample.pattern 1 true,
      onCanvas (Point.plus (clampTo (configuredClamp sample.pattern 1 true) ⟨0, 7⟩) o) = true) ∧
    ¬ ((1 : Fin 8) = 0 ∧ true = false ∧ onCanvas ⟨0, 7⟩ = true) := by decide +kernel
theorem witness_stampPlacement_order : [((11, 10) : Fin 320 × Fin 190), (10, 10)].Nodup ∧
    ∀ e, e ∈ [((11, 10) : Fin 320 × Fin 190), (10, 10)] ↔
      inRectangle ⟨(10, 10), (11, 10), [(11, 10), (10, 10)], ⟨11, 10⟩, ⟨.x, .y⟩⟩ e = true := by
  refine ⟨by decide, fun e => ?_⟩
  obtain ⟨a, b⟩ := e
  simp only [inRectangle, between, List.mem_cons, List.not_mem_nil, or_false, Prod.mk.injEq, Bool.and_eq_true, decide_eq_true_eq,
    Fin.le_def, Fin.ext_iff]
  simp
  omega
theorem witness_stampPlacement_anyClamp (p : Point) (hp : onCanvas p = true) : clampStamp sample.pattern 0 false p = p := by
  simp [clampStamp, isDot, hp]
theorem witness_longPatternsDraw : (ready [0, 5, 5, 0, 7, 5]).visualEnabled = true ∧
    (∀ e ∈ [((none, ⟨5, 5⟩) : Option Byte × Point), (none, ⟨7, 5⟩)],
      e.1.isSome = usesTexture (ready [0, 5, 5, 0, 7, 5]).patternFlags ∧ Encodable e.2 ∧
        StartsElement (e.1.toList ++ encodeAbs e.2)) ∧
    PayloadIs (ready [0, 5, 5, 0, 7, 5])
      ([((none, ⟨5, 5⟩) : Option Byte × Point), (none, ⟨7, 5⟩)].flatMap fun e => e.1.toList ++ encodeAbs e.2) := by
  refine ⟨rfl, ?_, [], by decide, by simp [endsBefore]⟩
  simp only [List.mem_cons, List.not_mem_nil, or_false]
  rintro e (rfl | rfl) <;> exact ⟨by decide, by simp [Encodable], _, _, rfl, by decide⟩
theorem witness_shortRelativePatternsDraw : (some (2 : Byte)).isSome = usesTexture 0x25 ∧ Encodable ⟨1, 1⟩ ∧
    (∀ e ∈ [((some 4, 0xFF) : Option Byte × Byte)], e.1.isSome = usesTexture 0x25 ∧ StartsElement (e.1.toList ++ [e.2])) ∧
    PayloadIs { ready [2, 0, 1, 1, 4, 0xFF, 0xFF] with patternFlags := 0x25 }
      ((some (2 : Byte)).toList ++ encodeAbs ⟨1, 1⟩ ++
        [((some 4, 0xFF) : Option Byte × Byte)].flatMap fun e => e.1.toList ++ [e.2]) := by
  refine ⟨by decide, by simp [Encodable], ?_, [0xFF], by decide, by simp [endsBefore, cmdMin]⟩
  simp only [List.mem_singleton]
  rintro e rfl
  exact ⟨by decide, _, _, rfl, by decide⟩
theorem witness_mediumRelativePatternsDraw : (none : Option Byte).isSome = usesTexture 0x00 ∧ Encodable ⟨5, 15⟩ ∧
    (∀ e ∈ [((none, 0x03, 0xFE) : Option Byte × Byte × Byte)],
      e.1.isSome = usesTexture 0x00 ∧ StartsElement (e.1.toList ++ [e.2.1, e.2.2])) ∧
    PayloadIs (ready [0, 5, 15, 0x03, 0xFE, 0xFF])
      ((none : Option Byte).toList ++ encodeAbs ⟨5, 15⟩ ++
        [((none, 0x03, 0xFE) : Option Byte × Byte × Byte)].flatMap fun e => e.1.toList ++ [e.2.1, e.2.2]) := by
  refine ⟨by decide, by simp [Encodable], ?_, [0xFF], by decide, by simp [endsBefore, cmdMin]⟩
  simp only [List.mem_singleton]
  rintro e rfl
  exact ⟨by decide, _, _, rfl, by decide⟩
theorem witness_assembledLineIsOneCommand :
    assemble (.longPatterns [(some 2, ⟨1, 1⟩)]) = some [0xFA, 2, 0, 1, 1] ∧
    AsmLine.Runnable 0x20 (.longPatterns [(some 2, ⟨1, 1⟩)]) ∧
    PayloadIs { dark [0xFA, 2, 0, 1, 1, 0xFF] with patternFlags := 0x20 } [0xFA, 2, 0, 1, 1] ∧
    (dark [0xFA, 2, 0, 1, 1, 0xFF]).status = .running ∧ (dark [0xFA, 2, 0, 1, 1, 0xFF]).pos ≠ 0 ∧
    (dark [0xFA, 2, 0, 1, 1, 0xFF]).visualEnabled = false :=
  ⟨by decide, by simp [AsmLine.Runnable, usesTexture], ⟨[0xFF], by decide, by simp [endsBefore, cmdMin]⟩, rfl, by decide, rfl⟩

end Sys2Proof.Machine
end

section
/-! Proofs of the family spec/30_encoding.md: the next-is-command predicate and the absolute coordinate. -/

namespace Sys2Proof.Machine

/-! ### The next-is-command predicate (R55) -/

theorem nextIsCommand_of_length_le {s : State} (h : s.prog.length ≤ s.pos) : nextIsCommand s = true :=
  nextIsCommand_of_bytesLeft (Nat.sub_eq_zero_of_le h)

/-- Settles O4: past the end the predicate is true, and before it the byte at `pos` decides. -/
theorem nextIsCommandRule : Obligations.NextIsCommandRule := by
  intro s
  by_cases hlen : s.prog.length ≤ s.pos
  · exact iff_of_true (nextIsCommand_of_length_le hlen) (.inl hlen)
  · have hb : s.prog[s.pos]? = some (s.prog[s.pos]'(by omega)) := List.getElem?_eq_getElem _
    rw [nextIsCommand_of_some hb, decide_eq_true_iff, hb]
    simp [hlen, cmdMin]

/-! ### The two nibbles of a byte -/

@[simp] theorem toNat_hiNibble (b : Byte) : (hiNibble b).toNat = b.toNat / 16 := by
  have := b.isLt
  simp only [hiNibble, BitVec.extractLsb'_toNat, Nat.shiftRight_eq_div_pow]
  omega

@[simp] theorem toNat_loNibble (b : Byte) : (loNibble b).toNat = b.toNat % 16 := by
  simp [loNibble, BitVec.extractLsb'_toNat]

/-- Masking with `0xF0` clears the low four bits. -/
theorem byte_and_F0 (b : Byte) : b.toNat &&& 0xF0 = b.toNat / 16 * 16 := by
  have hhi : (b.toNat &&& 0xF0) / 2 ^ 4 = b.toNat / 2 ^ 4 := by
    rw [Nat.and_div_two_pow, show 0xF0 / 2 ^ 4 = 2 ^ 4 - 1 from rfl, Nat.and_two_pow_sub_one_eq_mod]
    exact Nat.mod_eq_of_lt (by have := b.isLt; omega)
  have hlo : (b.toNat &&& 0xF0) % 2 ^ 4 = 0 := by
    rw [Nat.and_mod_two_pow, show 0xF0 % 2 ^ 4 = 0 from rfl, Nat.and_zero]
  omega

/-- Masking with `0x0F` keeps the low four bits. -/
theorem byte_and_0F (b : Byte) : b.toNat &&& 0x0F = b.toNat % 16 :=
  Nat.and_two_pow_sub_one_eq_mod _ 4

/-! ### The absolute coordinate (R56) -/

@[simp] theorem absPoint_x (u lx ly : Byte) : (absPoint u lx ly).x = ((u.toNat / 16 * 256 + lx.toNat : Nat) : Int) := by
  simp [absPoint]

@[simp] theorem absPoint_y (u lx ly : Byte) : (absPoint u lx ly).y = ((u.toNat % 16 * 256 + ly.toNat : Nat) : Int) := by
  simp [absPoint]

/-- The source's formula for `x`: the two parts have no bit in common, so joining them is adding them. -/
theorem absPoint_x_eq_or (u lx ly : Byte) :
    (absPoint u lx ly).x = (((u.toNat &&& 0xF0) <<< 4 ||| lx.toNat : Nat) : Int) := by
  have hsum : (u.toNat / 16) <<< 8 + lx.toNat = (u.toNat / 16) <<< 8 ||| lx.toNat :=
    Nat.shiftLeft_add_eq_or_of_lt lx.isLt _
  have hshift : (u.toNat &&& 0xF0) <<< 4 = (u.toNat / 16) <<< 8 := by
    rw [byte_and_F0, Nat.shiftLeft_eq, Nat.shiftLeft_eq]
    omega
  rw [absPoint_x, hshift, ← hsum, Nat.shiftLeft_eq]

/-- The source's formula for `y`. -/
theorem absPoint_y_eq_or (u lx ly : Byte) :
    (absPoint u lx ly).y = (((u.toNat &&& 0x0F) <<< 8 ||| ly.toNat : Nat) : Int) := by
  have hsum : (u.toNat % 16) <<< 8 + ly.toNat = (u.toNat % 16) <<< 8 ||| ly.toNat :=
    Nat.shiftLeft_add_eq_or_of_lt ly.isLt _
  rw [absPoint_y, byte_and_0F, ← hsum, Nat.shiftLeft_eq]

theorem absPoint_encodable (u lx ly : Byte) : Encodable (absPoint u lx ly) := by
  have := u.isLt
  have := lx.isLt
  have := ly.isLt
  simp only [Encodable, absPoint_x, absPoint_y]
  omega

/-- Decoding the three bytes that `encodeAbs` gives a coordinate in range returns it. -/
theorem absPoint_encodeAbs {x y : Nat} (hx : x ≤ 4095) (hy : y ≤ 4095) :
    ∃ u lx ly, encodeAbs ⟨x, y⟩ = [u, lx, ly] ∧ absPoint u lx ly = ⟨x, y⟩ := by
  refine ⟨_, _, _, rfl, ?_⟩
  simp only [absPoint, toNat_hiNibble, toNat_loNibble, BitVec.toNat_ofNat, Int.toNat_natCast, Point.mk.injEq]
  omega

/-- `u >= 0xF0` is `x >= 3840`: the high nibble of `x` is all ones. -/
theorem absPoint_x_ge_iff (u lx ly : Byte) : 3840 ≤ (absPoint u lx ly).x ↔ 0xF0 ≤ u.toNat := by
  have := lx.isLt
  rw [absPoint_x]
  omega

/-! ### Where a coordinate with `u >= 0xF0` stands -/

theorem exec_floodFill_of_nextIsCommand {s : State} (h : nextIsCommand s = true) : exec .floodFill s = .next s :=
  congrArg Flow.outcome (whileElements_end (element := seed) h ())

theorem exec_longPatterns_of_nextIsCommand {s : State} (h : nextIsCommand s = true) : exec .longPatterns s = .next s :=
  congrArg Flow.outcome (whileElements_end (element := stampSeed) h ())

/-- The first coordinate of `longLines` is fetched without asking whether it begins with a command (R53): where the stream
ends after it, nothing is drawn. -/
theorem exec_longLines_of_first_only {s : State} {u lx ly : Byte} (h : StreamHas s [u, lx, ly])
    (hend : s.prog.length = s.pos + 3) : exec .longLines s = .next (s.setPos (s.pos + 3)) := by
  obtain ⟨rest, hdrop⟩ := h
  have hstop : nextIsCommand (s.setPos (s.pos + 3)) = true := nextIsCommand_of_length_le hend.le
  show (polyline nextAbs s).outcome = _
  simp only [polyline, fetchAbs_of_drop hdrop, Flow.bind_done, whileElements_end hstop, Flow.void_done, Flow.outcome_done]

/-- Settles O5, clause by clause from the lemmas above. -/
theorem absoluteCoordinateCodec : Obligations.AbsoluteCoordinateCodec := by
  refine ⟨?fetched, ?formulas, fun _ _ => absPoint_encodeAbs, absPoint_x_ge_iff, ?place⟩
  case fetched =>
    rintro s u lx ly ⟨rest, hdrop⟩
    exact fetchAbs_of_drop hdrop
  case formulas =>
    intro u lx ly
    exact ⟨absPoint_x_eq_or u lx ly, absPoint_y_eq_or u lx ly, absPoint_encodable u lx ly⟩
  case place =>
    intro s u lx ly h hu
    have hcmd : nextIsCommand s = true := by
      obtain ⟨rest, hdrop⟩ := h
      rw [nextIsCommand_of_some (drop_cons hdrop).1]
      exact decide_eq_true hu
    exact ⟨exec_floodFill_of_nextIsCommand hcmd, exec_longPatterns_of_nextIsCommand hcmd, exec_longLines_of_first_only h⟩

end Sys2Proof.Machine
end

section
/-! Proofs of the family spec/40_color_and_enable.md: the commands of the priority and control planes. -/

namespace Sys2Proof.Machine

/-! ### The ignored colour byte (R74, R76) -/

/-- The fetched byte is thrown away, so its value cannot matter: all that is left of the command is what `fetch` does. -/
theorem exec_ignoredColour {i : Instr} (hi : i = .setPriorityColor ∨ i = .setControlColor) (s : State) :
    exec i s = (fetch s).outcome := by
  rcases hi with rfl | rfl
  · exact Flow.outcome_void (fetch s)
  · exact Flow.outcome_void (fetch s)

/-- Settles O24: `fetch` has a byte or is at the end of the stream, and each clause's premise excludes the other case. -/
theorem ignoredColourByte : Obligations.IgnoredColourByte := by
  intro i hi s
  rw [exec_ignoredColour hi]
  rcases fetch_cases s with ⟨b, hlt, -, hfetch⟩ | ⟨hend, hfetch⟩
  · rw [hfetch]
    exact ⟨fun _ => rfl, fun hend => absurd hend hlt.not_ge⟩
  · rw [hfetch]
    exact ⟨fun hlt => absurd hend hlt.not_ge, fun _ => rfl⟩

/-! ### The no-operations (R75, R77) -/

/-- Settles O25: the meaning that `exec` gives either command is the unchanged state. -/
theorem noOperations : Obligations.NoOperations := fun _ => ⟨rfl, rfl⟩

end Sys2Proof.Machine
end

section
/-! Proofs of the family spec/41_lines.md: the drawing primitives. -/

namespace Sys2Proof.Machine

/-! ### The effective colour of a pen (R90) -/

/-- A solid pen has no pattern: both branches of the effective colour are the one colour. -/
@[simp] theorem eff_solid (a : Ega) (p : Point) : eff ⟨a, a⟩ p = a := ite_self a

/-- Property 2 of the source, read for two different colours: a pen of one colour shows it on the even pixels too. -/
theorem eff_eq_first_iff {a b : Ega} (hab : a ≠ b) (p : Point) : eff ⟨a, b⟩ p = a ↔ (p.x + p.y) % 2 = 1 :=
  hab.ite_eq_left_iff

/-- One pixel to the right the parity of `x + y` flips, so the colours change places. -/
theorem eff_right (a b : Ega) (p : Point) : eff ⟨a, b⟩ ⟨p.x + 1, p.y⟩ = eff ⟨b, a⟩ p := by
  have hflip : (p.x + 1 + p.y) % 2 = 1 ↔ ¬ (p.x + p.y) % 2 = 1 := by omega
  simp only [eff, hflip, ite_not]

/-- Settles O34: the first clause is the definition of `eff`, the other three are the lemmas above. -/
theorem effectiveColour : Obligations.EffectiveColour := fun a b p =>
  ⟨rfl, fun hab => eff_eq_first_iff hab p, eff_solid a p, eff_right a b p⟩

end Sys2Proof.Machine
end

section
/-! Proofs of the family spec/43_patterns.md: the fields of the pattern flags and of the selector. -/

namespace Sys2Proof.Machine

/-! ### The pattern flags (R126) -/

/-- Bit `i` of a byte, read off its value, as the flag fields of the spec are written. -/
theorem byte_bit_iff (b : Byte) (i : Nat) : b.getLsbD i = true ↔ b.toNat / 2 ^ i % 2 = 1 := by
  rw [← BitVec.testBit_toNat, Nat.testBit_eq_decide_div_mod_eq, decide_eq_true_iff]

theorem isRectangle_iff (f : Byte) : isRectangle f = true ↔ f.toNat / 16 % 2 = 1 := byte_bit_iff f 4

theorem usesTexture_iff (f : Byte) : usesTexture f = true ↔ f.toNat / 32 % 2 = 1 := byte_bit_iff f 5

/-! ### The selector (R127) -/

/-- The table index of a selector is `sel[7:1]`; a byte halved is always below the table's 128 entries. -/
def selectorIndex (sel : Byte) : Fin 128 := ⟨sel.toNat / 2, by omega⟩

theorem textureStart_eq (c : PatternConfig) (sel : Byte) : textureStart c sel = c.textureStart[selectorIndex sel] := rfl

/-- Settles O52: the size is its own definition, each flag is one bit of the byte, and the entry is at `selectorIndex`. -/
theorem patternFlagAndSelectorFields : Obligations.PatternFlagAndSelectorFields :=
  ⟨fun f => ⟨rfl, isRectangle_iff f, usesTexture_iff f⟩,
    fun c sel => ⟨selectorIndex sel, rfl, textureStart_eq c sel⟩⟩

end Sys2Proof.Machine
end

section
/-! Proofs of the family spec/44_extended.md: the dispatch on the sub-opcode and the unknown sub-opcodes. -/

namespace Sys2Proof.Machine

/-! ### The unknown sub-opcodes (R147) -/

/-- The rows of the opcode table for the unknown sub-opcodes, each with the byte it leaves open (R61). -/
def unknownExtendedRows (sub : Byte) : List Instr :=
  [.extUnknown09, .extUnknown0A0B sub, .extUnknown0C0F sub, .extUnknown101F sub, .extUnknown203F sub,
    .extUnknown407F sub, .extUnknown80FF sub]

theorem exec_of_mem_unknownExtendedRows {sub : Byte} {i : Instr} (hi : i ∈ unknownExtendedRows sub) (s : State) :
    exec i s = .next (takeFault .unknownExtendedOpcode s) := by
  simp only [unknownExtendedRows, List.mem_cons, List.not_mem_nil, or_false] at hi
  rcases hi with rfl | rfl | rfl | rfl | rfl | rfl | rfl <;> rfl

theorem lookupRow_unknownExtended :
    ∀ sub : Byte, 0x09 ≤ sub.toNat → ∃ i ∈ unknownExtendedRows sub, lookupRow twoByteRows (extendedOpcode ++ sub) = some i := by
  decide

/-- From 0x09 on, the two opcode bytes decode to one of the seven rows, whatever follows them. -/
theorem decode_unknownExtended {sub : Byte} (h : 0x09 ≤ sub.toNat) (rest : List Byte) :
    ∃ i ∈ unknownExtendedRows sub, decode (extendedOpcode :: sub :: rest) = .ok (i, 2) := by
  obtain ⟨i, hi, hrow⟩ := lookupRow_unknownExtended sub h
  exact ⟨i, hi, by simp [decode, decodeTwo, hrow]⟩

/-- One iteration of the main loop (R70): past the header check, a running block does what it has decoded. -/
theorem step_of_fetchCommand {s : State} {i : Instr} {n : Nat} (hrun : s.status = .running) (hpos : s.pos ≠ 0)
    (h : fetchCommand s = .ok (i, n)) : step s = exec i (s.setPos (s.pos + n)) := by
  simp only [step, hrun, hpos, h, if_false, afterOpcode]

/-- Settles O28: the bytes decode to a row of `unknownExtendedRows`, and executing any of these is fault entry. -/
theorem unknownExtendedOpcodeFaults : Obligations.UnknownExtendedOpcodeFaults := by
  refine ⟨?_, fun s sub i hi => exec_of_mem_unknownExtendedRows hi s⟩
  rintro s sub hrun hpos ⟨rest, hdrop⟩ hsub
  obtain ⟨i, hi, hdec⟩ := decode_unknownExtended hsub rest
  have hfetch : fetchCommand s = .ok (i, 2) := (congrArg decode hdrop).trans hdec
  rw [step_of_fetchCommand hrun hpos hfetch]
  exact exec_of_mem_unknownExtendedRows hi _

/-! ### The dispatch on the sub-opcode (R141) -/

theorem dispatchExtended_zero (s : State) : dispatchExtended 0x00 s = setPaletteEntries s := rfl

theorem dispatchExtended_one (s : State) : dispatchExtended 0x01 s = setEntirePalette s := rfl

/-- A sub-opcode from 0x02 on is neither palette command: it is skipped up to 0x08 and unknown above. -/
theorem dispatchExtended_of_two_le {sub : Byte} (h : 0x02 ≤ sub.toNat) (s : State) :
    dispatchExtended sub s = if sub.toNat ≤ 0x08 then skipPayload s else unknownExtended s := by
  have hzero : sub ≠ 0x00 := by rintro rfl; simp at h
  have hone : sub ≠ 0x01 := by rintro rfl; simp at h
  rw [dispatchExtended, if_neg hzero, if_neg hone]

theorem exec_extendedCommand_of_some {s : State} {sub : Byte} (h : s.prog[s.pos]? = some sub) :
    exec .extendedCommand s = (dispatchExtended sub (s.setPos (s.pos + 1))).outcome := by
  show ((fetch s).bind dispatchExtended).outcome = _
  rw [fetch_of_some h, Flow.bind_done]

theorem exec_extendedCommand_of_length_le {s : State} (h : s.prog.length ≤ s.pos) :
    exec .extendedCommand s = .next (takeFault .unexpectedEnd s) := by
  show ((fetch s).bind dispatchExtended).outcome = _
  rw [fetch_of_none (List.getElem?_eq_none h), Flow.bind_raised, Flow.outcome_raised]

/-- The seven rows of R146 have one meaning. -/
theorem exec_skipping {i : Instr} (hi : i ∈ [Instr.ext02, .ext03, .ext04, .ext05, .ext06, .ext07, .ext08]) (s : State) :
    exec i s = (skipPayload s).outcome := by
  simp only [List.mem_cons, List.not_mem_nil, or_false] at hi
  rcases hi with rfl | rfl | rfl | rfl | rfl | rfl | rfl <;> rfl

/-- Settles O29: with a byte at `pos` the command is `dispatchExtended` of it, one clause for each branch; without one the
fetch itself faults. -/
theorem extendedCommandDispatch : Obligations.ExtendedCommandDispatch := by
  refine ⟨fun s sub hb => ?_, fun s => exec_extendedCommand_of_length_le⟩
  rw [exec_extendedCommand_of_some hb]
  refine ⟨fun h => ?entries, fun h => ?bank, fun i hi hlo hhi => ?skipped, fun h => ?unknown⟩
  case entries =>
    obtain rfl : sub = 0x00 := BitVec.eq_of_toNat_eq h
    rw [dispatchExtended_zero]
    rfl
  case bank =>
    obtain rfl : sub = 0x01 := BitVec.eq_of_toNat_eq h
    rw [dispatchExtended_one]
    rfl
  case skipped =>
    rw [dispatchExtended_of_two_le hlo, if_pos hhi]
    exact (exec_skipping hi _).symm
  case unknown =>
    rw [dispatchExtended_of_two_le (by omega), if_neg (by omega)]
    rfl

end Sys2Proof.Machine
end

section
/-! Proofs of the family 'other', encoding: the decoder against the encoder (R60, R61, R64) and the delta codecs (R57, R58). -/

namespace Sys2Proof.Machine

/-! ### Decoding what was encoded -/

/-- The opcode bytes alone decode to their instruction: the lemma of each row, gathered. -/
theorem decode_encode {i : Instr} (h : i.wellFormed = true) : decode (encode i) = .ok (i, (encode i).length) := by
  cases i with
  | setVisualColor => exact Laws.OpcodeRoundTrip.setVisualColor h
  | disableVisual => exact Laws.OpcodeRoundTrip.disableVisual h
  | setPriorityColor => exact Laws.OpcodeRoundTrip.setPriorityColor h
  | disablePriority => exact Laws.OpcodeRoundTrip.disablePriority h
  | shortRelativePatterns => exact Laws.OpcodeRoundTrip.shortRelativePatterns h
  | mediumRelativeLines => exact Laws.OpcodeRoundTrip.mediumRelativeLines h
  | longLines => exact Laws.OpcodeRoundTrip.longLines h
  | shortRelativeLines => exact Laws.OpcodeRoundTrip.shortRelativeLines h
  | floodFill => exact Laws.OpcodeRoundTrip.floodFill h
  | setPattern => exact Laws.OpcodeRoundTrip.setPattern h
  | longPatterns => exact Laws.OpcodeRoundTrip.longPatterns h
  | setControlColor => exact Laws.OpcodeRoundTrip.setControlColor h
  | disableControl => exact Laws.OpcodeRoundTrip.disableControl h
  | mediumRelativePatterns => exact Laws.OpcodeRoundTrip.mediumRelativePatterns h
  | extendedCommand => exact Laws.OpcodeRoundTrip.extendedCommand h
  | pictureEnd => exact Laws.OpcodeRoundTrip.pictureEnd h
  | setPaletteEntries => exact Laws.OpcodeRoundTrip.setPaletteEntries h
  | setEntirePalette => exact Laws.OpcodeRoundTrip.setEntirePalette h
  | ext02 => exact Laws.OpcodeRoundTrip.ext02 h
  | ext03 => exact Laws.OpcodeRoundTrip.ext03 h
  | ext04 => exact Laws.OpcodeRoundTrip.ext04 h
  | ext05 => exact Laws.OpcodeRoundTrip.ext05 h
  | ext06 => exact Laws.OpcodeRoundTrip.ext06 h
  | ext07 => exact Laws.OpcodeRoundTrip.ext07 h
  | ext08 => exact Laws.OpcodeRoundTrip.ext08 h
  | extUnknown09 => exact Laws.OpcodeRoundTrip.extUnknown09 h
  | extUnknown0A0B sub => exact Laws.OpcodeRoundTrip.extUnknown0A0B sub h
  | extUnknown0C0F sub => exact Laws.OpcodeRoundTrip.extUnknown0C0F sub h
  | extUnknown101F sub => exact Laws.OpcodeRoundTrip.extUnknown101F sub h
  | extUnknown203F sub => exact Laws.OpcodeRoundTrip.extUnknown203F sub h
  | extUnknown407F sub => exact Laws.OpcodeRoundTrip.extUnknown407F sub h
  | extUnknown80FF sub => exact Laws.OpcodeRoundTrip.extUnknown80FF sub h
  | unknownOpcode007F b => exact Laws.OpcodeRoundTrip.unknownOpcode007F b h
  | unknownOpcode80BF b => exact Laws.OpcodeRoundTrip.unknownOpcode80BF b h
  | unknownOpcodeC0DF b => exact Laws.OpcodeRoundTrip.unknownOpcodeC0DF b h
  | unknownOpcodeE0EF b => exact Laws.OpcodeRoundTrip.unknownOpcodeE0EF b h

/-- A first byte that has no sub-opcode is decoded alone, whatever follows it. -/
theorem decode_of_ne_extended {b : Byte} (hb : b ≠ extendedOpcode) (rest : List Byte) : decode (b :: rest) = decode [b] := by
  cases rest with
  | nil => rfl
  | cons c rest => simp [decode, hb]

/-- Settles O1: the decoder reads two bytes at most, and two only after 0xFE, so bytes after an encoding take no part; the one
encoding that is 0xFE alone is that of the dispatch. -/
theorem decodeOfEncode : Obligations.DecodeOfEncode := by
  intro i rest hwf hext
  have hdec := decode_encode hwf
  rw [← hdec]
  match henc : encode i with
  | [] =>
    rw [henc] at hdec
    cases hdec
  | [b] =>
    by_cases hb : b = extendedOpcode
    · have hi : i = .extendedCommand := by
        rw [henc, hb, show decode [extendedOpcode] = .ok (.extendedCommand, 1) by decide] at hdec
        cases hdec
        rfl
      rw [hext hi, List.append_nil]
    · exact decode_of_ne_extended hb rest
  | b :: sub :: more => rfl

/-! ### What the decoder gives -/

theorem lookupRow_oneByte_sound :
    ∀ b : Byte, (lookupRow oneByteRows b).all (fun i => i.wellFormed && decide (encode i = [b])) = true := by decide

theorem lookupRow_twoByte_sound :
    ∀ sub : Byte, (lookupRow twoByteRows (extendedOpcode ++ sub)).all
      (fun i => i.wellFormed && decide (encode i = [extendedOpcode, sub])) = true := by decide

theorem decodeOne_ok {b : Byte} {i : Instr} {n : Nat} (h : decodeOne b = .ok (i, n)) :
    i.wellFormed = true ∧ encode i = [b] ∧ n = 1 := by
  unfold decodeOne at h
  split at h
  · next j hj =>
    cases h
    have := lookupRow_oneByte_sound b
    simpa [hj] using this
  · cases h

theorem decodeTwo_ok {sub : Byte} {i : Instr} {n : Nat} (h : decodeTwo extendedOpcode sub = .ok (i, n)) :
    i.wellFormed = true ∧ encode i = [extendedOpcode, sub] ∧ n = 2 := by
  unfold decodeTwo at h
  split at h
  · next j hj =>
    cases h
    have := lookupRow_twoByte_sound sub
    simpa [hj] using this
  · cases h

/-- The decoder reads one byte, which a row of the first table has, or 0xFE and the byte that a row of the second has. -/
theorem decode_ok {bytes : List Byte} {i : Instr} {n : Nat} (h : decode bytes = .ok (i, n)) :
    i.wellFormed = true ∧ encode i = bytes.take n ∧ 0 < n ∧ n ≤ bytes.length := by
  match bytes, h with
  | [], h => cases h
  | [b], h =>
    obtain ⟨hwf, henc, rfl⟩ := decodeOne_ok h
    simp [hwf, henc]
  | b :: sub :: rest, h =>
    by_cases hb : b = extendedOpcode
    · subst hb
      obtain ⟨hwf, henc, rfl⟩ := decodeTwo_ok (by simpa [decode] using h)
      simp [hwf, henc]
    · obtain ⟨hwf, henc, rfl⟩ := decodeOne_ok (by simpa [decode, hb] using h)
      simp [hwf, henc]

/-- Settles O2: soundness of the two tables, and their cover of every byte. -/
theorem decodeReadsTheOpcodeBytes : Obligations.DecodeReadsTheOpcodeBytes := by
  refine ⟨fun bytes i n h => ?_, fun bytes hne => ?_⟩
  · obtain ⟨hwf, henc, -, hle⟩ := decode_ok h
    exact ⟨hwf, henc, by rw [henc, List.length_take_of_le hle]⟩
  · obtain ⟨b, bs, rfl⟩ := List.exists_cons_of_ne_nil hne
    exact decode_ok_of_nonempty b bs

/-- Settles O3, by evaluating the decoder on the ten inputs. -/
theorem sampleWordsDecode : Obligations.SampleWordsDecode := by
  unfold Obligations.SampleWordsDecode
  decide

/-! ### The short-relative delta (R57) -/

/-- The sign bit of a byte is set from 128 on, that of a nibble from 8 on. -/
theorem byte_sign_iff (b : Byte) : b.getLsbD 7 = true ↔ 128 ≤ b.toNat := by
  rw [byte_bit_iff]
  omega

theorem nibble_sign_iff (n : BitVec 4) : n.getLsbD 3 = true ↔ 8 ≤ n.toNat := by
  rw [← BitVec.testBit_toNat, Nat.testBit_eq_decide_div_mod_eq, decide_eq_true_iff]
  omega

theorem smag4_eq (n : BitVec 4) :
    smag4 n = if 8 ≤ n.toNat then -((n.toNat % 8 : Nat) : Int) else ((n.toNat % 8 : Nat) : Int) := by
  simp only [smag4, signMagnitude, nibble_sign_iff]

theorem smag8_eq (b : Byte) :
    smag8 b = if 128 ≤ b.toNat then -((b.toNat % 128 : Nat) : Int) else (b.toNat : Int) := by
  simp only [smag8, signMagnitude, byte_sign_iff]
  split
  · rfl
  · rw [Nat.mod_eq_of_lt (by omega)]

theorem shortStep_x (b : Byte) (p : Point) : (shortStep b p).x =
    p.x + (if 128 ≤ b.toNat then -((b.toNat / 16 % 8 : Nat) : Int) else ((b.toNat / 16 % 8 : Nat) : Int)) := by
  have hsign : 8 ≤ b.toNat / 16 ↔ 128 ≤ b.toNat := by omega
  simp only [shortStep, smag4_eq, toNat_hiNibble, hsign]

theorem shortStep_y (b : Byte) (p : Point) : (shortStep b p).y =
    p.y + (if 8 ≤ b.toNat % 16 then -((b.toNat % 8 : Nat) : Int) else ((b.toNat % 8 : Nat) : Int)) := by
  have hmod : b.toNat % 16 % 8 = b.toNat % 8 := Nat.mod_mod_of_dvd _ (by decide)
  simp only [shortStep, smag4_eq, toNat_loNibble, hmod]

/-- The two sign bits and the two magnitudes stand in the byte side by side. -/
theorem toNat_encodeShort {dx dy : Int} (hx : dx.natAbs ≤ 7) (hy : dy.natAbs ≤ 7) : (encodeShort dx dy).toNat =
    (if dx < 0 then 128 else 0) + dx.natAbs * 16 + (if dy < 0 then 8 else 0) + dy.natAbs := by
  rw [encodeShort, BitVec.toNat_ofNat, Nat.mod_eq_of_lt]
  split <;> split <;> omega

theorem shortStep_encodeShort {dx dy : Int} (hx : dx.natAbs ≤ 7) (hy : dy.natAbs ≤ 7) (p : Point) :
    shortStep (encodeShort dx dy) p = ⟨p.x + dx, p.y + dy⟩ := by
  have hnat := toNat_encodeShort hx hy
  have hpx := shortStep_x (encodeShort dx dy) p
  have hpy := shortStep_y (encodeShort dx dy) p
  rw [hnat] at hpx hpy
  have ex : (shortStep (encodeShort dx dy) p).x = p.x + dx := by
    rw [hpx]
    split_ifs <;> omega
  have ey : (shortStep (encodeShort dx dy) p).y = p.y + dy := by
    rw [hpy]
    split_ifs <;> omega
  rw [← ex, ← ey]

/-- Settles O6, from the values of the two nibbles. -/
theorem shortDeltaCodec : Obligations.ShortDeltaCodec :=
  ⟨fun b p => ⟨shortStep_x b p, shortStep_y b p⟩,
    fun _ _ p _ _ _ _ => shortStep_encodeShort (by omega) (by omega) p⟩

/-! ### The medium-relative delta (R58) -/

theorem clamp_eq (v hi : Int) (h : 0 ≤ hi) : clamp v 0 hi = max 0 (min hi v) := by
  unfold clamp
  split_ifs <;> omega

theorem sext8_eq (b : Byte) : sext8 b = b.toInt := by
  rw [sext8, BitVec.toInt_eq_toNat_cond]
  split_ifs <;> omega

theorem mediumStep_eq (dyByte dxByte : Byte) (p : Point) : mediumStep dyByte dxByte p =
    ⟨max 0 (min 319 (p.x + sext8 dxByte)), max 0 (min 189 (p.y + smag8 dyByte))⟩ := by
  rw [mediumStep, clamp_eq _ _ (by decide), clamp_eq _ _ (by decide)]
  rfl

theorem sext8_encodeMediumDx {dx : Int} (h : -128 ≤ dx) (h' : dx ≤ 127) : sext8 (encodeMediumDx dx) = dx := by
  have hnat : (encodeMediumDx dx).toNat = (dx % 256).toNat := by
    rw [encodeMediumDx, BitVec.toNat_ofNat]
    omega
  rw [sext8, hnat]
  split_ifs <;> omega

theorem smag8_encodeMediumDy {dy : Int} (h : dy.natAbs ≤ 127) : smag8 (encodeMediumDy dy) = dy := by
  have hnat : (encodeMediumDy dy).toNat = (if dy < 0 then 128 else 0) + dy.natAbs := by
    rw [encodeMediumDy, BitVec.toNat_ofNat, Nat.mod_eq_of_lt]
    split <;> omega
  rw [smag8_eq, hnat]
  split_ifs <;> omega

/-- Settles O7: the step is the sum clamped, and each encoder's byte has the value it was given. -/
theorem mediumDeltaCodec : Obligations.MediumDeltaCodec := by
  refine ⟨fun dyByte dxByte p => ?_, fun dx dy p hx hx' hy hy' => ?_⟩
  · rw [mediumStep_eq, sext8_eq, smag8_eq]
    exact ⟨rfl, rfl⟩
  · rw [mediumStep_eq, sext8_encodeMediumDx hx hx', smag8_encodeMediumDy (by omega)]

end Sys2Proof.Machine
end

section
/-! Proofs of the family 'other', the whole machine: what every command keeps, and from it the invariant, the access matrix
and the end of every run. -/

namespace Sys2Proof.Machine

/-! ### A command as a flow -/

/-- The meaning of an instruction before its outcome is taken. -/
def flowOf (i : Instr) (s : State) : Flow Unit :=
  match i with
  | .setVisualColor => (fetch s).bind fun c s => (checkSlot c s).bind fun c s => .done () (loadPen c s)
  | .disableVisual => .done () (blankVisual s)
  | .setPriorityColor | .setControlColor => discardByte s
  | .disablePriority | .disableControl => .done () s
  | .shortRelativePatterns => patternWalk nextShort s
  | .mediumRelativePatterns => patternWalk nextMedium s
  | .mediumRelativeLines => polyline nextMedium s
  | .longLines => polyline nextAbs s
  | .shortRelativeLines => polyline nextShort s
  | .floodFill => whileElements seed () s
  | .setPattern => (fetch s).bind fun b s => .done () (s.setFlags b)
  | .longPatterns => whileElements stampSeed () s
  | .extendedCommand => (fetch s).bind dispatchExtended
  | .pictureEnd => .done () (s.setStatus .halted)
  | .setPaletteEntries => setPaletteEntries s
  | .setEntirePalette => setEntirePalette s
  | .ext02 | .ext03 | .ext04 | .ext05 | .ext06 | .ext07 | .ext08 => skipPayload s
  | .extUnknown09 | .extUnknown0A0B _ | .extUnknown0C0F _ | .extUnknown101F _ | .extUnknown203F _
  | .extUnknown407F _ | .extUnknown80FF _ => unknownExtended s
  | .unknownOpcode007F _ | .unknownOpcode80BF _ | .unknownOpcodeC0DF _ | .unknownOpcodeE0EF _ => unknownOpcode s

theorem exec_eq_flowOf (i : Instr) (s : State) : exec i s = (flowOf i s).outcome := by
  cases i <;> rfl

/-! ### No part of a command makes the model stop -/

/-- A flow that is never the model's own stop, and whose raised states are faulted blocks (R170). -/
def Flow.Sound {α : Type} (x : Flow α) : Prop :=
  match x with
  | .done _ _ => True
  | .raised t => t.status = .faulted
  | .stuck _ => False

section
variable {α β : Type}

theorem Flow.sound_done (a : α) (s : State) : (Flow.done a s).Sound := trivial

theorem sound_raise (f : FaultCode) (s : State) : (raise f s : Flow α).Sound := rfl

theorem Flow.Sound.bind {x : Flow α} {f : α → State → Flow β} (hx : x.Sound) (hf : ∀ a t, (f a t).Sound) :
    (x.bind f).Sound := by
  cases x with
  | done a t => exact hf a t
  | raised t => exact hx
  | stuck r => exact hx.elim

theorem Flow.Sound.void {x : Flow α} (hx : x.Sound) : x.void.Sound := hx.bind fun _ t => Flow.sound_done () t

theorem Flow.Sound.exists_outcome {x : Flow α} (hx : x.Sound) : ∃ t, x.outcome = .next t := by
  cases x with
  | done a t => exact ⟨t, rfl⟩
  | raised t => exact ⟨t, rfl⟩
  | stuck r => exact hx.elim

theorem sound_repeatElements {element : α → State → Flow α} (h : ∀ a s, (element a s).Sound) (n : Nat) (a : α) (s : State) :
    (repeatElements element n a s).Sound := by
  induction n generalizing a s with
  | zero => trivial
  | succ n ih =>
    rw [repeatElements_succ]
    split
    · trivial
    · exact (h a s).bind ih

theorem sound_whileElements {element : α → State → Flow α} (h : ∀ a s, (element a s).Sound) (a : α) (s : State) :
    (whileElements element a s).Sound := sound_repeatElements h _ a s

end

theorem sound_fetch (s : State) : (fetch s).Sound := by
  rcases fetch_cases s with ⟨b, -, -, h⟩ | ⟨-, h⟩
  · rw [h]; trivial
  · rw [h]; rfl

theorem sound_fetchAbs (s : State) : (fetchAbs s).Sound :=
  (sound_fetch s).bind fun _ t => (sound_fetch t).bind fun _ t => (sound_fetch t).bind fun _ t => Flow.sound_done _ t

theorem sound_fetchSelector (s : State) : (fetchSelector s).Sound := by
  unfold fetchSelector
  split
  · exact (sound_fetch s).bind fun _ t => Flow.sound_done _ t
  · trivial

theorem sound_nextShort (p : Point) (s : State) : (nextShort p s).Sound :=
  (sound_fetch s).bind fun _ t => Flow.sound_done _ t

theorem sound_nextMedium (p : Point) (s : State) : (nextMedium p s).Sound :=
  (sound_fetch s).bind fun _ t => (sound_fetch t).bind fun _ t => Flow.sound_done _ t

theorem sound_fbWrite (p : Point) (v : Ega) (s : State) : (fbWrite p v s).Sound := by
  unfold fbWrite
  split
  · trivial
  · exact sound_raise _ s

theorem sound_plot (p : Point) (s : State) : (plot p s).Sound := by
  unfold plot
  split
  · split
    · exact sound_raise _ s
    · exact sound_fbWrite _ _ s
  · trivial

theorem sound_plotAll (ps : List Point) (s : State) : (plotAll ps s).Sound := by
  induction ps generalizing s with
  | nil => trivial
  | cons p ps ih => exact (sound_plot p s).bind fun _ t => ih t

theorem sound_drawLine (p q : Point) (s : State) : (drawLine p q s).Sound := by
  unfold drawLine
  split
  · exact sound_plotAll _ s
  · trivial

theorem sound_stamp (sel : Option Byte) (p : Point) (s : State) : (stamp sel p s).Sound := by
  unfold stamp
  split
  · exact sound_plotAll _ s
  · trivial

/-- Every state in which the loop of a fill raises is a faulted block. -/
theorem status_of_fillLoop_raised {pen : Pen} {n : Nat} {visited stack : List Point} {s t : State}
    (h : fillLoop pen n visited stack s = .raised t) : t.status = .faulted := by
  induction n generalizing visited stack s with
  | zero => cases stack <;> cases h
  | succ n ih =>
    cases stack with
    | nil => cases h
    | cons c rest =>
      unfold fillLoop at h
      cases hw : fbWrite c (eff pen c) s with
      | done a u =>
        rw [hw, Flow.bind_done] at h
        split at h
        · cases h; rfl
        · exact ih h
      | raised u =>
        have := sound_fbWrite c (eff pen c) s
        rw [hw] at this h
        cases h
        exact this
      | stuck r => rw [hw] at h; cases h

theorem status_of_floodFill_raised {p : Point} {s t : State} (h : floodFill p s = .raised t) : t.status = .faulted := by
  unfold floodFill at h
  split at h
  · split at h
    · cases h; rfl
    · unfold fbRead at h
      split at h
      · rw [Flow.bind_done] at h
        split at h
        · exact status_of_fillLoop_raised h
        · cases h
      · cases h; rfl
  · cases h

/-- The fill is sound by the bound on its pops (R114). -/
theorem sound_floodFill (p : Point) (s : State) : (floodFill p s).Sound := by
  cases h : floodFill p s with
  | done a t => trivial
  | raised t => exact status_of_floodFill_raised h
  | stuck r => exact floodFill_not_stuck p s r h

theorem sound_segment {next : Point → State → Flow Point} (h : ∀ p s, (next p s).Sound) (p : Point) (s : State) :
    (segment next p s).Sound :=
  (h p s).bind fun q t => (sound_drawLine p q t).bind fun _ u => Flow.sound_done q u

theorem sound_polyline {next : Point → State → Flow Point} (h : ∀ p s, (next p s).Sound) (s : State) :
    (polyline next s).Sound :=
  ((sound_fetchAbs s).bind fun p t => sound_whileElements (sound_segment h) p t).void

theorem sound_stampElement {next : Point → State → Flow Point} (h : ∀ p s, (next p s).Sound) (p : Point) (s : State) :
    (stampElement next p s).Sound :=
  (sound_fetchSelector s).bind fun sel t => (h p t).bind fun q u => (sound_stamp sel q u).bind fun _ v => Flow.sound_done q v

theorem sound_stampSeed (a : Unit) (s : State) : (stampSeed a s).Sound :=
  (sound_fetchSelector s).bind fun sel t => (sound_fetchAbs t).bind fun p u => sound_stamp sel p u

theorem sound_patternWalk {next : Point → State → Flow Point} (h : ∀ p s, (next p s).Sound) (s : State) :
    (patternWalk next s).Sound :=
  ((sound_fetchSelector s).bind fun sel t => (sound_fetchAbs t).bind fun p u => (sound_stamp sel p u).bind fun _ v =>
    sound_whileElements (sound_stampElement h) p v).void

theorem sound_checkSlot (c : Byte) (s : State) : (checkSlot c s).Sound := by
  unfold checkSlot
  split
  · trivial
  · exact sound_raise _ s

theorem sound_setPaletteEntries (s : State) : (setPaletteEntries s).Sound :=
  sound_whileElements (fun _ s => (sound_fetch s).bind fun i t => (sound_fetch t).bind fun _ u =>
    (sound_checkSlot i u).bind fun _ _ => Flow.sound_done () _) () s

theorem sound_loadSlots (is : List (Fin 160)) (s : State) : (loadSlots is s).Sound := by
  induction is generalizing s with
  | nil => trivial
  | cons i is ih => exact (sound_fetch s).bind fun c t => ih _

theorem sound_setEntirePalette (s : State) : (setEntirePalette s).Sound := by
  refine (sound_fetch s).bind fun p t => Flow.Sound.bind ?_ fun p u => sound_loadSlots _ u
  unfold checkBank
  split
  · trivial
  · exact sound_raise _ t

theorem sound_discardByte (s : State) : (discardByte s).Sound := (sound_fetch s).void

theorem sound_skipPayload (s : State) : (skipPayload s).Sound := sound_whileElements (fun _ => sound_discardByte) () s

theorem sound_dispatchExtended (sub : Byte) (s : State) : (dispatchExtended sub s).Sound := by
  unfold dispatchExtended
  split
  · exact sound_setPaletteEntries s
  · split
    · exact sound_setEntirePalette s
    · split
      · exact sound_skipPayload s
      · exact sound_raise _ s

/-- No meaning stops the model. -/
theorem sound_flowOf (i : Instr) (s : State) : (flowOf i s).Sound := by
  cases i with
  | setVisualColor => exact (sound_fetch s).bind fun c t => (sound_checkSlot c t).bind fun c u => Flow.sound_done () _
  | setPriorityColor => exact sound_discardByte s
  | setControlColor => exact sound_discardByte s
  | shortRelativePatterns => exact sound_patternWalk sound_nextShort s
  | mediumRelativePatterns => exact sound_patternWalk sound_nextMedium s
  | mediumRelativeLines => exact sound_polyline sound_nextMedium s
  | longLines => exact sound_polyline (fun _ => sound_fetchAbs) s
  | shortRelativeLines => exact sound_polyline sound_nextShort s
  | floodFill => exact sound_whileElements (fun _ s => (sound_fetchAbs s).bind sound_floodFill) () s
  | setPattern => exact (sound_fetch s).bind fun b t => Flow.sound_done () _
  | longPatterns => exact sound_whileElements sound_stampSeed () s
  | extendedCommand => exact (sound_fetch s).bind sound_dispatchExtended
  | setPaletteEntries => exact sound_setPaletteEntries s
  | setEntirePalette => exact sound_setEntirePalette s
  | ext02 | ext03 | ext04 | ext05 | ext06 | ext07 | ext08 => exact sound_skipPayload s
  | disableVisual | disablePriority | disableControl | pictureEnd => trivial
  | extUnknown09 | extUnknown0A0B | extUnknown0C0F | extUnknown101F | extUnknown203F | extUnknown407F | extUnknown80FF
  | unknownOpcode007F | unknownOpcode80BF | unknownOpcodeC0DF | unknownOpcodeE0EF => rfl

theorem exists_exec (i : Instr) (s : State) : ∃ t, exec i s = .next t := by
  rw [exec_eq_flowOf]
  exact (sound_flowOf i s).exists_outcome

/-! ### Which registers a command writes (the access matrix of spec/10_state.md section 9) -/

/-- The instructions by what they may write besides `pos`, `status` and `fault`. -/
inductive Effect where
  | nothing
  /-- The pen and the flag. -/
  | colour
  /-- The flag alone. -/
  | enable
  | flags
  | palette
  | paletteAndLocks
  | framebuffer
  /-- `status`, to `Halted`. -/
  | halt
deriving DecidableEq

def effectOf : Instr → Effect
  | .setVisualColor => .colour
  | .disableVisual => .enable
  | .setPattern => .flags
  | .setEntirePalette => .palette
  | .setPaletteEntries | .extendedCommand => .paletteAndLocks
  | .longLines | .mediumRelativeLines | .shortRelativeLines | .floodFill | .longPatterns | .shortRelativePatterns
  | .mediumRelativePatterns => .framebuffer
  | .pictureEnd => .halt
  | .setPriorityColor | .setControlColor | .disablePriority | .disableControl
  | .ext02 | .ext03 | .ext04 | .ext05 | .ext06 | .ext07 | .ext08
  | .extUnknown09 | .extUnknown0A0B _ | .extUnknown0C0F _ | .extUnknown101F _ | .extUnknown203F _
  | .extUnknown407F _ | .extUnknown80FF _
  | .unknownOpcode007F _ | .unknownOpcode80BF _ | .unknownOpcodeC0DF _ | .unknownOpcodeE0EF _ => .nothing

/-- `t` is `s` but for what the effect names, and for `pos`, `status` and `fault`. -/
def Effect.Frame (e : Effect) (s t : State) : Prop :=
  match e with
  | .nothing => t = { s with pos := t.pos, status := t.status, fault := t.fault }
  | .colour =>
    t = { s with pos := t.pos, status := t.status, fault := t.fault, pen := t.pen, visualEnabled := t.visualEnabled }
  | .enable => t = { s with visualEnabled := t.visualEnabled }
  | .flags => t = { s with pos := t.pos, status := t.status, fault := t.fault, patternFlags := t.patternFlags }
  | .palette => t = { s with pos := t.pos, status := t.status, fault := t.fault, pal := t.pal }
  | .paletteAndLocks => SameButPalette s t
  | .framebuffer => SameButDrawing s t
  | .halt => t = { s with status := .halted }

/-- The frame of a part that only reads the stream and raises. -/
abbrev Inert (s t : State) : Prop := Effect.nothing.Frame s t

theorem Inert.refl (s : State) : Inert s s := rfl

theorem Inert.trans {s t u : State} (h : Inert s t) (h' : Inert t u) : Inert s u := by
  unfold Inert Effect.Frame at *
  rw [h', h]

theorem inert_fetch (s : State) : (fetch s).Leaves (Inert s) := by
  rcases fetch_cases s with ⟨b, -, -, h⟩ | ⟨-, h⟩
  · rw [h]; rfl
  · rw [h]; rfl

theorem inert_skipPayload (s : State) : (skipPayload s).Leaves (Inert s) :=
  whileElements_leaves (R := Inert) Inert.refl Inert.trans (fun _ s => Flow.leaves_void.mpr (inert_fetch s)) () s

/-- The frame of loading a bank. -/
abbrev BankOnly (s t : State) : Prop := Effect.palette.Frame s t

theorem BankOnly.trans {s t u : State} (h : BankOnly s t) (h' : BankOnly t u) : BankOnly s u := by
  unfold BankOnly Effect.Frame at *
  rw [h', h]

theorem bankOnly_fetch (s : State) : (fetch s).Leaves (BankOnly s) := by
  rcases fetch_cases s with ⟨b, -, -, h⟩ | ⟨-, h⟩
  · rw [h]; rfl
  · rw [h]; rfl

theorem bankOnly_loadSlots (is : List (Fin 160)) (s : State) : (loadSlots is s).Leaves (BankOnly s) := by
  induction is generalizing s with
  | nil => rfl
  | cons i is ih =>
    refine Flow.leaves_bind (R := BankOnly) BankOnly.trans (bankOnly_fetch s) fun c t _ => ?_
    exact Flow.leaves_mono (ih _) fun u hu => BankOnly.trans (t := writeSlot i c t) rfl hu

theorem bankOnly_setEntirePalette (s : State) : (setEntirePalette s).Leaves (BankOnly s) := by
  refine Flow.leaves_bind (R := BankOnly) BankOnly.trans (bankOnly_fetch s) fun p t _ => ?_
  unfold checkBank
  split
  · exact bankOnly_loadSlots _ t
  · rfl

/-- Everything `setVisualColor` can leave. -/
theorem flowOf_setVisualColor_leaves (s : State) :
    (flowOf .setVisualColor s).Leaves fun t => Ran s t ∧ Effect.colour.Frame s t := by
  show ((fetch s).bind fun c s => (checkSlot c s).bind fun c s => .done () (loadPen c s)).Leaves _
  rcases fetch_cases s with ⟨b, hlt, -, h⟩ | ⟨-, h⟩
  · rw [h, Flow.bind_done]
    unfold checkSlot
    split
    · exact ⟨⟨rfl, rfl, Nat.le_succ _, fun _ => hlt, id, .inl ⟨rfl, rfl⟩, fun _ h => h⟩, rfl⟩
    · exact ⟨⟨rfl, rfl, Nat.le_succ _, fun _ => hlt, id, .inr ⟨rfl, FaultCode.noConfusion⟩, fun _ h => h⟩, rfl⟩
  · rw [h]
    exact ⟨ran_takeFault FaultCode.noConfusion s, rfl⟩

/-- Everything `setPattern` can leave. -/
theorem flowOf_setPattern_leaves (s : State) :
    (flowOf .setPattern s).Leaves fun t => Ran s t ∧ Effect.flags.Frame s t := by
  show ((fetch s).bind fun b s => .done () (s.setFlags b)).Leaves _
  rcases fetch_cases s with ⟨b, hlt, -, h⟩ | ⟨-, h⟩
  · rw [h]
    exact ⟨⟨rfl, rfl, Nat.le_succ _, fun _ => hlt, id, .inl ⟨rfl, rfl⟩, fun _ h => h⟩, rfl⟩
  · rw [h]
    exact ⟨ran_takeFault FaultCode.noConfusion s, rfl⟩

theorem Flow.Leaves.and {α : Type} {x : Flow α} {P Q : State → Prop} (hp : x.Leaves P) (hq : x.Leaves Q) :
    x.Leaves fun t => P t ∧ Q t := by
  cases x with
  | done a t => exact ⟨hp, hq⟩
  | raised t => exact ⟨hp, hq⟩
  | stuck r => trivial

/-- A part that reads the stream and raises keeps what any part keeps. -/
theorem discardByte_leaves (s : State) : (discardByte s).Leaves fun t => Ran s t ∧ Inert s t :=
  Flow.leaves_void.mpr ((Flow.leaves_mono (drawn_fetch s) fun _ h => h.1).and (inert_fetch s))

theorem skipPayload_leaves (s : State) : (skipPayload s).Leaves fun t => Ran s t ∧ Inert s t :=
  (Flow.leaves_mono (paletted_skipPayload s) fun _ h => h.1).and (inert_skipPayload s)

/-- Everything a command other than `pictureEnd` can leave. -/
theorem flowOf_leaves {i : Instr} (hi : i ≠ .pictureEnd) (s : State) :
    (flowOf i s).Leaves fun t => Ran s t ∧ (effectOf i).Frame s t := by
  cases i with
  | setVisualColor => exact flowOf_setVisualColor_leaves s
  | setPattern => exact flowOf_setPattern_leaves s
  | setPriorityColor => exact discardByte_leaves s
  | setControlColor => exact discardByte_leaves s
  | shortRelativePatterns => exact drawn_patternWalk drawn_nextShort s
  | mediumRelativePatterns => exact drawn_patternWalk drawn_nextMedium s
  | mediumRelativeLines => exact drawn_polyline drawn_nextMedium s
  | longLines => exact drawn_polyline (fun _ => drawn_fetchAbs) s
  | shortRelativeLines => exact drawn_polyline drawn_nextShort s
  | floodFill => exact drawn_seeds s
  | longPatterns => exact drawn_stampSeeds s
  | extendedCommand => exact Paletted.bind (paletted_fetch s) paletted_dispatchExtended
  | setPaletteEntries => exact paletted_setPaletteEntries s
  | setEntirePalette =>
    exact (Flow.leaves_mono (paletted_setEntirePalette s) fun _ h => h.1).and (bankOnly_setEntirePalette s)
  | ext02 | ext03 | ext04 | ext05 | ext06 | ext07 | ext08 => exact skipPayload_leaves s
  | disableVisual | disablePriority | disableControl => exact ⟨Ran.refl s, rfl⟩
  | pictureEnd => exact absurd rfl hi
  | extUnknown09 | extUnknown0A0B | extUnknown0C0F | extUnknown101F | extUnknown203F | extUnknown407F | extUnknown80FF
  | unknownOpcode007F | unknownOpcode80BF | unknownOpcodeC0DF | unknownOpcodeE0EF =>
    exact ⟨ran_takeFault FaultCode.noConfusion s, rfl⟩

theorem exec_ran {i : Instr} (hi : i ≠ .pictureEnd) {s t : State} (h : exec i s = .next t) : Ran s t := by
  rw [exec_eq_flowOf] at h
  exact (Flow.of_outcome_next (flowOf_leaves hi s) h).1

/-- Settles O26: the meaning of `pictureEnd` is the one write. -/
theorem pictureEndHalts : Obligations.PictureEndHalts := fun _ => rfl

theorem exec_frame {i : Instr} {s t : State} (h : exec i s = .next t) : (effectOf i).Frame s t := by
  by_cases hi : i = .pictureEnd
  · subst hi
    rw [pictureEndHalts s] at h
    cases h
    rfl
  · rw [exec_eq_flowOf] at h
    exact (Flow.of_outcome_next (flowOf_leaves hi s) h).2

/-! ### A step -/

/-- Everything a step can do (R70): stay, check the header, find the stream at its end, or run the command there. -/
theorem step_cases {s t : State} (h : step s = .next t) :
    (s.status ≠ .running ∧ t = s) ∨
    (s.status = .running ∧ s.pos = 0 ∧ t = headerCheck s) ∨
    (s.status = .running ∧ s.pos ≠ 0 ∧ s.prog.length ≤ s.pos ∧ t = takeFault .unexpectedEnd s) ∨
    (s.status = .running ∧ s.pos ≠ 0 ∧ ∃ i n, 0 < n ∧ s.pos + n ≤ s.prog.length ∧
      exec i (s.setPos (s.pos + n)) = .next t) := by
  unfold step at h
  split at h
  · next hrun =>
    split at h
    · next hpos =>
      cases h
      exact .inr (.inl ⟨hrun, hpos, rfl⟩)
    · next hpos =>
      split at h
      · next i n hdec =>
        obtain ⟨-, -, hn, hle⟩ := decode_ok hdec
        rw [instructionBytes, List.length_drop] at hle
        exact .inr (.inr (.inr ⟨hrun, hpos, i, n, hn, by omega, h⟩))
      · next hdec =>
        cases h
        have hend : s.prog.length ≤ s.pos := by
          by_contra hlt
          obtain ⟨b, bs, hdrop⟩ := List.exists_cons_of_ne_nil (mt List.drop_eq_nil_iff.mp hlt)
          obtain ⟨i, n, hok⟩ := decode_ok_of_nonempty b bs
          rw [fetchCommand, instructionBytes, hdrop, hok] at hdec
          cases hdec
        exact .inr (.inr (.inl ⟨hrun, hpos, hend, rfl⟩))
      · cases h
  · next hhalt =>
    cases h
    exact .inl ⟨by rw [hhalt]; decide, rfl⟩
  · next hfault =>
    cases h
    exact .inl ⟨by rw [hfault]; decide, rfl⟩

theorem fetchCommand_ne_noRow (s : State) (b : Byte) : fetchCommand s ≠ .error (.noRow b) := by
  rw [fetchCommand]
  cases instructionBytes s with
  | nil => exact fun h => by cases h
  | cons c cs =>
    obtain ⟨i, n, hok⟩ := decode_ok_of_nonempty c cs
    rw [hok]
    exact fun h => by cases h

theorem exists_step (s : State) : ∃ t, step s = .next t := by
  unfold step
  split
  · split
    · exact ⟨_, rfl⟩
    · split
      · exact exists_exec _ _
      · exact ⟨_, rfl⟩
      · next b hdec => exact absurd hdec (fetchCommand_ne_noRow s b)
  · exact ⟨_, rfl⟩
  · exact ⟨_, rfl⟩

/-- Settles O18: every meaning is a sound flow, and every byte decodes. -/
theorem everyStepIsANextState : Obligations.EveryStepIsANextState := ⟨exists_exec, exists_step⟩

theorem ran_setPos {s : State} {n : Nat} (h : s.pos ≤ n) (h' : n ≤ s.prog.length) : Ran s (s.setPos n) :=
  ⟨rfl, rfl, h, fun _ => h', id, .inl ⟨rfl, rfl⟩, fun _ h => h⟩

theorem ran_headerCheck {s : State} (hpos : s.pos = 0) : Ran s (headerCheck s) := by
  unfold headerCheck
  split
  · exact ran_takeFault FaultCode.noConfusion s
  · exact ran_setPos (by omega) (by omega)

/-- A step keeps what any part of a command keeps, or it is that of `pictureEnd`. -/
theorem step_ran {s t : State} (h : step s = .next t) :
    Ran s t ∨ (s.status = .running ∧ ∃ n, s.pos ≤ n ∧ n ≤ s.prog.length ∧ t = (s.setPos n).setStatus .halted) := by
  rcases step_cases h with ⟨-, rfl⟩ | ⟨-, hpos, rfl⟩ | ⟨-, -, -, rfl⟩ | ⟨hrun, -, i, n, -, hle, hexec⟩
  · exact .inl (Ran.refl t)
  · exact .inl (ran_headerCheck hpos)
  · exact .inl (ran_takeFault FaultCode.noConfusion s)
  · by_cases hi : i = .pictureEnd
    · subst hi
      rw [pictureEndHalts] at hexec
      cases hexec
      exact .inr ⟨hrun, _, by omega, hle, rfl⟩
    · exact .inl ((ran_setPos (by omega) hle).trans (exec_ran hi hexec))

theorem Ran.inv {s t : State} (h : Ran s t) (hs : s.Inv) : t.Inv := by
  obtain ⟨-, hprog, -, hbound, hwf, hfault, -⟩ := h
  obtain ⟨hpos, hfb, hcode⟩ := hs
  refine ⟨hprog ▸ hbound hpos, hwf hfb, ?_⟩
  rcases hfault with ⟨hstatus, hsame⟩ | ⟨hstatus, hne⟩
  · rw [hstatus, hsame]
    exact hcode
  · exact iff_of_true hstatus hne

/-- Settles O10: every part of a command keeps the invariant (`Ran.inv`), and `pictureEnd` halts a block that was running, so
without a fault code. -/
theorem stepKeepsInvariant : Obligations.StepKeepsInvariant := by
  intro s t hs h
  rcases step_ran h with hran | ⟨hrun, n, -, hle, rfl⟩
  · exact hran.inv hs
  · obtain ⟨-, hfb, hcode⟩ := hs
    refine ⟨hle, hfb, iff_of_false Status.noConfusion fun hne => ?_⟩
    rw [hcode.mpr hne] at hrun
    cases hrun

/-- Settles O15, from what every step keeps. -/
theorem streamIsReadForward : Obligations.StreamIsReadForward := by
  intro s t h
  rcases step_ran h with ⟨hconfig, hprog, hpos, hbound, -⟩ | ⟨-, n, hpos, hle, rfl⟩
  · exact ⟨hprog, hconfig, hpos, hbound⟩
  · exact ⟨rfl, rfl, hpos, fun _ => hle⟩

/-- Settles O16, from what every step keeps. -/
theorem locksPersist : Obligations.LocksPersist := by
  intro s t j hj h
  rcases step_ran h with ⟨-, -, -, -, -, -, hlocks⟩ | ⟨-, n, -, -, rfl⟩
  · exact hlocks j hj
  · exact hj

/-! ### The access matrix -/

/-- Each register but `pos`, `status` and `fault` is changed by the effects that name it only; the stream and the configuration
by none. Each frame writes `t` out as `s` with fields replaced, so the other fields are read off. -/
theorem Effect.Frame.changes {e : Effect} {s t : State} (h : e.Frame s t) :
    t.prog = s.prog ∧ t.config = s.config ∧
    (t.pen ≠ s.pen → e = .colour) ∧ (t.visualEnabled ≠ s.visualEnabled → e = .colour ∨ e = .enable) ∧
    (t.patternFlags ≠ s.patternFlags → e = .flags) ∧ (t.pal ≠ s.pal → e = .palette ∨ e = .paletteAndLocks) ∧
    (t.locked ≠ s.locked → e = .paletteAndLocks) ∧ (t.fb ≠ s.fb → e = .framebuffer) := by
  cases e <;> (rw [show t = _ from h]; simp)

/-- The instructions of each effect. -/
theorem effectOf_inverse (i : Instr) :
    (effectOf i = .colour → i = .setVisualColor) ∧ (effectOf i = .enable → i = .disableVisual) ∧
    (effectOf i = .flags → i = .setPattern) ∧ (effectOf i = .palette → i = .setEntirePalette) ∧
    (effectOf i = .paletteAndLocks → i = .setPaletteEntries ∨ i = .extendedCommand) ∧
    (effectOf i = .framebuffer → i ∈ [Instr.longLines, .mediumRelativeLines, .shortRelativeLines, .floodFill,
      .longPatterns, .shortRelativePatterns, .mediumRelativePatterns]) := by
  cases i <;> simp [effectOf]

/-- What a command does to `status` and `fault`. -/
theorem exec_status {i : Instr} {s t : State} (h : exec i s = .next t) :
    (i = .pictureEnd ∧ t.status = .halted) ∨ t.status = s.status ∨ (t.status = .faulted ∧ t.fault ≠ .noFault) := by
  by_cases hi : i = .pictureEnd
  · subst hi
    rw [pictureEndHalts] at h
    cases h
    exact .inl ⟨rfl, rfl⟩
  · obtain ⟨-, -, -, -, -, hfault, -⟩ := exec_ran hi h
    exact .inr (hfault.imp_left And.left)

/-- Settles O17: what a command changes names its effect, and each effect its instructions. -/
theorem accessMatrix : Obligations.AccessMatrix := by
  intro i s t h
  obtain ⟨hprog, hconfig, hpen, hvisual, hflags, hpal, hlocked, hfb⟩ := (exec_frame h).changes
  obtain ⟨icolour, ienable, iflags, ipalette, ientries, ifb⟩ := effectOf_inverse i
  refine ⟨hprog, hconfig, icolour ∘ hpen, fun hne => (hvisual hne).imp icolour ienable, iflags ∘ hflags, fun hne => ?pal,
    ientries ∘ hlocked, ifb ∘ hfb, fun hhalt => ?halted, fun hne => ?status⟩
  case pal =>
    rcases hpal hne with he | he
    · exact .inr (.inl (ipalette he))
    · exact (ientries he).imp_right .inr
  case halted =>
    rcases exec_status h with ⟨hi, -⟩ | hsame | ⟨hfaulted, -⟩
    · exact .inr hi
    · exact .inl (hsame ▸ hhalt)
    · rw [hfaulted] at hhalt
      cases hhalt
  case status =>
    rcases exec_status h with ⟨-, hhalt⟩ | hsame | hfaulted
    · exact .inl hhalt
    · exact absurd hsame hne
    · exact .inr hfaulted

/-! ### Every run ends -/

theorem core_run_of_step {M : Host.Core} {s t : M.State} (h : M.step s = .next t) (n : Nat) :
    M.run (n + 1) s = M.run n t := by
  rw [Host.Core.run, h]

theorem run_of_step {s t : State} (h : step s = .next t) (n : Nat) :
    Host.Core.run core (n + 1) s = Host.Core.run core n t :=
  core_run_of_step (M := core) h n

theorem step_of_stopped {s : State} (h : s.status ≠ .running) : step s = .next s := by
  unfold step
  split
  · next hrun => exact absurd hrun h
  · rfl
  · rfl

theorem run_of_stopped {s : State} (h : s.status ≠ .running) (n : Nat) : Host.Core.run core n s = .next s := by
  induction n with
  | zero => rfl
  | succ n ih => rw [run_of_step (step_of_stopped h), ih]

/-- A step of a running block stops it or leaves fewer bytes unread. -/
theorem step_stops_or_reads {s t : State} (h : step s = .next t) (hrun : s.status = .running) :
    t.status ≠ .running ∨ bytesLeft t < bytesLeft s := by
  rcases step_cases h with ⟨hstop, -⟩ | ⟨-, hpos, rfl⟩ | ⟨-, -, -, rfl⟩ | ⟨-, -, i, n, hn, hle, hexec⟩
  · exact absurd hrun hstop
  · unfold headerCheck
    split
    · exact .inl Status.noConfusion
    · exact .inr (by simp only [bytesLeft, State.prog_setPos, State.pos_setPos]; omega)
  · exact .inl Status.noConfusion
  · by_cases hi : i = .pictureEnd
    · subst hi
      rw [pictureEndHalts] at hexec
      cases hexec
      exact .inl Status.noConfusion
    · obtain ⟨-, hprog, hfwd, -⟩ := exec_ran hi hexec
      rw [State.prog_setPos] at hprog
      rw [State.pos_setPos] at hfwd
      exact .inr (by simp only [bytesLeft, hprog]; omega)

theorem run_ends (n : Nat) (s : State) (h : bytesLeft s < n) :
    ∃ t, Host.Core.run core n s = .next t ∧ t.status ≠ .running := by
  induction n generalizing s with
  | zero => omega
  | succ n ih =>
    by_cases hrun : s.status = .running
    · obtain ⟨u, hu⟩ := exists_step s
      rw [run_of_step hu]
      rcases step_stops_or_reads hu hrun with hstop | hless
      · exact ⟨u, run_of_stopped hstop n, hstop⟩
      · exact ih u (by omega)
    · exact ⟨s, run_of_stopped hrun _, hrun⟩

/-- Settles O19: the unread bytes of a block that keeps running grow fewer with every step. -/
theorem everyRunEnds : Obligations.EveryRunEnds := fun s => run_ends _ s (Nat.lt_succ_self _)

end Sys2Proof.Machine
end

section
/-! Proofs of the family 'other', the single steps: reset, the header check, fault entry, what the host reads, and the
canonical form of the framebuffer. -/

namespace Sys2Proof.Machine

/-! ### Reset and the host -/

theorem getElem_resetPalette (c : Configuration) (p : Fin 4) (k : Fin 40) :
    (resetPalette c)[40 * p.val + k.val] = defaultPen c k := by
  have hk : (40 * p.val + k.val) % 40 = k.val := by omega
  simp only [resetPalette, Vector.getElem_ofFn, hk]

theorem defaultPen_succ (c : Configuration) (k : Fin 39) : defaultPen c k.succ = c.defaultPalette[k] := by
  simp [defaultPen]

/-- Settles O8: the fields are those of `State.reset`; the palette is read off its definition. -/
theorem resetState : Obligations.ResetState := fun s =>
  ⟨rfl, rfl, rfl, fun _ _ => rfl, getElem_resetPalette s.config, rfl, defaultPen_succ s.config, rfl,
    fun j => Vector.getElem_replicate j.isLt, rfl, rfl, rfl, rfl, fun _ _ => ⟨rfl, rfl, rfl, rfl, rfl⟩⟩

/-- Settles O9: the cursor is 0, the framebuffer is the empty list, and no fault stands in a running block. -/
theorem invariantAtReset : Obligations.InvariantAtReset := fun _ _ =>
  ⟨Nat.zero_le _, wf_reset, iff_of_false Status.noConfusion fun hne => hne rfl⟩

/-- Settles O21: the condition of `hostPixel` is the premise of each clause. -/
theorem hostReadsTheResult : Obligations.HostReadsTheResult := by
  intro s p
  have halted : s.status = .halted → onCanvas p = true → hostPixel s p = some (fbGet (address p) s.fb) :=
    fun hs hp => if_pos ⟨hs, hp⟩
  refine ⟨fun hs => if_neg fun h => hs h.1, halted, ?_⟩
  rintro c stream ⟨n, -, hs⟩ hp
  exact halted hs hp

/-! ### The steps that run no instruction -/

/-- What the header check tests is whether the stream begins 0x81 0x00. -/
theorem header_iff (s : State) : (¬ (s.prog.length < 2 ∨ s.prog[0]? ≠ some hdr0 ∨ s.prog[1]? ≠ some hdr1)) ↔
    ∃ rest, s.prog = 0x81 :: 0x00 :: rest := by
  match s.prog with
  | [] => simp
  | [b] => simp
  | b :: c :: rest => simp [hdr0, hdr1]

theorem step_of_pos_zero {s : State} (hrun : s.status = .running) (hpos : s.pos = 0) : step s = .next (headerCheck s) := by
  simp only [step, hrun, hpos, if_true]

/-- Settles O11, one branch of the check for each clause. -/
theorem headerCheckStep : Obligations.HeaderCheckStep := by
  intro s hrun hpos
  rw [step_of_pos_zero hrun hpos]
  exact ⟨fun h => congrArg _ (if_neg ((header_iff s).mpr h)),
    fun h => congrArg _ (if_pos (not_not.mp fun hgood => h ((header_iff s).mp hgood)))⟩

/-- Settles O12: what is decoded at `pos` is run. -/
theorem stepRunsDecodedInstruction : Obligations.StepRunsDecodedInstruction :=
  fun _ _ _ hrun hpos hdec => step_of_fetchCommand hrun hpos hdec

/-- Settles O13: no bytes are left to decode, or the block is stopped. -/
theorem stepWithoutCommand : Obligations.StepWithoutCommand := by
  refine ⟨fun s hrun hpos hend => ?_, fun s => step_of_stopped⟩
  have hfetch : fetchCommand s = .error .endOfStream := by
    rw [fetchCommand, instructionBytes, List.drop_eq_nil_of_le hend]
    rfl
  simp only [step, hrun, hpos, hfetch, if_false]
  rfl

/-- Settles O14: fault entry is two field updates, and the codes are computed. -/
theorem faultEntryAndCodes : Obligations.FaultEntryAndCodes := ⟨fun _ _ => rfl, rfl⟩

/-! ### The canonical form is unique -/

/-- The first entry of a canonical framebuffer is not above the first of another that reads alike. -/
theorem head_le_of_fbGet_eq {k k' : Nat} {v v' : Ega} {m m' : Framebuffer} (hm : Memory.wf ((k, v) :: m) = true)
    (hm' : Memory.wf ((k', v') :: m') = true) (h : fbGet k ((k, v) :: m) = fbGet k ((k', v') :: m')) : k' ≤ k := by
  obtain ⟨-, hv, -, -⟩ := wf_cons.mp hm
  obtain ⟨-, -, habove, -⟩ := wf_cons.mp hm'
  by_contra hlt
  have hbelow : fbAbove k ((k', v') :: m') = true := fbAbove_iff.mpr fun c hc => by
    rcases List.mem_cons.mp hc with rfl | hc
    · exact Nat.lt_of_not_le hlt
    · exact Nat.lt_trans (Nat.lt_of_not_le hlt) (fbAbove_iff.mp habove c hc)
  rw [fbGet_of_above hbelow] at h
  exact hv (by simpa [fbGet] using h)

/-- A canonical framebuffer in which every cell is clear lists nothing. -/
theorem eq_nil_of_fbGet_clear {m : Framebuffer} (hm : Memory.wf m = true) (h : ∀ a, fbGet a m = background) : m = [] := by
  cases m with
  | nil => rfl
  | cons c rest =>
    obtain ⟨-, hv, -, -⟩ := wf_cons.mp hm
    exact absurd (by simpa [fbGet] using h c.1) hv

theorem eq_of_fbGet_eq {m m' : Framebuffer} (hm : Memory.wf m = true) (hm' : Memory.wf m' = true)
    (h : ∀ a, fbGet a m = fbGet a m') : m = m' := by
  induction m generalizing m' with
  | nil => exact (eq_nil_of_fbGet_clear hm' fun a => (h a).symm).symm
  | cons c rest ih =>
    cases m' with
    | nil => exact eq_nil_of_fbGet_clear hm h
    | cons c' rest' =>
      obtain ⟨k, v⟩ := c
      obtain ⟨k', v'⟩ := c'
      obtain rfl : k = k' :=
        Nat.le_antisymm (head_le_of_fbGet_eq hm' hm (h k').symm) (head_le_of_fbGet_eq hm hm' (h k))
      obtain rfl : v = v' := by simpa [fbGet] using h k
      obtain ⟨-, -, habove, hrest⟩ := wf_cons.mp hm
      obtain ⟨-, -, habove', hrest'⟩ := wf_cons.mp hm'
      have htail : ∀ a, fbGet a rest = fbGet a rest' := by
        intro a
        by_cases hak : a = k
        · rw [hak, fbGet_of_above habove, fbGet_of_above habove']
        · simpa [fbGet, hak] using h a
      rw [ih hrest hrest' htail]

/-- Settles O20, by induction on the two lists: their first entries agree, and then the rest reads alike. -/
theorem canonicalFramebufferIsUnique : Obligations.CanonicalFramebufferIsUnique := fun _ _ => eq_of_fbGet_eq

/-! ### Plotting and painting (R90, R91) -/

/-- Settles O35, in the order of the rule's tests. -/
theorem plotRule : Obligations.PlotRule := by
  intro p s
  have hcanvas : onCanvas p = true ↔ 0 ≤ p.x ∧ p.x ≤ 319 ∧ 0 ≤ p.y ∧ p.y ≤ 189 := by
    rw [onCanvas_iff]
    omega
  obtain ⟨config, prog, pos, pen, visual, flags, status, fault, pal, locked, fb⟩ := s
  cases visual with
  | false => rfl
  | true =>
    cases pen with
    | none => rfl
    | some pen =>
      show fbWrite p (eff pen p) _ = if 0 ≤ p.x ∧ p.x ≤ 319 ∧ 0 ≤ p.y ∧ p.y ≤ 189 then _ else _
      exact if_congr hcanvas rfl rfl

/-- The last of the painted pixels that share a cell is the pixel of that cell, so the cell holds its colour. -/
theorem fbGet_paint_of_mem {pen : Pen} {ps : List Point} (hps : ∀ p ∈ ps, onCanvas p = true) {m : Framebuffer}
    (hm : Memory.wf m = true) {p : Point} (hp : p ∈ ps) : fbGet (address p) (paint pen ps m) = eff pen p := by
  induction ps generalizing m with
  | nil => cases hp
  | cons q qs ih =>
    have hq := hps q (by simp)
    have hqs : ∀ r ∈ qs, onCanvas r = true := fun r hr => hps r (by simp [hr])
    rw [paint]
    by_cases hlater : p ∈ qs
    · exact ih hqs (wf_fbPut _ (address_lt hq) hm) hlater
    · obtain rfl : p = q := (List.mem_cons.mp hp).resolve_right hlater
      rw [fbGet_paint_ne fun r hr haddr => hlater (address_injective (hqs r hr) hq haddr ▸ hr), fbGet_fbPut hm,
        if_pos rfl]

/-- Settles O36. -/
theorem paintedCellsHoldEffectiveColours : Obligations.PaintedCellsHoldEffectiveColours := by
  intro pen ps m hm hps
  refine ⟨wf_paint hps hm, fun p hp => fbGet_paint_of_mem hps hm hp, fun q hq hnot => ?_⟩
  exact fbGet_paint_ne (fun p hp haddr => hnot (address_injective (hps p hp) hq haddr ▸ hp)) m

end Sys2Proof.Machine
end

section
/-! Proofs of the family 'other', the colour commands (R72, R73, R121) and the illegal first bytes (R163). -/

namespace Sys2Proof.Machine

/-! ### Setting a register from one byte -/

theorem exec_setVisualColor_of_some {s : State} {c : Byte} (h : s.prog[s.pos]? = some c) : exec .setVisualColor s =
    ((checkSlot c (s.setPos (s.pos + 1))).bind fun c s => .done () (loadPen c s)).outcome := by
  rw [exec_eq_flowOf, flowOf, fetch_of_some h, Flow.bind_done]

/-- The pen of the slot that the lock coercion selects (R72, R143). -/
theorem getElem_coerceSlot (s : State) (c : Fin 160) : s.pal[coerceSlot c s] =
    if s.locked[c.val % 40]'(by omega) = true then s.pal[c.val % 40]'(by omega) else s.pal[c] := by
  unfold coerceSlot
  split <;> rfl

/-- Settles O22: the byte is fetched, checked, coerced and loaded, in that order. -/
theorem setVisualColorRule : Obligations.SetVisualColorRule := by
  refine ⟨fun s c hc hb => ?loads, fun s c hc hb => ?refused, fun s hend => ?ended, fun c => ?nibbles, fun p => ?inverse⟩
  case loads =>
    rw [exec_setVisualColor_of_some hb, checkSlot, dif_pos hc, Flow.bind_done, Flow.outcome_done, loadPen,
      getElem_coerceSlot]
    rfl
  case refused =>
    rw [exec_setVisualColor_of_some hb, checkSlot, dif_neg (by omega)]
    rfl
  case ended =>
    rw [exec_eq_flowOf, flowOf, fetch_of_none (List.getElem?_eq_none hend)]
    rfl
  case nibbles => exact ⟨toNat_hiNibble c, toNat_loNibble c⟩
  case inverse =>
    have nibbles : ∀ a b : Ega, penOfByte (a ++ b) = ⟨a, b⟩ := by decide
    exact nibbles p.a p.b

/-- Settles O23: the meaning of `disableVisual` is the one write. -/
theorem disableVisualRule : Obligations.DisableVisualRule := fun _ => rfl

/-- Settles O53. -/
theorem setPatternRule : Obligations.SetPatternRule := by
  refine ⟨fun s b hb => ?_, fun s hend => ?_⟩
  · rw [exec_eq_flowOf, flowOf, fetch_of_some hb]
    rfl
  · rw [exec_eq_flowOf, flowOf, fetch_of_none (List.getElem?_eq_none hend)]
    rfl

/-! ### The illegal first bytes (R62, R163) -/

/-- The rows of the opcode table for a first byte that is no command. -/
def unknownOpcodeRows (b : Byte) : List Instr :=
  [.unknownOpcode007F b, .unknownOpcode80BF b, .unknownOpcodeC0DF b, .unknownOpcodeE0EF b]

theorem exec_of_mem_unknownOpcodeRows {b : Byte} {i : Instr} (hi : i ∈ unknownOpcodeRows b) (s : State) :
    exec i s = .next (takeFault .unknownOpcode s) := by
  simp only [unknownOpcodeRows, List.mem_cons, List.not_mem_nil, or_false] at hi
  rcases hi with rfl | rfl | rfl | rfl <;> rfl

theorem lookupRow_unknownOpcode :
    ∀ b : Byte, b.toNat < 0xF0 → ∃ i ∈ unknownOpcodeRows b, lookupRow oneByteRows b = some i := by
  decide

/-- A well-formed instruction of one of these rows holds a byte below 0xF0, which is all of its encoding. -/
theorem encode_of_mem_unknownOpcodeRows {b : Byte} {i : Instr} (hi : i ∈ unknownOpcodeRows b) (hwf : i.wellFormed = true) :
    encode i = [b] ∧ b.toNat < 0xF0 := by
  simp only [unknownOpcodeRows, List.mem_cons, List.not_mem_nil, or_false] at hi
  rcases hi with rfl | rfl | rfl | rfl <;>
    (simp only [Instr.wellFormed, byteIn, Bool.and_eq_true, decide_eq_true_eq] at hwf; exact ⟨rfl, by omega⟩)

theorem decode_ne_unknownOpcode {b c : Byte} (hb : 0xF0 ≤ b.toNat) (rest : List Byte) (n : Nat) {i : Instr}
    (hi : i ∈ unknownOpcodeRows c) : decode (b :: rest) ≠ .ok (i, n) := by
  intro hdec
  obtain ⟨hwf, htake, hn, -⟩ := decode_ok hdec
  obtain ⟨henc, hc⟩ := encode_of_mem_unknownOpcodeRows hi hwf
  obtain ⟨m, rfl⟩ := Nat.exists_eq_add_of_lt hn
  rw [henc, Nat.zero_add, List.take_succ_cons] at htake
  obtain rfl : c = b := (List.cons.inj htake).1
  omega

/-- Settles O27: such a byte decodes to one of the four rows, each of which is fault entry; and a row's byte is the byte
decoded. -/
theorem unknownOpcodeFaults : Obligations.UnknownOpcodeFaults := by
  refine ⟨fun s b hrun hpos hb hlt => ?_, fun s b => ⟨rfl, rfl, rfl, rfl⟩, fun b c rest n hb => ?_⟩
  · obtain ⟨i, hi, hrow⟩ := lookupRow_unknownOpcode b hlt
    have hne : b ≠ extendedOpcode := by
      rintro rfl
      exact absurd hlt (by decide)
    have hdec : fetchCommand s = .ok (i, 1) := by
      obtain ⟨hpos, hval⟩ := List.getElem?_eq_some_iff.mp hb
      rw [fetchCommand, instructionBytes, List.drop_eq_getElem_cons hpos, hval, decode_of_ne_extended hne]
      simp [decode, decodeOne, hrow]
    rw [step_of_fetchCommand hrun hpos hdec]
    exact exec_of_mem_unknownOpcodeRows hi _
  · exact ⟨decode_ne_unknownOpcode hb rest n (by simp [unknownOpcodeRows] : _ ∈ unknownOpcodeRows c),
      decode_ne_unknownOpcode hb rest n (by simp [unknownOpcodeRows] : _ ∈ unknownOpcodeRows c),
      decode_ne_unknownOpcode hb rest n (by simp [unknownOpcodeRows] : _ ∈ unknownOpcodeRows c),
      decode_ne_unknownOpcode hb rest n (by simp [unknownOpcodeRows] : _ ∈ unknownOpcodeRows c)⟩

end Sys2Proof.Machine
end

section
/-! Proofs of the family 'other', repeated payloads (R54): one element after another of a payload that stands at `pos`. -/

namespace Sys2Proof.Machine

theorem drop_append {s : State} {bs rest : List Byte} (h : s.prog.drop s.pos = bs ++ rest) :
    s.prog.drop (s.pos + bs.length) = rest := by
  rw [← List.drop_drop, h, List.drop_left]

theorem nextIsCommand_of_starts {s : State} {bs rest : List Byte} (hdrop : s.prog.drop s.pos = bs ++ rest)
    (h : StartsElement bs) : nextIsCommand s = false := by
  obtain ⟨b, more, rfl, hb⟩ := h
  rw [nextIsCommand_of_some (drop_cons hdrop).1]
  exact decide_eq_false (Nat.not_le_of_lt hb)

theorem nextIsCommand_of_endsBefore {s : State} {rest : List Byte} (hdrop : s.prog.drop s.pos = rest)
    (h : endsBefore rest) : nextIsCommand s = true := by
  cases rest with
  | nil => exact nextIsCommand_of_length_le (List.drop_eq_nil_iff.mp hdrop)
  | cons b bs =>
    rw [nextIsCommand_of_some (drop_cons hdrop).1]
    exact decide_eq_true (h b rfl)

theorem StartsElement.append {bs : List Byte} (h : StartsElement bs) (cs : List Byte) : StartsElement (bs ++ cs) := by
  obtain ⟨b, more, rfl, hb⟩ := h
  exact ⟨b, more ++ cs, rfl, hb⟩

theorem startsElement_cons {b : Byte} (h : b.toNat < 0xF0) (bs : List Byte) : StartsElement (b :: bs) := ⟨b, bs, rfl, h⟩

section
variable {α : Type} {element : α → State → Flow α}

/-- The next byte begins an element, which is run first. -/
theorem whileElements_starts (hadv : Advances element) (a : α) {s : State} {bs rest : List Byte}
    (hdrop : s.prog.drop s.pos = bs ++ rest) (h : StartsElement bs) :
    whileElements element a s = (element a s).bind (whileElements element) := by
  rw [whileElements_unfold hadv, nextIsCommand_of_starts hdrop h]
  rfl

theorem whileElements_endsBefore (a : α) {s : State} {rest : List Byte} (hdrop : s.prog.drop s.pos = rest)
    (h : endsBefore rest) : whileElements element a s = .done a s :=
  whileElements_end (nextIsCommand_of_endsBefore hdrop h) a

end

end Sys2Proof.Machine
end

section
/-! Proofs of the family 'other', the palette commands (R142, R144) and the skipped payloads (R146). -/

namespace Sys2Proof.Machine

/-! ### Skipping (R146) -/

/-- The bytes below 0xF0 from `pos` on, which a skip passes over. -/
def skipped (s : State) : List Byte := (s.prog.drop s.pos).takeWhile fun b => decide (b.toNat < 0xF0)

/-- The skip, byte by byte along the unread stream. -/
theorem skipPayload_of_drop {s : State} {bs : List Byte} (hdrop : s.prog.drop s.pos = bs) : skipPayload s =
    .done () (s.setPos (s.pos + (bs.takeWhile fun b => decide (b.toNat < 0xF0)).length)) := by
  induction bs generalizing s with
  | nil => exact whileElements_endsBefore () hdrop (fun b hb => by cases hb)
  | cons b bs ih =>
    by_cases hb : b.toNat < 0xF0
    · have hstep : skipPayload s = skipPayload (s.setPos (s.pos + 1)) := by
        show whileElements skipByte () s = _
        rw [whileElements_starts advances_skipByte () (bs := [b]) hdrop (startsElement_cons hb [])]
        simp only [skipByte, discardByte, fetch_of_drop hdrop]
        rfl
      rw [hstep, ih (drop_cons hdrop).2, List.takeWhile_cons_of_pos (by simpa using hb), List.length_cons]
      simp only [State.pos_setPos, State.setPos_setPos, Nat.add_assoc, Nat.add_comm 1]
    · rw [List.takeWhile_cons_of_neg (by simpa using hb)]
      refine whileElements_endsBefore () hdrop fun c hc => ?_
      obtain rfl : b = c := Option.some.inj hc
      exact Nat.le_of_not_lt hb

/-- Settles O30: the seven rows are the skip, and so is the dispatch on their sub-opcodes. -/
theorem skippedPayload : Obligations.SkippedPayload := by
  refine ⟨fun i s hi => ?_, fun s sub hb hlo hhi => ?_⟩
  · rw [exec_skipping hi, skipPayload_of_drop rfl]
    rfl
  · rw [exec_extendedCommand_of_some hb, dispatchExtended_of_two_le hlo, if_pos hhi, skipPayload_of_drop rfl]
    rfl

/-! ### Writing slots one after another -/

/-- The slots of a list of pairs written in turn. -/
def writeSlots : List (Fin 160 × Byte) → State → State
  | [], s => s
  | e :: es, s => writeSlots es (writeSlot e.1 e.2 s)

theorem pal_writeSlot (j : Fin 160) (c : Byte) (s : State) (i : Fin 160) :
    (writeSlot j c s).pal[i] = if j = i then c else s.pal[i] := by
  simp [writeSlot, Vector.getElem_set, Fin.ext_iff]

@[simp] theorem pal_lockSlot (i : Fin 160) (s : State) : (lockSlot i s).pal = s.pal := by
  unfold lockSlot
  split <;> rfl

theorem locked_lockSlot (i : Fin 160) (s : State) (j : Fin 40) :
    (lockSlot i s).locked[j] = (s.locked[j] || decide (i.val = j.val)) := by
  unfold lockSlot
  split
  · simp only [Fin.getElem_fin, State.locked_setLocked, Vector.getElem_set]
    split <;> simp_all
  · next h =>
    have : i.val ≠ j.val := by omega
    simp [this]

theorem writeSlots_eq (es : List (Fin 160 × Byte)) (s : State) : writeSlots es s = s.setPal (writeSlots es s).pal := by
  induction es generalizing s with
  | nil => rfl
  | cons e es ih =>
    rw [writeSlots, ih]
    rfl

theorem writeSlots_setPos (es : List (Fin 160 × Byte)) (s : State) (n : Nat) :
    writeSlots es (s.setPos n) = (writeSlots es s).setPos n := by
  induction es generalizing s with
  | nil => rfl
  | cons e es ih => exact ih (writeSlot e.1 e.2 s)

theorem pal_writeSlots_of_notMem {es : List (Fin 160 × Byte)} {i : Fin 160} (h : i ∉ es.map Prod.fst) (s : State) :
    (writeSlots es s).pal[i] = s.pal[i] := by
  induction es generalizing s with
  | nil => rfl
  | cons e es ih =>
    rw [List.map_cons, List.mem_cons, not_or] at h
    rw [writeSlots, ih h.2, pal_writeSlot, if_neg (Ne.symm h.1)]

theorem pal_writeSlots_of_mem {es : List (Fin 160 × Byte)} (hnd : (es.map Prod.fst).Nodup) {i : Fin 160} {c : Byte}
    (h : (i, c) ∈ es) (s : State) : (writeSlots es s).pal[i] = c := by
  induction es generalizing s with
  | nil => cases h
  | cons e es ih =>
    rw [List.map_cons, List.nodup_cons] at hnd
    rw [writeSlots]
    rcases List.mem_cons.mp h with rfl | h
    · rw [pal_writeSlots_of_notMem hnd.1, pal_writeSlot, if_pos rfl]
    · exact ih hnd.2 h _

/-! ### `setPaletteEntries` (R142) -/

theorem writeEntry_setPos (i : Fin 160) (c : Byte) (s : State) (n : Nat) :
    writeEntry i c (s.setPos n) = (writeEntry i c s).setPos n := by
  unfold writeEntry lockSlot
  split <;> rfl

theorem writeEntries_setPos (es : List (Fin 160 × Byte)) (s : State) (n : Nat) :
    writeEntries es (s.setPos n) = (writeEntries es s).setPos n := by
  induction es generalizing s with
  | nil => rfl
  | cons e es ih => rw [writeEntries, writeEntry_setPos, ih, writeEntries]

theorem writeEntry_eq (i : Fin 160) (c : Byte) (s : State) : writeEntry i c s =
    { s with pal := (writeEntry i c s).pal, locked := (writeEntry i c s).locked } := by
  unfold writeEntry lockSlot
  split <;> rfl

theorem writeEntries_eq (es : List (Fin 160 × Byte)) (s : State) : writeEntries es s =
    { s with pal := (writeEntries es s).pal, locked := (writeEntries es s).locked } := by
  induction es generalizing s with
  | nil => rfl
  | cons e es ih =>
    rw [writeEntries, ih, writeEntry_eq]

/-- A slot holds the last byte written to it. -/
theorem pal_writeEntries (es : List (Fin 160 × Byte)) (s : State) (i : Fin 160) : (writeEntries es s).pal[i] =
    ((es.reverse.find? fun e => e.1 == i).map Prod.snd).getD s.pal[i] := by
  induction es generalizing s with
  | nil => rfl
  | cons e es ih =>
    rw [writeEntries, ih, List.reverse_cons, List.find?_append, writeEntry, pal_lockSlot, pal_writeSlot]
    cases es.reverse.find? fun e => e.1 == i with
    | some e' => rfl
    | none => by_cases he : e.1 = i <;> simp [he]

theorem locked_writeEntries (es : List (Fin 160 × Byte)) (s : State) (j : Fin 40) :
    (writeEntries es s).locked[j] = (s.locked[j] || es.any fun e => e.1.val == j.val) := by
  induction es generalizing s with
  | nil => simp [writeEntries]
  | cons e es ih =>
    rw [writeEntries, ih, writeEntry, locked_lockSlot, List.any_cons, Bool.or_assoc]
    rfl

theorem entryBytes_cons (e : Fin 160 × Byte) (es : List (Fin 160 × Byte)) :
    entryBytes (e :: es) = BitVec.ofNat 8 e.1.val :: e.2 :: entryBytes es := rfl

theorem length_entryBytes (es : List (Fin 160 × Byte)) : (entryBytes es).length = 2 * es.length := by
  induction es with
  | nil => rfl
  | cons e es ih =>
    rw [entryBytes_cons]
    simp only [List.length_cons, ih]
    omega

theorem toNat_slotByte (i : Fin 160) : (BitVec.ofNat 8 i.val).toNat = i.val := by
  rw [BitVec.toNat_ofNat]
  omega

/-- A pair at `pos`: both bytes are fetched before the slot is checked. -/
theorem paletteEntry_of_drop {s : State} {i c : Byte} {rest : List Byte} (hdrop : s.prog.drop s.pos = i :: c :: rest) :
    paletteEntry () s =
      (checkSlot i (s.setPos (s.pos + 2))).bind fun i s => .done () (writeEntry i c s) := by
  have hdrop' : (s.setPos (s.pos + 1)).prog.drop (s.setPos (s.pos + 1)).pos = c :: rest := (drop_cons hdrop).2
  simp only [paletteEntry, fetch_of_drop hdrop, Flow.bind_done, fetch_of_drop hdrop']
  rfl

/-- The pairs before the rest of the payload are written in turn. -/
theorem whileElements_entries {es : List (Fin 160 × Byte)} {s : State} {rest : List Byte}
    (hdrop : s.prog.drop s.pos = entryBytes es ++ rest) :
    whileElements paletteEntry () s =
      whileElements paletteEntry () ((writeEntries es s).setPos (s.pos + 2 * es.length)) := by
  induction es generalizing s with
  | nil => rfl
  | cons e es ih =>
    have hslot : (BitVec.ofNat 8 e.1.val).toNat < 160 := by
      rw [toNat_slotByte]
      exact e.1.isLt
    have helem : paletteEntry () s = .done () (writeEntry e.1 e.2 (s.setPos (s.pos + 2))) := by
      rw [paletteEntry_of_drop hdrop, checkSlot, dif_pos hslot]
      simp only [Flow.bind_done, toNat_slotByte]
    rw [whileElements_starts advances_paletteEntry () (bs := [BitVec.ofNat 8 e.1.val, e.2]) hdrop
      (startsElement_cons (by omega) _), helem, Flow.bind_done, ih, writeEntry_setPos, writeEntries_setPos, writeEntries]
    · simp only [State.pos_setPos, State.setPos_setPos, List.length_cons]
      rw [show s.pos + 2 + 2 * es.length = s.pos + 2 * (es.length + 1) by omega]
    · rw [pos_writeEntry, prog_writeEntry]
      exact drop_append (bs := [BitVec.ofNat 8 e.1.val, e.2]) hdrop

theorem prog_writeEntries (es : List (Fin 160 × Byte)) (s : State) : (writeEntries es s).prog = s.prog := by
  rw [writeEntries_eq]

/-- Where the pairs stand at `pos`, the command goes on with what stands after them. -/
theorem exec_setPaletteEntries_of_drop {es : List (Fin 160 × Byte)} {s : State} {rest : List Byte}
    (hdrop : s.prog.drop s.pos = entryBytes es ++ rest) : ∃ t, t = (writeEntries es s).setPos (s.pos + 2 * es.length) ∧
      t.prog.drop t.pos = rest ∧ exec .setPaletteEntries s = (whileElements paletteEntry () t).outcome := by
  refine ⟨_, rfl, ?_, ?_⟩
  · rw [State.prog_setPos, prog_writeEntries, State.pos_setPos, ← length_entryBytes]
    exact drop_append hdrop
  · rw [← whileElements_entries hdrop]
    rfl

/-- Settles O31: the pairs are written in turn, and the loop ends after them. -/
theorem setPaletteEntriesWrites : Obligations.SetPaletteEntriesWrites := by
  rintro s es ⟨rest, hdrop, hend⟩
  refine ⟨?_, writeEntries_eq es s, fun i => ?_, locked_writeEntries es s⟩
  · obtain ⟨t, rfl, hrest, hexec⟩ := exec_setPaletteEntries_of_drop hdrop
    rw [hexec, whileElements_endsBefore () hrest hend]
    rfl
  · rw [pal_writeEntries]
    cases es.reverse.find? fun e => e.1 == i <;> rfl

/-! ### `setEntirePalette` (R144) -/

/-- A colour byte for each of the first slots is written in turn, whatever slots are still to come. -/
theorem loadSlots_append {is : List (Fin 160)} (js : List (Fin 160)) {cs : List Byte} (hlen : cs.length = is.length)
    {s : State} {rest : List Byte} (hdrop : s.prog.drop s.pos = cs ++ rest) :
    loadSlots (is ++ js) s = loadSlots js ((writeSlots (is.zip cs) s).setPos (s.pos + cs.length)) := by
  induction is generalizing cs s with
  | nil =>
    obtain rfl := List.length_eq_zero_iff.mp hlen
    rfl
  | cons i is ih =>
    obtain ⟨c, cs, rfl⟩ := List.exists_cons_of_length_eq_add_one hlen
    have hrest : (writeSlot i c (s.setPos (s.pos + 1))).prog.drop (writeSlot i c (s.setPos (s.pos + 1))).pos = cs ++ rest :=
      (drop_cons hdrop).2
    have hwrite : writeSlots (is.zip cs) (writeSlot i c (s.setPos (s.pos + 1))) =
        (writeSlots ((i, c) :: is.zip cs) s).setPos (s.pos + 1) := writeSlots_setPos _ (writeSlot i c s) _
    rw [List.cons_append, loadSlots, fetch_of_drop hdrop, Flow.bind_done, ih (by simpa using hlen) hrest, hwrite,
      List.zip_cons_cons, State.setPos_setPos, List.length_cons, Nat.add_comm cs.length, ← Nat.add_assoc]
    rfl

theorem getElem_bankSlots (p : Fin 4) {k : Nat} (h : k < (bankSlots p).length) :
    ((bankSlots p)[k]).val = 40 * p.val + k := by
  simp only [bankSlots, List.getElem_ofFn]

@[simp] theorem length_bankSlots (p : Fin 4) : (bankSlots p).length = 40 := by simp [bankSlots]

theorem nodup_bankSlots (p : Fin 4) : (bankSlots p).Nodup :=
  List.nodup_ofFn_ofInjective fun j k h => by
    have := congrArg Fin.val h
    simp only at this
    omega

theorem mem_bankSlots {p : Fin 4} {i : Fin 160} (h : i ∈ bankSlots p) : i.val / 40 = p.val := by
  obtain ⟨k, hk, rfl⟩ := List.mem_iff_getElem.mp h
  rw [getElem_bankSlots]
  rw [length_bankSlots] at hk
  omega

/-- Only the first slots of the bank meet a byte. -/
theorem take_bankSlots_zip (p : Fin 4) {cs : List Byte} (hlen : cs.length ≤ 40) :
    ((bankSlots p).take cs.length).zip cs = (bankSlots p).zip cs := by
  rw [List.zip_eq_zip_take_min (l₁ := bankSlots p), length_bankSlots, Nat.min_eq_right hlen, List.take_length]

/-- The bank after its first colour bytes: the slots they reach hold them, the others are as before. -/
theorem pal_writeSlots_bank (p : Fin 4) {cs : List Byte} (hlen : cs.length ≤ 40) (s : State) (i : Fin 160) :
    (writeSlots ((bankSlots p).zip cs) s).pal[i] =
      if h : i.val / 40 = p.val ∧ i.val % 40 < cs.length then cs[i.val % 40]'h.2 else s.pal[i] := by
  have hkeys : ((bankSlots p).zip cs).map Prod.fst = (bankSlots p).take cs.length := by
    rw [← take_bankSlots_zip p hlen, List.map_fst_zip (by simp)]
  split
  · next h =>
    have hk : i.val % 40 < ((bankSlots p).zip cs).length := by
      rw [List.length_zip, length_bankSlots]
      omega
    have hslot : (bankSlots p)[i.val % 40]'(by rw [length_bankSlots]; omega) = i := by
      rw [Fin.ext_iff, getElem_bankSlots]
      omega
    refine pal_writeSlots_of_mem (hkeys ▸ (nodup_bankSlots p).sublist (List.take_sublist _ _)) ?_ s
    exact List.mem_iff_getElem.mpr ⟨i.val % 40, hk, by rw [List.getElem_zip]; exact congrArg (·, _) hslot⟩
  · next h =>
    refine pal_writeSlots_of_notMem (fun hmem => h ?_) s
    rw [hkeys] at hmem
    refine ⟨mem_bankSlots (List.mem_of_mem_take hmem), ?_⟩
    obtain ⟨k, hk, hki⟩ := List.mem_iff_getElem.mp hmem
    rw [List.length_take, length_bankSlots] at hk
    rw [List.getElem_take] at hki
    have := getElem_bankSlots p (k := k) (by rw [length_bankSlots]; omega)
    rw [hki] at this
    omega

theorem exec_setEntirePalette_of_drop {s : State} {p : Fin 4} {bs : List Byte}
    (hdrop : s.prog.drop s.pos = BitVec.ofNat 8 p.val :: bs) :
    exec .setEntirePalette s = (loadSlots (bankSlots p) (s.setPos (s.pos + 1))).outcome := by
  have hbank : (BitVec.ofNat 8 p.val).toNat = p.val := by
    rw [BitVec.toNat_ofNat]
    omega
  show ((fetch s).bind fun p s => (checkBank p s).bind fun p s => loadSlots (bankSlots p) s).outcome = _
  rw [fetch_of_drop hdrop, Flow.bind_done, checkBank, dif_pos (by omega), Flow.bind_done]
  simp only [hbank]

/-- Settles O32: the forty slots of the bank take the forty bytes. -/
theorem setEntirePaletteWrites : Obligations.SetEntirePaletteWrites := by
  rintro s p cs ⟨rest, hdrop⟩
  have hlen : cs.toList.length = 40 := Vector.length_toList
  have hrest : (s.setPos (s.pos + 1)).prog.drop (s.setPos (s.pos + 1)).pos = cs.toList ++ rest := (drop_cons hdrop).2
  have hload := loadSlots_append (is := bankSlots p) [] (by rw [hlen, length_bankSlots]) hrest
  rw [List.append_nil] at hload
  refine ⟨(writeSlots ((bankSlots p).zip cs.toList) (s.setPos (s.pos + 1))).setPos (s.pos + 41), ?_, ?_, fun i => ?_⟩
  · rw [exec_setEntirePalette_of_drop hdrop, hload, hlen]
    rfl
  · rw [writeSlots_eq]
    rfl
  · rw [State.pal_setPos, pal_writeSlots_bank p hlen.le]
    have : i.val % 40 < cs.toList.length := by omega
    simp only [this, and_true, Vector.getElem_toList]
    rfl

/-! ### The faults of the palette commands (spec/60_exceptions.md section 3) -/

/-- A pair whose second byte is missing. -/
theorem paletteEntry_of_one {s : State} {i : Byte} (hdrop : s.prog.drop s.pos = [i]) :
    paletteEntry () s = .raised (takeFault .unexpectedEnd (s.setPos (s.pos + 1))) := by
  have hend : (s.setPos (s.pos + 1)).prog[(s.setPos (s.pos + 1)).pos]? = none :=
    List.getElem?_eq_none (List.drop_eq_nil_iff.mp (drop_cons hdrop).2)
  simp only [paletteEntry, fetch_of_drop hdrop, Flow.bind_done, fetch_of_none hend, Flow.bind_raised]

/-- Too few colour bytes: those there are are written. -/
theorem loadSlots_cut {p : Fin 4} {cs : List Byte} (hlen : cs.length < 40) {s : State} (hdrop : s.prog.drop s.pos = cs) :
    loadSlots (bankSlots p) s =
      .raised (takeFault .unexpectedEnd ((writeSlots ((bankSlots p).zip cs) s).setPos (s.pos + cs.length))) := by
  have hload := loadSlots_append (is := (bankSlots p).take cs.length) ((bankSlots p).drop cs.length)
    (cs := cs) (by rw [List.length_take, length_bankSlots]; omega) (s := s) (rest := []) (by rw [hdrop, List.append_nil])
  rw [List.take_append_drop, take_bankSlots_zip p hlen.le] at hload
  rw [hload, List.drop_eq_getElem_cons (by rw [length_bankSlots]; exact hlen), loadSlots, fetch_of_none, Flow.bind_raised]
  rw [writeSlots_eq]
  refine List.getElem?_eq_none ?_
  have := congrArg List.length hdrop
  rw [List.length_drop] at this
  simp only [State.prog_setPos, State.pos_setPos, State.prog_setPal]
  omega

theorem pos_add_length {s : State} {bs : List Byte} (hdrop : s.prog.drop s.pos = bs) (hne : bs ≠ []) :
    s.pos + bs.length = s.prog.length := by
  have hlen := congrArg List.length hdrop
  have hpos := List.length_pos_of_ne_nil hne
  rw [List.length_drop] at hlen
  omega

/-- Settles O33, clause by clause: what stands before the fault is written as in O31 and O32, then the pair, the bank byte or
the missing byte raises. -/
theorem paletteCommandFaults : Obligations.PaletteCommandFaults := by
  refine ⟨?slot, ?cutPair, ?bank, ?cutBank, ?noBank⟩
  case slot =>
    rintro s es i c ⟨rest, hdrop⟩ hlo hhi
    rw [List.append_assoc] at hdrop
    obtain ⟨t, rfl, hrest, hexec⟩ := exec_setPaletteEntries_of_drop hdrop
    rw [hexec, whileElements_starts advances_paletteEntry () hrest (startsElement_cons hhi _), paletteEntry_of_drop hrest,
      checkSlot, dif_neg (by omega)]
    rfl
  case cutPair =>
    intro s es i hdrop hi
    obtain ⟨t, rfl, hrest, hexec⟩ := exec_setPaletteEntries_of_drop hdrop
    have hpos := pos_add_length hdrop (by simp)
    rw [List.length_append, length_entryBytes, List.length_singleton] at hpos
    rw [hexec, whileElements_starts advances_paletteEntry () (bs := [i]) (rest := []) hrest (startsElement_cons hi _),
      paletteEntry_of_one hrest, ← hpos]
    rfl
  case bank =>
    intro s p hp hbank
    show ((fetch s).bind fun p s => (checkBank p s).bind fun p s => loadSlots (bankSlots p) s).outcome = _
    rw [fetch_of_some hp, Flow.bind_done, checkBank, dif_neg (by omega)]
    rfl
  case cutBank =>
    intro s p cs hdrop hlen
    refine ⟨takeFault .unexpectedEnd ((writeSlots ((bankSlots p).zip cs) (s.setPos (s.pos + 1))).setPos
      (s.pos + 1 + cs.length)), ?_, ?_, fun i => pal_writeSlots_bank p hlen.le (s.setPos (s.pos + 1)) i⟩
    · rw [exec_setEntirePalette_of_drop hdrop, loadSlots_cut hlen (drop_cons hdrop).2]
      rfl
    · have hpos := pos_add_length hdrop (by simp)
      rw [List.length_cons] at hpos
      rw [writeSlots_eq, ← hpos, Nat.add_right_comm]
      rfl
  case noBank =>
    intro s hend
    show ((fetch s).bind fun p s => (checkBank p s).bind fun p s => loadSlots (bankSlots p) s).outcome = _
    rw [fetch_of_none (List.getElem?_eq_none hend)]
    rfl

end Sys2Proof.Machine
end

section
/-! Proofs of the family 'other', the pixels of a line (R94, R95): the loop in closed form, and what follows from it. -/

namespace Sys2Proof.Machine

/-! ### The offset along the shorter axis -/

/-- After `k` steps along an axis of length `a`, the offset along an axis of length `b`: `k * b / a` to the nearest, halves
up. -/
def rise (a b k : Nat) : Nat := (2 * k * b + a) / (2 * a)

theorem rise_bounds {a : Nat} (ha : 0 < a) (b k : Nat) :
    2 * a * rise a b k ≤ 2 * k * b + a ∧ 2 * k * b + a < 2 * a * rise a b k + 2 * a :=
  ⟨Nat.mul_div_le _ _, Nat.lt_mul_div_succ _ (by omega)⟩

theorem rise_eq_of_bounds {a b k j : Nat} (hlo : 2 * a * j ≤ 2 * k * b + a) (hhi : 2 * k * b + a < 2 * a * j + 2 * a) :
    rise a b k = j :=
  Nat.div_eq_of_lt_le (by linarith) (by linarith)

@[simp] theorem rise_zero {a : Nat} (b : Nat) : rise a b 0 = 0 := by
  rcases Nat.eq_zero_or_pos a with rfl | ha
  · simp [rise]
  · exact rise_eq_of_bounds (by omega) (by omega)

/-- At the end of the longer axis the whole shorter one is done. -/
theorem rise_self {a b : Nat} (hb : b ≤ a) : rise a b a = b := by
  rcases Nat.eq_zero_or_pos a with rfl | ha
  · simp [rise, Nat.le_zero.mp hb]
  · exact rise_eq_of_bounds (by linarith [Nat.mul_comm a b]) (by linarith [Nat.mul_comm a b])

theorem rise_flat (a k : Nat) : rise a 0 k = 0 := by
  rcases Nat.eq_zero_or_pos a with rfl | ha
  · simp [rise]
  · exact rise_eq_of_bounds (by omega) (by omega)

theorem rise_diagonal {a : Nat} (ha : 0 < a) (k : Nat) : rise a a k = k :=
  rise_eq_of_bounds (by linarith [Nat.mul_comm a k]) (by linarith [Nat.mul_comm a k])

/-- One step on, the offset grows by one exactly where the loop's second test holds. -/
theorem rise_succ {a b : Nat} (ha : 0 < a) (hb : b ≤ a) (k : Nat) : rise a b (k + 1) =
    if 2 * a * (rise a b k + 1) ≤ 2 * (k + 1) * b + a then rise a b k + 1 else rise a b k := by
  obtain ⟨hlo, hhi⟩ := rise_bounds ha b k
  split
  · next h => exact rise_eq_of_bounds h (by linarith)
  · next h => exact rise_eq_of_bounds (by linarith) (by linarith)

theorem rise_le {a b k : Nat} (hb : b ≤ a) (hk : k ≤ a) : rise a b k ≤ b := by
  calc rise a b k ≤ rise a b a := Nat.div_le_div_right (by gcongr)
    _ = b := rise_self hb

/-! ### The loop where the distance in `x` is the longer -/

/-- Pixel `k` of a line from `p` in the directions `sx`, `sy`, the longer axis being that of `x`. -/
def shallowPoint (p : Point) (sx sy : Int) (a b k : Nat) : Point := ⟨p.x + sx * k, p.y + sy * rise a b k⟩

/-- The shape of the line from `p` over the distances `a` and `b` in the directions `sx`, `sy`. -/
def shapeFrom (p : Point) (sx sy : Int) (a b : Nat) : LineShape := ⟨a, -b, sx, sy, ⟨p.x + sx * a, p.y + sy * b⟩⟩

/-- The loop's error term after `k` steps. -/
def shallowError (a b k : Nat) : Int := a * (rise a b k + 1) - b * (k + 1)

/-- A turn of the loop, its two tests taken apart. -/
theorem lineStep_eq (l : LineShape) (err : Int) (p : Point) : lineStep l err p =
    (err + (if l.dy ≤ 2 * err then l.dy else 0) + (if 2 * err ≤ l.dx then l.dx else 0),
      ⟨p.x + (if l.dy ≤ 2 * err then l.sx else 0), p.y + (if 2 * err ≤ l.dx then l.sy else 0)⟩) := by
  by_cases hx : l.dy ≤ 2 * err
  · by_cases hy : 2 * err ≤ l.dx <;> simp [lineStep, hx, hy]
  · by_cases hy : 2 * err ≤ l.dx <;> simp [lineStep, hx, hy]

/-- One turn of the loop goes from pixel `k` to the next: the first test always holds, and the second exactly where the
offset grows. -/
theorem lineStep_shallow (p : Point) (sx sy : Int) {a b : Nat} (ha : 0 < a) (hb : b ≤ a) (k : Nat) :
    lineStep (shapeFrom p sx sy a b) (shallowError a b k) (shallowPoint p sx sy a b k) =
      (shallowError a b (k + 1), shallowPoint p sx sy a b (k + 1)) := by
  have hlt := (rise_bounds ha b k).2
  have hx : (shapeFrom p sx sy a b).dy ≤ 2 * shallowError a b k := by
    simp only [shapeFrom, shallowError]
    zify at hlt hb
    linarith
  have hy : 2 * shallowError a b k ≤ (shapeFrom p sx sy a b).dx ↔ 2 * a * (rise a b k + 1) ≤ 2 * (k + 1) * b + a := by
    simp only [shapeFrom, shallowError]
    zify
    constructor
    · intro h; linarith
    · intro h; linarith
  rw [lineStep_eq, if_pos hx, if_pos hx]
  by_cases hgrow : 2 * a * (rise a b k + 1) ≤ 2 * (k + 1) * b + a
  · rw [if_pos (hy.mpr hgrow), if_pos (hy.mpr hgrow)]
    simp only [shapeFrom, shallowError, shallowPoint, rise_succ ha hb k, if_pos hgrow, Prod.mk.injEq, Point.mk.injEq]
    push_cast
    exact ⟨by ring, by ring, by ring⟩
  · rw [if_neg (mt hy.mp hgrow), if_neg (mt hy.mp hgrow)]
    simp only [shapeFrom, shallowError, shallowPoint, rise_succ ha hb k, if_neg hgrow, Prod.mk.injEq, Point.mk.injEq]
    push_cast
    exact ⟨by ring, by ring, by ring⟩

/-- The loop from pixel `k` on, with fuel for all the pixels that are left. -/
theorem lineLoop_shallow (p : Point) {sx : Int} (hsx : sx ≠ 0) (sy : Int) {a b : Nat} (hb : b ≤ a) (n k : Nat)
    (hn : k + n = a) :
    lineLoop (shapeFrom p sx sy a b) (n + 1) (shallowError a b k) (shallowPoint p sx sy a b k) =
      (List.range' k (n + 1)).map (shallowPoint p sx sy a b) := by
  induction n generalizing k with
  | zero =>
    obtain rfl : k = a := hn
    have hstop : shallowPoint p sx sy k b k = (shapeFrom p sx sy k b).stop := by
      rw [shallowPoint, rise_self hb]
      rfl
    rw [lineLoop, if_pos hstop]
    rfl
  | succ n ih =>
    have hstop : shallowPoint p sx sy a b k ≠ (shapeFrom p sx sy a b).stop := by
      intro h
      have hx : sx * (k : Int) = sx * (a : Int) := Int.add_left_cancel (congrArg Point.x h)
      have := Int.eq_of_mul_eq_mul_left hsx hx
      omega
    rw [lineLoop, if_neg hstop, lineStep_shallow p sx sy (by omega) hb, ih (k + 1) (by omega), List.range'_succ (s := k),
      List.map_cons]

/-! ### The two axes change places -/

def transpose (p : Point) : Point := ⟨p.y, p.x⟩

def LineShape.transpose (l : LineShape) : LineShape := ⟨-l.dy, -l.dx, l.sy, l.sx, Machine.transpose l.stop⟩

theorem transpose_injective : Function.Injective transpose := by
  rintro ⟨x, y⟩ ⟨x', y'⟩ h
  simp only [transpose, Point.mk.injEq] at h
  rw [h.1, h.2]

theorem lineShape_transpose (p q : Point) : lineShape (transpose p) (transpose q) = (lineShape p q).transpose := by
  simp only [LineShape.transpose, lineShape, Int.neg_neg]
  rfl

/-- The two tests of a turn are each other's mirror image. -/
theorem lineStep_transpose (l : LineShape) (err : Int) (p : Point) :
    lineStep l.transpose (-err) (transpose p) = (-(lineStep l err p).1, transpose (lineStep l err p).2) := by
  have hx : -l.dx ≤ 2 * -err ↔ 2 * err ≤ l.dx := by omega
  have hy : 2 * -err ≤ -l.dy ↔ l.dy ≤ 2 * err := by omega
  simp only [lineStep_eq, LineShape.transpose, transpose, hx, hy, Prod.mk.injEq, and_true]
  split_ifs <;> omega

theorem lineLoop_transpose (l : LineShape) (n : Nat) (err : Int) (p : Point) :
    lineLoop l.transpose n (-err) (transpose p) = (lineLoop l n err p).map transpose := by
  induction n generalizing err p with
  | zero => rfl
  | succ n ih =>
    have hstop : transpose p = l.transpose.stop ↔ p = l.stop := transpose_injective.eq_iff
    rw [lineLoop, lineLoop, lineStep_transpose, ih, List.map_cons]
    by_cases h : p = l.stop
    · rw [if_pos h, if_pos (hstop.mpr h), List.map_nil]
    · rw [if_neg h, if_neg (mt hstop.mp h)]

theorem linePixels_transpose (p q : Point) : linePixels (transpose p) (transpose q) = (linePixels p q).map transpose := by
  have hlen : lineLength (transpose p) (transpose q) = lineLength p q := congrArg (· + 1) (Nat.max_comm _ _)
  have herr : (lineShape p q).transpose.dx + (lineShape p q).transpose.dy = -((lineShape p q).dx + (lineShape p q).dy) := by
    simp only [LineShape.transpose]
    omega
  rw [linePixels, linePixels, lineShape_transpose, hlen, herr, lineLoop_transpose]

/-! ### The pixels of a line in closed form -/

/-- Pixel `k` of the line from `p` to `q`. -/
def linePoint (p q : Point) (k : Nat) : Point :=
  if (q.y - p.y).natAbs ≤ (q.x - p.x).natAbs then
    shallowPoint p (q.x - p.x).sign (q.y - p.y).sign (q.x - p.x).natAbs (q.y - p.y).natAbs k
  else
    transpose (shallowPoint (transpose p) (q.y - p.y).sign (q.x - p.x).sign (q.y - p.y).natAbs (q.x - p.x).natAbs k)

/-- The loop's direction, which is -1 where there is no distance, times the distance. -/
theorem direction_mul (u v : Int) : (if u < v then 1 else -1) * ((v - u).natAbs : Int) = v - u := by
  split_ifs <;> omega

theorem lineShape_eq (p q : Point) : lineShape p q = shapeFrom p (if p.x < q.x then 1 else -1) (if p.y < q.y then 1 else -1)
    (q.x - p.x).natAbs (q.y - p.y).natAbs := by
  simp only [lineShape, shapeFrom, direction_mul, add_sub_cancel]

theorem direction_mul_eq_sign (u v : Int) {j : Nat} (h : (v - u).natAbs = 0 → j = 0) :
    (if u < v then 1 else -1) * (j : Int) = (v - u).sign * j := by
  rcases lt_trichotomy u v with hlt | rfl | hgt
  · rw [if_pos hlt, Int.sign_eq_one_of_pos (by omega)]
  · rw [h (by omega)]
    simp
  · rw [if_neg (by omega), Int.sign_eq_neg_one_of_neg (by omega)]

/-- For a shallow line the loop gives the points of the closed form. -/
theorem linePixels_of_shallow {p q : Point} (h : (q.y - p.y).natAbs ≤ (q.x - p.x).natAbs) :
    linePixels p q = (List.range ((q.x - p.x).natAbs + 1)).map (linePoint p q) := by
  have hlen : lineLength p q = (q.x - p.x).natAbs + 1 := congrArg (· + 1) (Nat.max_eq_left h)
  have hstart : shallowPoint p (if p.x < q.x then 1 else -1) (if p.y < q.y then 1 else -1) (q.x - p.x).natAbs
      (q.y - p.y).natAbs 0 = p := by
    simp [shallowPoint]
  have herr : shallowError (q.x - p.x).natAbs (q.y - p.y).natAbs 0 = (lineShape p q).dx + (lineShape p q).dy := by
    simp only [shallowError, lineShape, rise_zero]
    push_cast
    ring
  have hloop := lineLoop_shallow p (sx := if p.x < q.x then 1 else -1) (by split <;> decide)
    (if p.y < q.y then 1 else -1) h _ 0 (Nat.zero_add _)
  rw [hstart, herr, ← lineShape_eq, ← List.range_eq_range'] at hloop
  rw [linePixels, hlen, hloop]
  refine List.map_congr_left fun k hk => ?_
  rw [List.mem_range] at hk
  rw [linePoint, if_pos h, shallowPoint, shallowPoint, direction_mul_eq_sign _ _ (by omega),
    direction_mul_eq_sign p.y q.y fun h0 => by rw [h0, rise_flat]]

theorem linePoint_transpose {p q : Point} (h : (q.x - p.x).natAbs < (q.y - p.y).natAbs) (k : Nat) :
    linePoint p q k = transpose (linePoint (transpose p) (transpose q) k) := by
  rw [linePoint, if_neg (by omega), linePoint, if_pos (by simp only [transpose]; omega)]
  rfl

/-- The pixels of a line: pixel by pixel the points of the closed form. -/
theorem linePixels_eq (p q : Point) :
    linePixels p q = (List.range (max (q.x - p.x).natAbs (q.y - p.y).natAbs + 1)).map (linePoint p q) := by
  rcases le_or_gt (q.y - p.y).natAbs (q.x - p.x).natAbs with h | h
  · rw [Nat.max_eq_left h, linePixels_of_shallow h]
  · have hmirror : (linePixels p q).map transpose =
        (List.range (max (q.x - p.x).natAbs (q.y - p.y).natAbs + 1)).map fun k => transpose (linePoint p q k) := by
      rw [← linePixels_transpose, linePixels_of_shallow (p := transpose p) (q := transpose q) h.le, Nat.max_eq_right h.le]
      exact List.map_congr_left fun k _ => by rw [linePoint_transpose h]; rfl
    exact List.map_injective_iff.mpr transpose_injective (by rw [hmirror, List.map_map]; rfl)

theorem linePoint_zero (p q : Point) : linePoint p q 0 = p := by
  unfold linePoint
  split <;> simp [shallowPoint, transpose]

theorem sign_mul_natAbs_add (u v : Int) : u + (v - u).sign * ((v - u).natAbs : Int) = v := by
  rw [Int.sign_mul_natAbs]
  omega

theorem linePoint_last (p q : Point) : linePoint p q (max (q.x - p.x).natAbs (q.y - p.y).natAbs) = q := by
  unfold linePoint
  split
  · next h => rw [Nat.max_eq_left h, shallowPoint, rise_self h, sign_mul_natAbs_add, sign_mul_natAbs_add]
  · next h =>
    rw [Nat.max_eq_right (by omega), shallowPoint, rise_self (by omega)]
    simp only [transpose, sign_mul_natAbs_add]

/-- Settles O37, from the closed form at its two ends. -/
theorem lineEndpointsAndLength : Obligations.LineEndpointsAndLength := by
  intro p q
  rw [linePixels_eq]
  refine ⟨?_, ?_, by rw [List.length_map, List.length_range]⟩
  · rw [List.range_succ_eq_map, List.map_cons, List.head?_cons, linePoint_zero]
  · rw [List.range_succ, List.map_append, List.map_singleton, List.getLast?_concat, linePoint_last]

/-! ### Steps, box and slope -/

/-- What O38 says of two successive pixels of a line of distances `a` and `b`. -/
def UnitMove (a b : Nat) (r r' : Point) : Prop :=
  (r'.x - r.x).natAbs ≤ 1 ∧ (r'.y - r.y).natAbs ≤ 1 ∧ (b ≤ a → (r'.x - r.x).natAbs = 1) ∧
    (a ≤ b → (r'.y - r.y).natAbs = 1)

theorem natAbs_sign_of_pos {d : Int} (h : 0 < d.natAbs) : d.sign.natAbs = 1 := by
  rw [Int.natAbs_sign, if_neg (by omega)]

/-- One step of the offset, in the direction of its axis. -/
theorem natAbs_rise_step (u d : Int) {a : Nat} (ha : 0 < a) (hd : d.natAbs ≤ a) (k : Nat) :
    (u + d.sign * rise a d.natAbs (k + 1) - (u + d.sign * rise a d.natAbs k)).natAbs ≤ 1 ∧
    (a ≤ d.natAbs → (u + d.sign * rise a d.natAbs (k + 1) - (u + d.sign * rise a d.natAbs k)).natAbs = 1) := by
  have hmul : u + d.sign * rise a d.natAbs (k + 1) - (u + d.sign * rise a d.natAbs k) =
      d.sign * ((rise a d.natAbs (k + 1) : Int) - rise a d.natAbs k) := by ring
  rw [hmul, Int.natAbs_mul]
  constructor
  · have hstep : ((rise a d.natAbs (k + 1) : Int) - rise a d.natAbs k).natAbs ≤ 1 := by
      rw [rise_succ ha hd]
      split <;> omega
    have hsign : d.sign.natAbs ≤ 1 := by
      rw [Int.natAbs_sign]
      split <;> omega
    exact Nat.mul_le_mul hsign hstep
  · intro h
    obtain rfl : a = d.natAbs := by omega
    rw [natAbs_sign_of_pos ha, rise_diagonal ha, rise_diagonal ha]
    omega

/-- One step along the longer axis. -/
theorem natAbs_long_step (u d : Int) (hd : 0 < d.natAbs) (k : Nat) :
    (u + d.sign * (k + 1 : Nat) - (u + d.sign * k)).natAbs = 1 := by
  have hmul : u + d.sign * (k + 1 : Nat) - (u + d.sign * k) = d.sign := by push_cast; ring
  rw [hmul, natAbs_sign_of_pos hd]

theorem unitMove_linePoint (p q : Point) {k : Nat} (hk : k < max (q.x - p.x).natAbs (q.y - p.y).natAbs) :
    UnitMove (q.x - p.x).natAbs (q.y - p.y).natAbs (linePoint p q k) (linePoint p q (k + 1)) := by
  unfold linePoint
  split
  · next h =>
    have hlong := natAbs_long_step p.x (q.x - p.x) (by omega) k
    obtain ⟨hshort, hdiag⟩ := natAbs_rise_step p.y (q.y - p.y) (a := (q.x - p.x).natAbs) (by omega) h k
    exact ⟨hlong.le, hshort, fun _ => hlong, hdiag⟩
  · next h =>
    have hlong := natAbs_long_step p.y (q.y - p.y) (by omega) k
    obtain ⟨hshort, hdiag⟩ := natAbs_rise_step p.x (q.x - p.x) (a := (q.y - p.y).natAbs) (by omega) (by omega) k
    exact ⟨hshort, hlong.le, hdiag, fun _ => hlong⟩

theorem isChain_linePixels (p q : Point) :
    (linePixels p q).IsChain (UnitMove (q.x - p.x).natAbs (q.y - p.y).natAbs) := by
  rw [linePixels_eq, List.isChain_map, List.isChain_range_succ]
  exact fun k hk => unitMove_linePoint p q hk

/-- An offset of at most the distance, in its direction, stays between the ends. -/
theorem between_ends (u v : Int) {j : Nat} (h : j ≤ (v - u).natAbs) :
    min u v ≤ u + (v - u).sign * j ∧ u + (v - u).sign * j ≤ max u v := by
  rcases lt_trichotomy u v with hlt | rfl | hgt
  · rw [Int.sign_eq_one_of_pos (by omega)]
    omega
  · simp
  · rw [Int.sign_eq_neg_one_of_neg (by omega)]
    omega

theorem linePoint_in_box (p q : Point) {k : Nat} (hk : k ≤ max (q.x - p.x).natAbs (q.y - p.y).natAbs) :
    min p.x q.x ≤ (linePoint p q k).x ∧ (linePoint p q k).x ≤ max p.x q.x ∧
    min p.y q.y ≤ (linePoint p q k).y ∧ (linePoint p q k).y ≤ max p.y q.y := by
  unfold linePoint
  split
  · next h =>
    rw [Nat.max_eq_left h] at hk
    exact and_assoc.mp ⟨between_ends p.x q.x hk, between_ends p.y q.y (rise_le h hk)⟩
  · next h =>
    rw [Nat.max_eq_right (by omega)] at hk
    exact and_assoc.mp ⟨between_ends p.x q.x (rise_le (by omega) hk), between_ends p.y q.y hk⟩

/-- Settles O38, each clause from the closed form. -/
theorem lineStepsAndBox : Obligations.LineStepsAndBox := by
  intro p q
  refine ⟨isChain_linePixels p q, fun r hr => ?box, fun k hk => ?slope⟩
  case box =>
    rw [linePixels_eq, List.mem_map] at hr
    obtain ⟨k, hk, rfl⟩ := hr
    exact linePoint_in_box p q (Nat.le_of_lt_succ (List.mem_range.mp hk))
  case slope =>
    rw [linePixels_eq, List.getElem?_map, List.getElem?_range (Nat.lt_succ_of_le hk)]
    rfl

/-! ### Straight lines -/

/-- The offset of a line over `n` steps of `d`, which is -1, 0 or 1, on an axis at most as long as the other. -/
theorem sign_mul_rise {n k : Nat} (hk : k ≤ n) {d : Int} (hd : d.natAbs ≤ 1) :
    ((n : Int) * d).sign * rise n ((n : Int) * d).natAbs k = k * d := by
  rcases Nat.eq_zero_or_pos n with rfl | hn
  · obtain rfl := Nat.le_zero.mp hk
    simp
  · obtain rfl | rfl | rfl : d = -1 ∨ d = 0 ∨ d = 1 := by omega
    · rw [Int.mul_neg_one, Int.natAbs_neg, Int.natAbs_natCast, rise_diagonal hn, Int.sign_eq_neg_one_of_neg (by omega)]
      omega
    · simp
    · rw [Int.mul_one, Int.natAbs_natCast, rise_diagonal hn, Int.sign_eq_one_of_pos (by omega)]
      omega

/-- Along the longer axis the offset is the number of steps. -/
theorem sign_mul_steps {n k : Nat} (hk : k ≤ n) {d : Int} (hlen : ((n : Int) * d).natAbs = n) :
    ((n : Int) * d).sign * k = k * d := by
  rcases Nat.eq_zero_or_pos n with rfl | hn
  · obtain rfl := Nat.le_zero.mp hk
    simp
  · rw [Int.natAbs_mul, Int.natAbs_natCast] at hlen
    have hd : d.natAbs = 1 := Nat.eq_of_mul_eq_mul_left hn (hlen.trans (Nat.mul_one n).symm)
    rw [Int.sign_mul, Int.sign_natCast_of_ne_zero (by omega), one_mul, mul_comm]
    obtain rfl | rfl : d = -1 ∨ d = 1 := by omega
    · rfl
    · rfl

/-- The longer of the two distances is the number of steps. -/
theorem straight_length {n : Nat} {dx dy : Int} (hx : dx.natAbs ≤ 1) (hy : dy.natAbs ≤ 1) (hne : dx ≠ 0 ∨ dy ≠ 0) (u v : Int) :
    max (u + n * dx - u).natAbs (v + n * dy - v).natAbs = n := by
  rw [add_sub_cancel_left, add_sub_cancel_left, Int.natAbs_mul, Int.natAbs_mul, Int.natAbs_natCast]
  obtain h | h : dx.natAbs = 1 ∨ dy.natAbs = 1 := by omega
  · rw [h, Nat.mul_one, Nat.max_eq_left (mul_le_of_le_one_right (Nat.zero_le n) hy)]
  · rw [h, Nat.mul_one, Nat.max_eq_right (mul_le_of_le_one_right (Nat.zero_le n) hx)]

/-- Settles O39: where the distances are `n` or 0, every offset of the closed form is the number of steps or 0. -/
theorem straightLines : Obligations.StraightLines := by
  intro p n dx dy hdx hdy hne
  have hx : dx.natAbs ≤ 1 := by
    simp only [List.mem_cons, List.not_mem_nil, or_false] at hdx
    omega
  have hy : dy.natAbs ≤ 1 := by
    simp only [List.mem_cons, List.not_mem_nil, or_false] at hdy
    omega
  have hlen := straight_length (n := n) hx hy hne p.x p.y
  rw [linePixels_eq, hlen]
  refine List.map_congr_left fun k hk => ?_
  have hkn : k ≤ n := Nat.le_of_lt_succ (List.mem_range.mp hk)
  unfold linePoint
  simp only [add_sub_cancel_left] at hlen ⊢
  split
  · next h =>
    have hlong : ((n : Int) * dx).natAbs = n := by omega
    rw [shallowPoint, hlong, sign_mul_steps hkn hlong, sign_mul_rise hkn hy]
  · next h =>
    have hlong : ((n : Int) * dy).natAbs = n := by omega
    rw [shallowPoint, hlong, sign_mul_steps hkn hlong, sign_mul_rise hkn hx]
    rfl

end Sys2Proof.Machine
end

section
/-! Proofs of the family 'other', the payloads of the drawing commands: how many bytes a part takes, which point a coordinate
leads to, and the elements of a payload one after another. -/

namespace Sys2Proof.Machine

/-! ### Parts that take a number of bytes -/

/-- The part takes `n` bytes and changes nothing else; where fewer are left it takes those and raises UnexpectedEnd. -/
def Takes {α : Type} (n : Nat) (s : State) (x : Flow α) : Prop :=
  (n ≤ bytesLeft s → ∃ a, x = .done a (s.setPos (s.pos + n))) ∧
    (bytesLeft s < n → x = .raised (takeFault .unexpectedEnd (s.setPos (s.pos + bytesLeft s))))

section
variable {α β : Type}

theorem takes_done (a : α) (s : State) : Takes 0 s (.done a s) :=
  ⟨fun _ => ⟨a, rfl⟩, fun h => absurd h (Nat.not_lt_zero _)⟩

theorem Takes.bind {n m : Nat} {s : State} {x : Flow α} {f : α → State → Flow β} (hx : Takes n s x)
    (hf : ∀ a, Takes m (s.setPos (s.pos + n)) (f a (s.setPos (s.pos + n)))) : Takes (n + m) s (x.bind f) := by
  have hleft : bytesLeft (s.setPos (s.pos + n)) = bytesLeft s - n := Nat.sub_add_eq _ _ _
  rcases Nat.lt_or_ge (bytesLeft s) n with hshort | hfirst
  · rw [hx.2 hshort]
    exact ⟨fun h => by omega, fun _ => rfl⟩
  · obtain ⟨a, ha⟩ := hx.1 hfirst
    rw [ha, Flow.bind_done]
    refine ⟨fun h => ?_, fun h => ?_⟩
    · obtain ⟨b, hb⟩ := (hf a).1 (by omega)
      exact ⟨b, by rw [hb, ← Nat.add_assoc]; rfl⟩
    · rw [(hf a).2 (by omega), hleft, State.pos_setPos, State.setPos_setPos]
      congr 3
      omega

theorem Takes.void {n : Nat} {s : State} {x : Flow α} (hx : Takes n s x) : Takes n s x.void :=
  hx.bind (m := 0) fun _ => takes_done () _

end

theorem takes_fetch (s : State) : Takes 1 s (fetch s) := by
  rcases fetch_cases s with ⟨b, hlt, -, h⟩ | ⟨hend, h⟩
  · rw [h]
    exact ⟨fun _ => ⟨b, rfl⟩, fun hleft => absurd hleft (by simp only [bytesLeft]; omega)⟩
  · have hleft : bytesLeft s = 0 := Nat.sub_eq_zero_of_le hend
    rw [h, Takes, hleft]
    exact ⟨fun h => by omega, fun _ => rfl⟩

theorem takes_fetchAbs (s : State) : Takes 3 s (fetchAbs s) :=
  (takes_fetch s).bind (m := 2) fun _ => (takes_fetch _).bind (m := 1) fun _ => (takes_fetch _).bind (m := 0) fun _ =>
    takes_done _ _

theorem takes_nextShort (p : Point) (s : State) : Takes 1 s (nextShort p s) :=
  (takes_fetch s).bind (m := 0) fun _ => takes_done _ _

theorem takes_nextMedium (p : Point) (s : State) : Takes 2 s (nextMedium p s) :=
  (takes_fetch s).bind (m := 1) fun _ => (takes_fetch _).bind (m := 0) fun _ => takes_done _ _

theorem takes_fetchSelector (s : State) : Takes (selectorBytes s.patternFlags) s (fetchSelector s) := by
  unfold fetchSelector selectorBytes
  split
  · exact (takes_fetch s).bind (m := 0) fun _ => takes_done _ _
  · exact takes_done _ s

/-! ### The coordinates of a payload -/

/-- The bytes of a coordinate or delta, and where they lead from a point. -/
structure Hop where
  bytes : List Byte
  go : Point → Point

/-- `next` reads the bytes of `h` and goes where they lead. -/
def Follows (next : Point → State → Flow Point) (h : Hop) : Prop :=
  ∀ (p : Point) (s : State) (rest : List Byte), s.prog.drop s.pos = h.bytes ++ rest →
    next p s = .done (h.go p) (s.setPos (s.pos + h.bytes.length))

def absHop (q : Point) : Hop := ⟨encodeAbs q, fun _ => q⟩

def shortHop (b : Byte) : Hop := ⟨[b], shortStep b⟩

def mediumHop (d : Byte × Byte) : Hop := ⟨[d.1, d.2], mediumStep d.1 d.2⟩

/-- The points that the hops lead to from `p` on. -/
def hopPoints (p : Point) : List Hop → List Point
  | [] => []
  | h :: hs => h.go p :: hopPoints (h.go p) hs

/-- The point that all the hops lead to. -/
def hopEnd (p : Point) (hs : List Hop) : Point := hs.foldl (fun q h => h.go q) p

theorem hopEnd_eq_getLastD (p : Point) (hs : List Hop) : hopEnd p hs = (hopPoints p hs).getLastD p := by
  induction hs generalizing p with
  | nil => rfl
  | cons h hs ih =>
    rw [hopPoints, List.getLastD_cons, ← ih]
    rfl

theorem hopPoints_abs (p : Point) (ps : List Point) : hopPoints p (ps.map absHop) = ps := by
  induction ps generalizing p with
  | nil => rfl
  | cons q ps ih => exact congrArg (q :: ·) (ih q)

theorem hopPoints_short (p : Point) (bs : List Byte) : hopPoints p (bs.map shortHop) = shortWalk p bs := by
  induction bs generalizing p with
  | nil => rfl
  | cons b bs ih => exact congrArg (_ :: ·) (ih _)

theorem hopPoints_medium (p : Point) (ds : List (Byte × Byte)) : hopPoints p (ds.map mediumHop) = mediumWalk p ds := by
  induction ds generalizing p with
  | nil => rfl
  | cons d ds ih => exact congrArg (_ :: ·) (ih _)

theorem length_encodeAbs (p : Point) : (encodeAbs p).length = 3 := rfl

theorem fetchAbs_encodeAbs {p : Point} (hp : Encodable p) {s : State} {rest : List Byte}
    (hdrop : s.prog.drop s.pos = encodeAbs p ++ rest) : fetchAbs s = .done p (s.setPos (s.pos + 3)) := by
  obtain ⟨hx, hx', hy, hy'⟩ := hp
  obtain ⟨u, lx, ly, henc, habs⟩ := absPoint_encodeAbs (x := p.x.toNat) (y := p.y.toNat) (by omega) (by omega)
  have hpt : (⟨p.x.toNat, p.y.toNat⟩ : Point) = p := by
    rw [Int.toNat_of_nonneg hx, Int.toNat_of_nonneg hy]
  rw [hpt] at henc habs
  rw [henc] at hdrop
  rw [fetchAbs_of_drop hdrop, habs]

theorem follows_abs {q : Point} (hq : Encodable q) : Follows nextAbs (absHop q) :=
  fun _ _ _ hdrop => fetchAbs_encodeAbs hq hdrop

theorem follows_short (b : Byte) : Follows nextShort (shortHop b) := by
  intro p s rest hdrop
  rw [nextShort, fetch_of_drop hdrop]
  rfl

theorem follows_medium (d : Byte × Byte) : Follows nextMedium (mediumHop d) := by
  intro p s rest hdrop
  have hdrop' : (s.setPos (s.pos + 1)).prog.drop (s.setPos (s.pos + 1)).pos = d.2 :: rest := (drop_cons hdrop).2
  rw [nextMedium, fetch_of_drop hdrop, Flow.bind_done, fetch_of_drop hdrop']
  rfl

/-- The selector is there exactly when the flags ask for one. -/
theorem fetchSelector_of_drop {s : State} {sel : Option Byte} (hsel : sel.isSome = usesTexture s.patternFlags)
    {rest : List Byte} (hdrop : s.prog.drop s.pos = sel.toList ++ rest) :
    fetchSelector s = .done sel (s.setPos (s.pos + sel.toList.length)) := by
  unfold fetchSelector
  rw [← hsel]
  cases sel with
  | none => rfl
  | some b =>
    rw [fetch_of_drop hdrop]
    rfl

theorem length_selector {sel : Option Byte} {flags : Byte} (hsel : sel.isSome = usesTexture flags) :
    sel.toList.length = selectorBytes flags := by
  unfold selectorBytes
  rw [← hsel]
  cases sel <;> rfl

/-! ### The pattern commands, stamp by stamp -/

/-- The operands of a stamp: its selector and its point. -/
def stampHead (next : Point → State → Flow Point) (p : Point) (s : State) : Flow (Option Byte × Point) :=
  (fetchSelector s).bind fun sel s => (next p s).bind fun q s => .done (sel, q) s

theorem stampElement_eq (next : Point → State → Flow Point) (p : Point) (s : State) : stampElement next p s =
    (stampHead next p s).bind fun e s => (stamp e.1 e.2 s).bind fun _ s => .done e.2 s := by
  simp only [stampElement, stampHead, Flow.bind_assoc, Flow.bind_done]

theorem stampSeed_eq (p : Point) (s : State) : stampSeed () s = (stampElement nextAbs p s).void := by
  have hunit : ∀ x : Flow Unit, x = x.bind fun _ s => .done () s := fun x => by cases x <;> rfl
  simp only [stampSeed, stampElement, nextAbs, Flow.void, Flow.bind_assoc, Flow.bind_done, ← hunit]

/-- A relative pattern command is a stamp at an absolute point and then its walk. -/
theorem patternWalk_eq (next : Point → State → Flow Point) (p : Point) (s : State) : patternWalk next s =
    ((stampElement nextAbs p s).bind fun q s => whileElements (stampElement next) q s).void := by
  simp only [patternWalk, stampElement, nextAbs, Flow.bind_assoc, Flow.bind_done]

theorem takes_stampHead {next : Point → State → Flow Point} {n : Nat} (h : ∀ p s, Takes n s (next p s)) (p : Point)
    (s : State) : Takes (selectorBytes s.patternFlags + n) s (stampHead next p s) :=
  (takes_fetchSelector s).bind fun _ => (h p _).bind (m := 0) fun _ => takes_done _ _

/-- A repetition whose elements differ in their values only. -/
theorem repeatElements_void {α : Type} {element : α → State → Flow α} {element' : Unit → State → Flow Unit}
    (h : ∀ a s, element' () s = (element a s).void) (n : Nat) (a : α) (s : State) :
    repeatElements element' n () s = (repeatElements element n a s).void := by
  induction n generalizing a s with
  | zero => rfl
  | succ n ih =>
    rw [repeatElements_succ, repeatElements_succ, h a s]
    split
    · rfl
    · cases element a s with
      | done b t => exact ih b t
      | raised t => rfl
      | stuck r => rfl

/-- The running coordinate plays no part in `longPatterns`, so any may be given. -/
theorem exec_longPatterns_eq (p : Point) (s : State) :
    exec .longPatterns s = (whileElements (stampElement nextAbs) p s).outcome := by
  rw [← Flow.outcome_void, whileElements, ← repeatElements_void (stampSeed_eq ·)]
  rfl

end Sys2Proof.Machine
end

section
/-! Proofs of the family 'other', drawing that is enabled: the elements of a payload painted in turn (R96, R98, R100, R122,
R123, R125), and the ends a command can come to. -/

namespace Sys2Proof.Machine

/-! ### Segments -/

theorem linePixels_cons (p q : Point) : ∃ rest, linePixels p q = p :: rest := by
  rw [linePixels_eq, List.range_succ_eq_map, List.map_cons, linePoint_zero]
  exact ⟨_, rfl⟩

/-! ### Stamps -/

/-- Every pixel of a stamp is on the canvas (R130). -/
theorem onCanvas_of_mem_stampPixels {c : PatternConfig} {sel : Option Byte} {flags : Byte} {p q : Point}
    (hq : q ∈ stampPixels c sel flags p) : onCanvas q = true := by
  obtain ⟨o, ho, rfl⟩ := List.mem_map.mp hq
  exact List.all_eq_true.mp (clampStamp_fits c _ _ p) o (stampOffsets_subset c sel _ _ o ho)

theorem stamp_disabled {s : State} (h : s.visualEnabled = false) (sel : Option Byte) (p : Point) :
    stamp sel p s = .done () s := by
  rw [stamp, if_neg (by rw [h]; decide)]

/-- The bytes of an element with its selector. -/
def stampBytes (e : Option Byte × Hop) : List Byte := e.1.toList ++ e.2.bytes

/-- The pixels of the stamps along the hops from `p`. -/
def stampsAlong (c : PatternConfig) (flags : Byte) (p : Point) (es : List (Option Byte × Hop)) : List Point :=
  ((es.map Prod.fst).zip (hopPoints p (es.map Prod.snd))).flatMap fun e => stampPixels c e.1 flags e.2

theorem stampsAlong_cons (c : PatternConfig) (flags : Byte) (p : Point) (e : Option Byte × Hop)
    (es : List (Option Byte × Hop)) : stampsAlong c flags p (e :: es) =
      stampPixels c e.1 flags (e.2.go p) ++ stampsAlong c flags (e.2.go p) es := rfl

theorem stampsAlong_abs (c : PatternConfig) (flags : Byte) (p : Point) (es : List (Option Byte × Point)) :
    stampsAlong c flags p (es.map fun e => (e.1, absHop e.2)) = es.flatMap fun e => stampPixels c e.1 flags e.2 := by
  induction es generalizing p with
  | nil => rfl
  | cons e es ih => rw [List.map_cons, stampsAlong_cons, ih, List.flatMap_cons]; rfl

/-! ### The elements of a payload in turn -/

/-- An element that can stand in a pattern payload: a selector where the flags ask for one, and bytes that `next` follows. -/
def StampStands (next : Point → State → Flow Point) (flags : Byte) (e : Option Byte × Hop) : Prop :=
  e.1.isSome = usesTexture flags ∧ Follows next e.2 ∧ StartsElement (stampBytes e)

/-- The state after `n` more bytes are consumed and `ps` is painted. -/
def painted (pen : Pen) (n : Nat) (ps : List Point) (s : State) : State := (s.setPos (s.pos + n)).setFb (paint pen ps s.fb)

theorem painted_painted (pen : Pen) (n m : Nat) (ps qs : List Point) (s : State) :
    painted pen m qs (painted pen n ps s) = painted pen (n + m) (ps ++ qs) s := by
  unfold painted
  rw [paint_append, ← Nat.add_assoc]
  rfl

theorem drop_painted {s : State} {bs rest : List Byte} (hdrop : s.prog.drop s.pos = bs ++ rest) (pen : Pen)
    (ps : List Point) :
    (painted pen bs.length ps s).prog.drop (painted pen bs.length ps s).pos = rest := drop_append hdrop

section
variable {s : State} {pen : Pen} (hvis : s.visualEnabled = true) (hpen : s.pen = some pen)
include hvis hpen

theorem stamp_enabled (sel : Option Byte) (p : Point) : stamp sel p s =
    .done () (painted pen 0 (stampPixels s.config.pattern sel s.patternFlags p) s) := by
  rw [stamp, if_pos hvis]
  exact plotAll_enabled hvis hpen fun _ => onCanvas_of_mem_stampPixels

/-- A segment whose element stands at `pos` and whose pixels are on the canvas. -/
theorem segment_of_drop {next : Point → State → Flow Point} {h : Hop} (hh : Follows next h) {p : Point} {rest : List Byte}
    (hdrop : s.prog.drop s.pos = h.bytes ++ rest) (hon : ∀ r ∈ linePixels p (h.go p), onCanvas r = true) :
    segment next p s = .done (h.go p) (painted pen h.bytes.length (linePixels p (h.go p)) s) := by
  rw [segment, hh p s rest hdrop, Flow.bind_done,
    drawLine_enabled (s := s.setPos (s.pos + h.bytes.length)) hvis hpen hon]
  rfl

/-- A stamp whose element stands at `pos`. -/
theorem stampElement_of_drop {next : Point → State → Flow Point} {e : Option Byte × Hop}
    (hsel : e.1.isSome = usesTexture s.patternFlags) (hh : Follows next e.2) {p : Point} {rest : List Byte}
    (hdrop : s.prog.drop s.pos = stampBytes e ++ rest) : stampElement next p s = .done (e.2.go p)
      (painted pen (stampBytes e).length (stampPixels s.config.pattern e.1 s.patternFlags (e.2.go p)) s) := by
  rw [stampBytes, List.append_assoc] at hdrop
  have hnext := hh p (s.setPos (s.pos + e.1.toList.length)) rest (drop_append hdrop)
  rw [stampElement, fetchSelector_of_drop hsel hdrop, Flow.bind_done, hnext, Flow.bind_done, State.setPos_setPos,
    State.pos_setPos, stamp_enabled (s := s.setPos (s.pos + e.1.toList.length + e.2.bytes.length)) hvis hpen, stampBytes,
    List.length_append, painted, painted, ← Nat.add_assoc]
  rfl

end

/-- The segments of the elements at `pos` are painted in turn, where all their pixels are on the canvas. -/
theorem whileElements_segments {next : Point → State → Flow Point} (hmove : ∀ p s, Moves 1 s (next p s)) {pen : Pen}
    {hs : List Hop} (hstand : ∀ h ∈ hs, Follows next h ∧ StartsElement h.bytes) {p : Point} {s : State}
    (hvis : s.visualEnabled = true) (hpen : s.pen = some pen) {rest : List Byte}
    (hdrop : s.prog.drop s.pos = hs.flatMap Hop.bytes ++ rest)
    (hon : ∀ r ∈ pathPixels p (hopPoints p hs), onCanvas r = true) :
    whileElements (segment next) p s = whileElements (segment next) (hopEnd p hs)
      (painted pen (hs.flatMap Hop.bytes).length (pathPixels p (hopPoints p hs)) s) := by
  induction hs generalizing p s with
  | nil => rfl
  | cons h hs ih =>
    obtain ⟨hfollows, hstarts⟩ := hstand h (by simp)
    rw [List.flatMap_cons, List.append_assoc] at hdrop
    rw [hopPoints, pathPixels] at hon
    rw [whileElements_starts (advances_segment hmove) p hdrop hstarts,
      segment_of_drop hvis hpen hfollows hdrop fun r hr => hon r (List.mem_append_left _ hr), Flow.bind_done,
      ih (fun k hk => hstand k (by simp [hk])) (s := painted pen h.bytes.length _ s) hvis hpen (drop_painted hdrop pen _)
        fun r hr => hon r (List.mem_append_right _ hr),
      painted_painted, List.flatMap_cons, List.length_append]
    rfl

/-- The stamps of the elements at `pos` are painted in turn. -/
theorem whileElements_stamps {next : Point → State → Flow Point} (hmove : ∀ p s, Moves 1 s (next p s)) {pen : Pen}
    {es : List (Option Byte × Hop)} {p : Point} {s : State} (hstand : ∀ e ∈ es, StampStands next s.patternFlags e)
    (hvis : s.visualEnabled = true) (hpen : s.pen = some pen) {rest : List Byte}
    (hdrop : s.prog.drop s.pos = es.flatMap stampBytes ++ rest) :
    whileElements (stampElement next) p s = whileElements (stampElement next) (hopEnd p (es.map Prod.snd))
      (painted pen (es.flatMap stampBytes).length (stampsAlong s.config.pattern s.patternFlags p es) s) := by
  induction es generalizing p s with
  | nil => rfl
  | cons e es ih =>
    obtain ⟨hsel, hfollows, hstarts⟩ := hstand e (by simp)
    rw [List.flatMap_cons, List.append_assoc] at hdrop
    rw [whileElements_starts (advances_stampElement hmove) p hdrop hstarts,
      stampElement_of_drop hvis hpen hsel hfollows hdrop, Flow.bind_done,
      ih (s := painted pen (stampBytes e).length _ s) (fun k hk => hstand k (by simp [hk])) hvis hpen
        (drop_painted hdrop pen _),
      painted_painted, List.flatMap_cons, List.length_append]
    rfl

/-- A polyline command, its first point and the elements after it run. -/
theorem polyline_segments {next : Point → State → Flow Point} (hmove : ∀ p s, Moves 1 s (next p s)) {pen : Pen}
    {hs : List Hop} (hstand : ∀ h ∈ hs, Follows next h ∧ StartsElement h.bytes) {p : Point} (hp : Encodable p) {s : State}
    (hvis : s.visualEnabled = true) (hpen : s.pen = some pen) {rest : List Byte}
    (hdrop : s.prog.drop s.pos = encodeAbs p ++ hs.flatMap Hop.bytes ++ rest)
    (hon : ∀ r ∈ pathPixels p (hopPoints p hs), onCanvas r = true) :
    ∃ t, t = painted pen (encodeAbs p ++ hs.flatMap Hop.bytes).length (pathPixels p (hopPoints p hs)) s ∧
      t.prog.drop t.pos = rest ∧ polyline next s = (whileElements (segment next) (hopEnd p hs) t).void := by
  refine ⟨_, rfl, drop_painted hdrop pen _, ?_⟩
  rw [List.append_assoc] at hdrop
  rw [polyline, fetchAbs_encodeAbs hp hdrop, Flow.bind_done, show s.setPos (s.pos + 3) = painted pen 3 [] s from rfl,
    whileElements_segments hmove hstand (s := painted pen 3 [] s) hvis hpen (drop_painted hdrop pen []) hon,
    painted_painted, List.length_append]
  rfl

/-- A relative pattern command, its first stamp and those of the elements after it made. -/
theorem patternWalk_stamps {next : Point → State → Flow Point} (hmove : ∀ p s, Moves 1 s (next p s)) {pen : Pen}
    {es : List (Option Byte × Hop)} {sel : Option Byte} {p : Point} (hp : Encodable p) {s : State}
    (hsel : sel.isSome = usesTexture s.patternFlags) (hstand : ∀ e ∈ es, StampStands next s.patternFlags e)
    (hvis : s.visualEnabled = true) (hpen : s.pen = some pen) {rest : List Byte}
    (hdrop : s.prog.drop s.pos = sel.toList ++ encodeAbs p ++ es.flatMap stampBytes ++ rest) :
    ∃ t, t = painted pen (sel.toList ++ encodeAbs p ++ es.flatMap stampBytes).length
        (stampPixels s.config.pattern sel s.patternFlags p ++ stampsAlong s.config.pattern s.patternFlags p es) s ∧
      t.prog.drop t.pos = rest ∧
      patternWalk next s = (whileElements (stampElement next) (hopEnd p (es.map Prod.snd)) t).void := by
  refine ⟨_, rfl, drop_painted hdrop pen _, ?_⟩
  rw [List.append_assoc] at hdrop
  have hfirst : stampElement nextAbs p s = .done p (painted pen (sel.toList ++ encodeAbs p).length
      (stampPixels s.config.pattern sel s.patternFlags p) s) :=
    stampElement_of_drop hvis hpen (e := (sel, absHop p)) hsel (follows_abs hp) hdrop
  rw [patternWalk_eq next p, hfirst, Flow.bind_done,
    whileElements_stamps hmove (s := painted pen _ _ s) hstand hvis hpen (drop_painted hdrop pen _), painted_painted,
    List.length_append (as := sel.toList ++ encodeAbs p)]
  rfl

end Sys2Proof.Machine
end

section
/-! Proofs of the family 'other', the drawing commands that complete (R96 to R100, R122 to R125). -/

namespace Sys2Proof.Machine

/-! ### The payloads written as hops -/

theorem flatMap_absHop (ps : List Point) : (ps.map absHop).flatMap Hop.bytes = ps.flatMap encodeAbs := List.flatMap_map _ _ _

theorem flatMap_shortHop (bs : List Byte) : (bs.map shortHop).flatMap Hop.bytes = bs := by
  rw [List.flatMap_map]
  exact List.flatMap_singleton' bs

theorem flatMap_mediumHop (ds : List (Byte × Byte)) :
    (ds.map mediumHop).flatMap Hop.bytes = ds.flatMap fun d => [d.1, d.2] := List.flatMap_map _ _ _

theorem length_flatMap_encodeAbs (ps : List Point) : (ps.flatMap encodeAbs).length = 3 * ps.length := by
  simp [List.length_flatMap, length_encodeAbs, Nat.mul_comm]

theorem length_flatMap_pairs (ds : List (Byte × Byte)) : (ds.flatMap fun d => [d.1, d.2]).length = 2 * ds.length := by
  simp [List.length_flatMap, Nat.mul_comm]

theorem absHops_stand {ps : List Point} (h : ∀ q ∈ ps, Encodable q ∧ StartsElement (encodeAbs q)) :
    ∀ k ∈ ps.map absHop, Follows nextAbs k ∧ StartsElement k.bytes := by
  intro k hk
  obtain ⟨q, hq, rfl⟩ := List.mem_map.mp hk
  exact ⟨follows_abs (h q hq).1, (h q hq).2⟩

theorem shortHops_stand {bs : List Byte} (h : ∀ b ∈ bs, b.toNat < 0xF0) :
    ∀ k ∈ bs.map shortHop, Follows nextShort k ∧ StartsElement k.bytes := by
  intro k hk
  obtain ⟨b, hb, rfl⟩ := List.mem_map.mp hk
  exact ⟨follows_short b, startsElement_cons (h b hb) _⟩

theorem mediumHops_stand {ds : List (Byte × Byte)} (h : ∀ d ∈ ds, d.1.toNat < 0xF0) :
    ∀ k ∈ ds.map mediumHop, Follows nextMedium k ∧ StartsElement k.bytes := by
  intro k hk
  obtain ⟨d, hd, rfl⟩ := List.mem_map.mp hk
  exact ⟨follows_medium d, startsElement_cons (h d hd) _⟩

/-- The elements of a pattern payload whose deltas are hops of one kind. -/
def selectedHops {δ : Type} (hop : δ → Hop) (es : List (Option Byte × δ)) : List (Option Byte × Hop) :=
  es.map fun e => (e.1, hop e.2)

section
variable {δ : Type} (hop : δ → Hop) (es : List (Option Byte × δ))

theorem flatMap_selectedHops : (selectedHops hop es).flatMap stampBytes = es.flatMap fun e => e.1.toList ++ (hop e.2).bytes :=
  List.flatMap_map _ _ _

theorem selectedHops_stand {next : Point → State → Flow Point} {flags : Byte} (hfollow : ∀ e ∈ es, Follows next (hop e.2))
    (h : ∀ e ∈ es, e.1.isSome = usesTexture flags ∧ StartsElement (e.1.toList ++ (hop e.2).bytes)) :
    ∀ k ∈ selectedHops hop es, StampStands next flags k := by
  intro k hk
  obtain ⟨e, he, rfl⟩ := List.mem_map.mp hk
  exact ⟨(h e he).1, hfollow e he, (h e he).2⟩

theorem stampsAlong_selectedHops (c : PatternConfig) (flags : Byte) (p : Point) : stampsAlong c flags p (selectedHops hop es) =
    ((es.map Prod.fst).zip (hopPoints p ((es.map Prod.snd).map hop))).flatMap fun e => stampPixels c e.1 flags e.2 := by
  rw [stampsAlong, selectedHops, List.map_map, List.map_map, List.map_map]
  rfl

end

/-! ### The commands to their end -/

section
variable {next : Point → State → Flow Point} (hmove : ∀ p s, Moves 1 s (next p s)) {s : State} {pen : Pen}
  (hvis : s.visualEnabled = true) (hpen : s.pen = some pen)
include hmove hvis hpen

theorem polyline_completes {hs : List Hop} (hstand : ∀ h ∈ hs, Follows next h ∧ StartsElement h.bytes) {p : Point}
    (hp : Encodable p) (hpay : PayloadIs s (encodeAbs p ++ hs.flatMap Hop.bytes))
    (hon : ∀ r ∈ pathPixels p (hopPoints p hs), onCanvas r = true) : (polyline next s).outcome =
      .next (painted pen (encodeAbs p ++ hs.flatMap Hop.bytes).length (pathPixels p (hopPoints p hs)) s) := by
  obtain ⟨rest, hdrop, hend⟩ := hpay
  obtain ⟨t, rfl, hrest, hrun⟩ := polyline_segments hmove hstand hp hvis hpen hdrop hon
  rw [hrun, whileElements_endsBefore _ hrest hend]
  rfl

theorem patternWalk_completes {es : List (Option Byte × Hop)} {sel : Option Byte} {p : Point} (hp : Encodable p)
    (hsel : sel.isSome = usesTexture s.patternFlags) (hstand : ∀ e ∈ es, StampStands next s.patternFlags e)
    (hpay : PayloadIs s (sel.toList ++ encodeAbs p ++ es.flatMap stampBytes)) : (patternWalk next s).outcome =
      .next (painted pen (sel.toList ++ encodeAbs p ++ es.flatMap stampBytes).length
        (stampPixels s.config.pattern sel s.patternFlags p ++ stampsAlong s.config.pattern s.patternFlags p es) s) := by
  obtain ⟨rest, hdrop, hend⟩ := hpay
  obtain ⟨t, rfl, hrest, hrun⟩ := patternWalk_stamps hmove hp hsel hstand hvis hpen hdrop
  rw [hrun, whileElements_endsBefore _ hrest hend]
  rfl

end

/-- Settles O40, by the elements in turn, each an absolute hop. -/
theorem longLinesDraw : Obligations.LongLinesDraw := by
  intro s pen p ps hvis hpen hp hps hpay hon
  have hlen : (encodeAbs p ++ ps.flatMap encodeAbs).length = 3 * (ps.length + 1) := by
    rw [List.length_append, length_encodeAbs, length_flatMap_encodeAbs]
    omega
  have hrun := polyline_completes Moves.nextAbs hvis hpen (absHops_stand hps) hp (by rwa [flatMap_absHop])
    (by rwa [hopPoints_abs])
  rw [flatMap_absHop, hopPoints_abs, hlen] at hrun
  exact hrun

/-- Settles O41, by the elements in turn, each a medium-relative hop. -/
theorem mediumRelativeLinesDraw : Obligations.MediumRelativeLinesDraw := by
  intro s pen p ds hvis hpen hp hds hpay hon
  have hlen : s.pos + (encodeAbs p ++ ds.flatMap fun d => [d.1, d.2]).length = s.pos + 3 + 2 * ds.length := by
    rw [List.length_append, length_encodeAbs, length_flatMap_pairs, Nat.add_assoc]
  have hrun := polyline_completes Moves.nextMedium hvis hpen (mediumHops_stand hds) hp (by rwa [flatMap_mediumHop])
    (by rwa [hopPoints_medium])
  rw [flatMap_mediumHop, hopPoints_medium, painted, hlen] at hrun
  exact hrun

/-- Settles O42, by the elements in turn, each a short-relative hop. -/
theorem shortRelativeLinesDraw : Obligations.ShortRelativeLinesDraw := by
  intro s pen p bs hvis hpen hp hbs hpay hon
  have hlen : s.pos + (encodeAbs p ++ bs).length = s.pos + 3 + bs.length := by
    rw [List.length_append, length_encodeAbs, Nat.add_assoc]
  have hrun := polyline_completes Moves.nextShort hvis hpen (shortHops_stand hbs) hp (by rwa [flatMap_shortHop])
    (by rwa [hopPoints_short])
  rw [flatMap_shortHop, hopPoints_short, painted, hlen] at hrun
  exact hrun

/-- The elements of `longPatterns` as hops. -/
theorem absStamps_stand {flags : Byte} {es : List (Option Byte × Point)}
    (h : ∀ e ∈ es, e.1.isSome = usesTexture flags ∧ Encodable e.2 ∧ StartsElement (e.1.toList ++ encodeAbs e.2)) :
    ∀ k ∈ selectedHops absHop es, StampStands nextAbs flags k :=
  selectedHops_stand absHop es (fun e he => follows_abs (h e he).2.1) fun e he => ⟨(h e he).1, (h e he).2.2⟩

theorem flatMap_absStamps (es : List (Option Byte × Point)) :
    (selectedHops absHop es).flatMap stampBytes = es.flatMap fun e => e.1.toList ++ encodeAbs e.2 :=
  flatMap_selectedHops absHop es

/-- Settles O56: the command is the walk along absolute hops, from any point. -/
theorem longPatternsDraw : Obligations.LongPatternsDraw := by
  rintro s pen es hvis hpen hes ⟨rest, hdrop, hend⟩
  rw [← flatMap_absStamps] at hdrop
  rw [exec_longPatterns_eq ⟨0, 0⟩, whileElements_stamps Moves.nextAbs (absStamps_stand hes) hvis hpen hdrop,
    whileElements_endsBefore _ (drop_painted hdrop pen _) hend, flatMap_absStamps, selectedHops, stampsAlong_abs]
  rfl

/-- Settles O57, by the elements in turn, each a short-relative hop. -/
theorem shortRelativePatternsDraw : Obligations.ShortRelativePatternsDraw := by
  intro s pen sel p es hvis hpen hsel hp hes hpay
  have hrun := patternWalk_completes Moves.nextShort hvis hpen hp hsel
    (selectedHops_stand shortHop es (fun e _ => follows_short e.2) hes) (by rwa [flatMap_selectedHops])
  rw [flatMap_selectedHops, stampsAlong_selectedHops, hopPoints_short] at hrun
  exact hrun

/-- Settles O58, by the elements in turn, each a medium-relative hop. -/
theorem mediumRelativePatternsDraw : Obligations.MediumRelativePatternsDraw := by
  intro s pen sel p es hvis hpen hsel hp hes hpay
  have hrun := patternWalk_completes Moves.nextMedium hvis hpen hp hsel
    (selectedHops_stand mediumHop es (fun e _ => follows_medium e.2) hes) (by rwa [flatMap_selectedHops])
  rw [flatMap_selectedHops, stampsAlong_selectedHops, hopPoints_medium] at hrun
  exact hrun

end Sys2Proof.Machine
end

section
/-! Proofs of the family 'other', where drawing faults and what stays drawn (spec/60_exceptions.md sections 2 and 3). -/

namespace Sys2Proof.Machine

/-! ### A line up to the edge of the canvas -/

/-- The pixels before the first one outside are painted. -/
theorem plotAll_firstOutside {s : State} {pen : Pen} (hvis : s.visualEnabled = true) (hpen : s.pen = some pen)
    {ps before : List Point} (h : FirstOutside ps before) :
    plotAll ps s = .raised (takeFault .outOfBounds (painted pen 0 before s)) := by
  obtain ⟨r, after, rfl, hin, hout⟩ := h
  induction before generalizing s with
  | nil =>
    rw [List.nil_append, plotAll, plot_enabled hvis hpen, fbWrite_of_outside hout]
    rfl
  | cons p ps ih =>
    have hp := hin p (by simp)
    rw [List.cons_append, plotAll, plot_enabled hvis hpen, fbWrite_of_onCanvas hp, Flow.bind_done,
      ih (s := s.setFb (fbPut (address p) (eff pen p) s.fb)) hvis hpen fun q hq => hin q (by simp [hq])]
    rfl

theorem drawLine_firstOutside {s : State} {pen : Pen} (hvis : s.visualEnabled = true) (hpen : s.pen = some pen)
    {p q : Point} {before : List Point} (h : FirstOutside (linePixels p q) before) :
    drawLine p q s = .raised (takeFault .outOfBounds (painted pen 0 before s)) := by
  rw [drawLine, if_pos hvis]
  exact plotAll_firstOutside hvis hpen h

/-- A polyline ends at its first segment that leaves the canvas. -/
theorem polyline_firstOutside {next : Point → State → Flow Point} (hmove : ∀ p s, Moves 1 s (next p s)) {s : State}
    {pen : Pen} (hvis : s.visualEnabled = true) (hpen : s.pen = some pen) {hs : List Hop} {h : Hop}
    (hstand : ∀ k ∈ hs ++ [h], Follows next k ∧ StartsElement k.bytes) {p : Point} (hp : Encodable p)
    (hstream : StreamHas s (encodeAbs p ++ (hs ++ [h]).flatMap Hop.bytes))
    (hon : ∀ r ∈ pathPixels p (hopPoints p hs), onCanvas r = true) {before : List Point}
    (hout : FirstOutside (linePixels (hopEnd p hs) (h.go (hopEnd p hs))) before) :
    (polyline next s).outcome = .next (takeFault .outOfBounds
      (painted pen (encodeAbs p ++ (hs ++ [h]).flatMap Hop.bytes).length (pathPixels p (hopPoints p hs) ++ before) s)) := by
  obtain ⟨rest, hdrop⟩ := hstream
  obtain ⟨hfollows, hstarts⟩ := hstand h (by simp)
  rw [List.flatMap_append, List.flatMap_singleton, ← List.append_assoc] at hdrop ⊢
  rw [List.append_assoc _ h.bytes] at hdrop
  obtain ⟨t, rfl, hrest, hrun⟩ :=
    polyline_segments hmove (fun k hk => hstand k (List.mem_append_left _ hk)) hp hvis hpen hdrop hon
  rw [hrun, whileElements_starts (advances_segment hmove) _ hrest hstarts, segment, hfollows _ _ _ hrest, Flow.bind_done,
    drawLine_firstOutside (s := (painted pen _ _ s).setPos _) hvis hpen hout, List.length_append (as := encodeAbs p ++ _),
    ← painted_painted]
  rfl

/-! ### No pen -/

/-- A line has a pixel, its first, and without a pen that pixel raises. -/
theorem drawLine_penUnset {s : State} (hvis : s.visualEnabled = true) (hpen : s.pen = none) (p q : Point) :
    drawLine p q s = .raised (takeFault .penUnset s) := by
  obtain ⟨rest, hrest⟩ := linePixels_cons p q
  rw [drawLine, if_pos hvis, hrest, plotAll, plot_penUnset hvis hpen]
  rfl

theorem polyline_penUnset {next : Point → State → Flow Point} (hmove : ∀ p s, Moves 1 s (next p s)) {s : State}
    (hvis : s.visualEnabled = true) (hpen : s.pen = none) {p : Point} (hp : Encodable p) {h : Hop}
    (hfollows : Follows next h) (hstarts : StartsElement h.bytes) (hstream : StreamHas s (encodeAbs p ++ h.bytes)) :
    (polyline next s).outcome = .next (takeFault .penUnset (s.setPos (s.pos + 3 + h.bytes.length))) := by
  obtain ⟨rest, hdrop⟩ := hstream
  rw [List.append_assoc] at hdrop
  have hrest : (s.setPos (s.pos + 3)).prog.drop (s.setPos (s.pos + 3)).pos = h.bytes ++ rest := drop_append hdrop
  rw [polyline, fetchAbs_encodeAbs hp hdrop, Flow.bind_done, whileElements_starts (advances_segment hmove) p hrest hstarts,
    segment, hfollows p _ rest hrest, Flow.bind_done, State.setPos_setPos, State.pos_setPos,
    drawLine_penUnset (s := s.setPos (s.pos + 3 + h.bytes.length)) hvis hpen]
  rfl

/-- The plain stamp of size 0 is one pixel, wherever it is clamped to. -/
theorem stamp_dot_penUnset {s : State} (hvis : s.visualEnabled = true) (hpen : s.pen = none)
    (hrect : isRectangle s.patternFlags = false) (hsize : patternSize s.patternFlags = 0) (p : Point) :
    stamp none p s = .raised (takeFault .penUnset s) := by
  rw [stamp, if_pos hvis, stampPixels, hrect, hsize, stampOffsets, footprint_dot, List.map_singleton, plotAll,
    plot_penUnset hvis hpen]
  rfl

theorem stampElement_dot_penUnset {s : State} (hvis : s.visualEnabled = true) (hpen : s.pen = none)
    (htex : usesTexture s.patternFlags = false) (hrect : isRectangle s.patternFlags = false)
    (hsize : patternSize s.patternFlags = 0) {p : Point} (hp : Encodable p) {rest : List Byte}
    (hdrop : s.prog.drop s.pos = encodeAbs p ++ rest) (p₀ : Point) :
    stampElement nextAbs p₀ s = .raised (takeFault .penUnset (s.setPos (s.pos + 3))) := by
  have hsel : fetchSelector s = .done none s := by
    rw [fetchSelector, htex]
    rfl
  rw [stampElement, hsel, Flow.bind_done, nextAbs, fetchAbs_encodeAbs hp hdrop, Flow.bind_done,
    stamp_dot_penUnset (s := s.setPos (s.pos + 3)) hvis hpen hrect hsize]
  rfl

/-- Each pattern command runs its first stamp first. -/
theorem exec_pattern_of_first_raised {s t : State} {i : Instr}
    (hi : i ∈ [Instr.longPatterns, .shortRelativePatterns, .mediumRelativePatterns]) {bs rest : List Byte}
    (hdrop : s.prog.drop s.pos = bs ++ rest) (hstarts : StartsElement bs)
    (h : stampElement nextAbs ⟨0, 0⟩ s = .raised t) : exec i s = .next t := by
  simp only [List.mem_cons, List.not_mem_nil, or_false] at hi
  rcases hi with rfl | rfl | rfl
  · rw [exec_longPatterns_eq ⟨0, 0⟩, whileElements_starts (advances_stampElement Moves.nextAbs) _ hdrop hstarts, h]
    rfl
  · show (patternWalk nextShort s).outcome = _
    rw [patternWalk_eq _ ⟨0, 0⟩, h]
    rfl
  · show (patternWalk nextMedium s).outcome = _
    rw [patternWalk_eq _ ⟨0, 0⟩, h]
    rfl

/-! ### The seed of a fill -/

theorem floodFill_penUnset {s : State} (hvis : s.visualEnabled = true) (hpen : s.pen = none) (p : Point) :
    floodFill p s = .raised (takeFault .penUnset s) := by
  simp only [floodFill, hvis, hpen, if_true, raise_eq]

/-- Where there is a pen, a fill is its checks and its loop. -/
theorem floodFill_enabled {s : State} {pen : Pen} (hvis : s.visualEnabled = true) (hpen : s.pen = some pen) (p : Point) :
    floodFill p s = (fbRead p s).bind fun v s =>
      if v = background then fillLoop pen fbCells [p] [p] s else .done () s := by
  simp only [floodFill, hvis, hpen, if_true]

theorem fbRead_of_outside {p : Point} (h : onCanvas p = false) (s : State) :
    fbRead p s = .raised (takeFault .outOfBounds s) := by
  simp [fbRead, h]

theorem floodFill_outside {s : State} (hvis : s.visualEnabled = true) (hpen : s.pen ≠ none) {p : Point}
    (hp : onCanvas p = false) : floodFill p s = .raised (takeFault .outOfBounds s) := by
  obtain ⟨pen, hpen⟩ := Option.ne_none_iff_exists'.mp hpen
  rw [floodFill_enabled hvis hpen, fbRead_of_outside hp, Flow.bind_raised]

/-- The command runs the fill of its first seed first. -/
theorem exec_floodFill_of_seed {s : State} {p : Point} (hp : Encodable p) (hstarts : StartsElement (encodeAbs p))
    {rest : List Byte} (hdrop : s.prog.drop s.pos = encodeAbs p ++ rest) : exec .floodFill s =
      ((floodFill p (s.setPos (s.pos + 3))).bind (whileElements seed)).outcome := by
  show (whileElements seed () s).outcome = _
  rw [whileElements_starts advances_seed () hdrop hstarts, seed, fetchAbs_encodeAbs hp hdrop, Flow.bind_done]

/-- Settles O44, clause by clause from the lemmas above. -/
theorem drawingFaults : Obligations.DrawingFaults := by
  refine ⟨?line, ?long, ?medium, ?short, ?seed, ?noPen⟩
  case line =>
    intro s pen p q before hvis hpen hout
    exact drawLine_firstOutside hvis hpen hout
  case long =>
    intro s pen p q ps before hvis hpen hp hps hstream hon hout
    have hlen : (encodeAbs p ++ (ps ++ [q]).flatMap encodeAbs).length = 3 * (ps.length + 2) := by
      rw [List.length_append, length_encodeAbs, length_flatMap_encodeAbs, List.length_append, List.length_singleton]
      omega
    have hhops : ps.map absHop ++ [absHop q] = (ps ++ [q]).map absHop := by
      rw [List.map_append, List.map_singleton]
    have hrun := polyline_firstOutside Moves.nextAbs hvis hpen (hs := ps.map absHop) (h := absHop q)
      (by rw [hhops]; exact absHops_stand hps) hp (by rwa [hhops, flatMap_absHop]) (by rwa [hopPoints_abs])
      (before := before) (by rwa [hopEnd_eq_getLastD, hopPoints_abs])
    rw [hhops, flatMap_absHop, hopPoints_abs, hlen] at hrun
    exact hrun
  case medium =>
    intro s pen p ds d before hvis hpen hp hds hstream hon hout
    have hlen : s.pos + (encodeAbs p ++ (ds ++ [d]).flatMap fun e => [e.1, e.2]).length =
        s.pos + 3 + 2 * (ds.length + 1) := by
      rw [List.length_append, length_encodeAbs, length_flatMap_pairs, List.length_append, List.length_singleton,
        Nat.add_assoc]
    have hhops : ds.map mediumHop ++ [mediumHop d] = (ds ++ [d]).map mediumHop := by
      rw [List.map_append, List.map_singleton]
    have hrun := polyline_firstOutside Moves.nextMedium hvis hpen (hs := ds.map mediumHop) (h := mediumHop d)
      (by rw [hhops]; exact mediumHops_stand hds) hp (by rwa [hhops, flatMap_mediumHop]) (by rwa [hopPoints_medium])
      (before := before) (by rwa [hopEnd_eq_getLastD, hopPoints_medium])
    rw [hhops, flatMap_mediumHop, hopPoints_medium, painted, hlen] at hrun
    exact hrun
  case short =>
    intro s pen p bs b before hvis hpen hp hbs hstream hon hout
    have hlen : s.pos + (encodeAbs p ++ (bs ++ [b])).length = s.pos + 3 + (bs.length + 1) := by
      rw [List.length_append, length_encodeAbs, List.length_append, List.length_singleton, Nat.add_assoc]
    have hhops : bs.map shortHop ++ [shortHop b] = (bs ++ [b]).map shortHop := by
      rw [List.map_append, List.map_singleton]
    have hrun := polyline_firstOutside Moves.nextShort hvis hpen (hs := bs.map shortHop) (h := shortHop b)
      (by rw [hhops]; exact shortHops_stand hbs) hp (by rwa [hhops, flatMap_shortHop]) (by rwa [hopPoints_short])
      (before := before) (by rwa [hopEnd_eq_getLastD, hopPoints_short])
    rw [hhops, flatMap_shortHop, hopPoints_short, painted, hlen] at hrun
    exact hrun
  case seed =>
    rintro s p hvis hpen hp hstarts ⟨rest, hdrop⟩ hout
    rw [exec_floodFill_of_seed hp hstarts hdrop, floodFill_outside (s := s.setPos (s.pos + 3)) hvis hpen hout]
    rfl
  case noPen =>
    intro s p hvis hpen hp
    refine ⟨fun q hq hstarts hstream => ?_, fun d hd hstream => ?_, fun b hb hstream => ?_, fun hstarts hstream => ?_⟩
    · exact polyline_penUnset Moves.nextAbs hvis hpen hp (follows_abs hq) hstarts hstream
    · exact polyline_penUnset Moves.nextMedium hvis hpen hp (follows_medium d) (startsElement_cons hd _) hstream
    · exact polyline_penUnset Moves.nextShort hvis hpen hp (follows_short b) (startsElement_cons hb _) hstream
    · obtain ⟨rest, hdrop⟩ := hstream
      refine ⟨?_, fun htex hrect hsize i hi => ?_⟩
      · rw [exec_floodFill_of_seed hp hstarts hdrop, floodFill_penUnset (s := s.setPos (s.pos + 3)) hvis hpen]
        rfl
      · exact exec_pattern_of_first_raised hi hdrop hstarts
          (stampElement_dot_penUnset hvis hpen htex hrect hsize hp hdrop _)

/-! ### A payload cut short -/

theorem bytesLeft_of_drop {s : State} {bs : List Byte} (hdrop : s.prog.drop s.pos = bs) : bytesLeft s = bs.length := by
  rw [← hdrop, List.length_drop]
  rfl

/-- Where the stream ends inside a part, what comes after the part is not reached. -/
theorem Takes.bind_cut {α β : Type} {n : Nat} {s : State} {x : Flow α} (hx : Takes n s x) {bs : List Byte}
    (hdrop : s.prog.drop s.pos = bs) (hlen : bs.length < n) (f : α → State → Flow β) :
    x.bind f = .raised (takeFault .unexpectedEnd (s.setPos (s.pos + bs.length))) := by
  have hleft := bytesLeft_of_drop hdrop
  rw [hx.2 (by omega), hleft]
  rfl

/-- A cut element ends the loop, and the cursor is at the end of the stream. -/
theorem whileElements_cut {α : Type} {element : α → State → Flow α} (hadv : Advances element) {a : α} {s : State}
    {cut : List Byte} {n : Nat} (hdrop : s.prog.drop s.pos = cut) (hcut : CutElement cut n)
    (h : cut.length < n → element a s = .raised (takeFault .unexpectedEnd (s.setPos (s.pos + cut.length)))) :
    whileElements element a s = .raised (takeFault .unexpectedEnd (s.setPos s.prog.length)) := by
  obtain ⟨hstarts, hlen⟩ := hcut
  have hend : s.pos + cut.length = s.prog.length := by
    obtain ⟨b, rest, rfl, -⟩ := hstarts
    exact pos_add_length hdrop (List.cons_ne_nil _ _)
  rw [whileElements_starts (rest := []) hadv a (by rw [hdrop, List.append_nil]) hstarts, h hlen, hend]
  rfl

theorem whileElements_segment_cut {next : Point → State → Flow Point} (hmove : ∀ p s, Moves 1 s (next p s)) {n : Nat}
    (htakes : ∀ p s, Takes n s (next p s)) {s : State} {cut : List Byte} (hdrop : s.prog.drop s.pos = cut)
    (hcut : CutElement cut n) (p : Point) : whileElements (segment next) p s =
      .raised (takeFault .unexpectedEnd (s.setPos s.prog.length)) :=
  whileElements_cut (advances_segment hmove) hdrop hcut fun hlen => (htakes p s).bind_cut hdrop hlen _

theorem whileElements_stamp_cut {next : Point → State → Flow Point} (hmove : ∀ p s, Moves 1 s (next p s)) {n : Nat}
    (htakes : ∀ p s, Takes n s (next p s)) {s : State} {cut : List Byte} (hdrop : s.prog.drop s.pos = cut)
    (hcut : CutElement cut (n + selectorBytes s.patternFlags)) (p : Point) : whileElements (stampElement next) p s =
      .raised (takeFault .unexpectedEnd (s.setPos s.prog.length)) := by
  refine whileElements_cut (advances_stampElement hmove) hdrop hcut fun hlen => ?_
  rw [stampElement_eq]
  exact (takes_stampHead htakes p s).bind_cut hdrop (by omega) _

/-- The fixed coordinate of a polyline cut short. -/
theorem polyline_first_cut (next : Point → State → Flow Point) {s : State} {bs : List Byte}
    (hdrop : s.prog.drop s.pos = bs) (hlen : bs.length < 3) :
    (polyline next s).outcome = .next (takeFault .unexpectedEnd (s.setPos (s.pos + bs.length))) := by
  rw [polyline, (takes_fetchAbs s).bind_cut hdrop hlen]
  rfl

/-- The first stamp of a relative pattern command cut short. -/
theorem patternWalk_first_cut (next : Point → State → Flow Point) {s : State} {bs : List Byte}
    (hdrop : s.prog.drop s.pos = bs) (hlen : bs.length < 3 + selectorBytes s.patternFlags) :
    (patternWalk next s).outcome = .next (takeFault .unexpectedEnd (s.setPos (s.pos + bs.length))) := by
  have hhead := takes_stampHead (next := nextAbs) (n := 3) (fun _ => takes_fetchAbs) ⟨0, 0⟩ s
  rw [patternWalk_eq next ⟨0, 0⟩, stampElement_eq, hhead.bind_cut hdrop (by omega)]
  rfl

section
variable {next : Point → State → Flow Point} (hmove : ∀ p s, Moves 1 s (next p s)) {n : Nat}
  (htakes : ∀ p s, Takes n s (next p s)) {s : State} {pen : Pen} (hvis : s.visualEnabled = true) (hpen : s.pen = some pen)
include hmove htakes hvis hpen

/-- A polyline whose last element is cut short: the complete segments are painted. -/
theorem polyline_cut {hs : List Hop} (hstand : ∀ h ∈ hs, Follows next h ∧ StartsElement h.bytes) {p : Point}
    (hp : Encodable p) {cut : List Byte} (hdrop : s.prog.drop s.pos = encodeAbs p ++ hs.flatMap Hop.bytes ++ cut)
    (hcut : CutElement cut n) (hon : ∀ r ∈ pathPixels p (hopPoints p hs), onCanvas r = true) :
    (polyline next s).outcome = .next (takeFault .unexpectedEnd
      ((s.setPos s.prog.length).setFb (paint pen (pathPixels p (hopPoints p hs)) s.fb))) := by
  obtain ⟨t, rfl, hrest, hrun⟩ := polyline_segments hmove hstand hp hvis hpen hdrop hon
  rw [hrun, whileElements_segment_cut hmove htakes hrest hcut]
  rfl

/-- A relative pattern command whose last element is cut short: the complete stamps are painted. -/
theorem patternWalk_cut {es : List (Option Byte × Hop)} {sel : Option Byte} {p : Point} (hp : Encodable p)
    (hsel : sel.isSome = usesTexture s.patternFlags) (hstand : ∀ e ∈ es, StampStands next s.patternFlags e)
    {cut : List Byte} (hdrop : s.prog.drop s.pos = sel.toList ++ encodeAbs p ++ es.flatMap stampBytes ++ cut)
    (hcut : CutElement cut (n + selectorBytes s.patternFlags)) : (patternWalk next s).outcome =
      .next (takeFault .unexpectedEnd ((s.setPos s.prog.length).setFb
        (paint pen (stampPixels s.config.pattern sel s.patternFlags p ++
          stampsAlong s.config.pattern s.patternFlags p es) s.fb))) := by
  obtain ⟨t, rfl, hrest, hrun⟩ := patternWalk_stamps hmove hp hsel hstand hvis hpen hdrop
  rw [hrun, whileElements_stamp_cut hmove htakes hrest hcut]
  rfl

end

/-- Settles O60: the fixed parts by `Takes`, the later elements after the complete ones are drawn. -/
theorem drawingCutShort : Obligations.DrawingCutShort := by
  refine ⟨fun s bs hdrop => ⟨fun hlen i hi => ?_, fun hlen i hi => ?_, fun hcut => ?_⟩,
    fun s pen cut hvis hpen => ⟨?long, ?medium, ?longPatterns, ?shortPatterns, ?mediumPatterns⟩⟩
  · simp only [List.mem_cons, List.not_mem_nil, or_false] at hi
    rcases hi with rfl | rfl | rfl
    · exact polyline_first_cut nextAbs hdrop hlen
    · exact polyline_first_cut nextMedium hdrop hlen
    · exact polyline_first_cut nextShort hdrop hlen
  · simp only [List.mem_cons, List.not_mem_nil, or_false] at hi
    rcases hi with rfl | rfl
    · exact patternWalk_first_cut nextShort hdrop hlen
    · exact patternWalk_first_cut nextMedium hdrop hlen
  · exact congrArg Flow.outcome
      (whileElements_cut advances_seed hdrop hcut fun hlen => (takes_fetchAbs s).bind_cut hdrop hlen _)
  case long =>
    intro p ps hp hps hdrop hcut hon
    have hrun := polyline_cut Moves.nextAbs (fun _ => takes_fetchAbs) hvis hpen (absHops_stand hps) hp
      (by rwa [flatMap_absHop]) hcut (by rwa [hopPoints_abs])
    rw [hopPoints_abs] at hrun
    exact hrun
  case medium =>
    intro p ds hp hds hdrop hcut hon
    have hrun := polyline_cut Moves.nextMedium takes_nextMedium hvis hpen (mediumHops_stand hds) hp
      (by rwa [flatMap_mediumHop]) hcut (by rwa [hopPoints_medium])
    rw [hopPoints_medium] at hrun
    exact hrun
  case longPatterns =>
    intro es hes hdrop hcut
    rw [← flatMap_absStamps] at hdrop
    rw [exec_longPatterns_eq ⟨0, 0⟩, whileElements_stamps Moves.nextAbs (absStamps_stand hes) hvis hpen hdrop,
      whileElements_stamp_cut Moves.nextAbs (n := 3) (fun _ => takes_fetchAbs) (drop_painted hdrop pen _) hcut,
      selectedHops, stampsAlong_abs]
    rfl
  case shortPatterns =>
    intro sel p es hsel hp hes hdrop hcut
    have hrun := patternWalk_cut Moves.nextShort takes_nextShort hvis hpen hp hsel
      (selectedHops_stand shortHop es (fun e _ => follows_short e.2) hes) (by rwa [flatMap_selectedHops]) hcut
    rw [stampsAlong_selectedHops, hopPoints_short] at hrun
    exact hrun
  case mediumPatterns =>
    intro sel p es hsel hp hes hdrop hcut
    have hrun := patternWalk_cut Moves.nextMedium takes_nextMedium hvis hpen hp hsel
      (selectedHops_stand mediumHop es (fun e _ => follows_medium e.2) hes) (by rwa [flatMap_selectedHops]) hcut
    rw [stampsAlong_selectedHops, hopPoints_medium] at hrun
    exact hrun

end Sys2Proof.Machine
end

section
/-! Proofs of the family 'other', the frame of the polyline and pattern commands, and drawing that is disabled. -/

namespace Sys2Proof.Machine

/-! ### Fetching does not see the framebuffer or the flag -/

/-- The state with another flag and another framebuffer. -/
def State.withDrawing (v : Bool) (m : Framebuffer) (s : State) : State := { s with visualEnabled := v, fb := m }

def Flow.mapState {α : Type} (g : State → State) (x : Flow α) : Flow α :=
  match x with
  | .done a t => .done a (g t)
  | .raised t => .raised (g t)
  | .stuck r => .stuck r

/-- A part that runs alike with another flag and another framebuffer, and leaves them as they are. -/
def Blind {α : Type} (f : State → Flow α) : Prop :=
  ∀ v m s, f (s.withDrawing v m) = (f s).mapState (State.withDrawing v m)

theorem Flow.mapState_bind {α β : Type} {g : State → State} {x : Flow α} {f : α → State → Flow β}
    (hf : ∀ a t, f a (g t) = (f a t).mapState g) : (x.mapState g).bind f = (x.bind f).mapState g := by
  cases x with
  | done a t => exact hf a t
  | raised t => rfl
  | stuck r => rfl

theorem Blind.bind {α β : Type} {f : State → Flow α} (hf : Blind f) {k : α → State → Flow β} (hk : ∀ a, Blind (k a)) :
    Blind fun s => (f s).bind k := by
  intro v m s
  show (f (s.withDrawing v m)).bind k = _
  rw [hf v m s, Flow.mapState_bind fun a t => hk a v m t]

theorem blind_done {α : Type} (a : α) : Blind (Flow.done a) := fun _ _ _ => rfl

theorem blind_fetch : Blind fetch := by
  intro v m s
  rcases fetch_cases s with ⟨b, -, hb, h⟩ | ⟨hend, h⟩
  · rw [h, fetch_of_some (s := s.withDrawing v m) hb]
    rfl
  · rw [h, fetch_of_none (s := s.withDrawing v m) (List.getElem?_eq_none hend)]
    rfl

theorem blind_fetchAbs : Blind fetchAbs :=
  blind_fetch.bind fun _ => blind_fetch.bind fun _ => blind_fetch.bind fun _ => blind_done _

theorem blind_fetchSelector : Blind fetchSelector := by
  intro v m s
  unfold fetchSelector
  by_cases h : usesTexture s.patternFlags = true
  · rw [if_pos h, if_pos (show usesTexture (s.withDrawing v m).patternFlags = true from h)]
    exact (blind_fetch.bind fun b => blind_done (some b)) v m s
  · rw [if_neg h, if_neg (show ¬ usesTexture (s.withDrawing v m).patternFlags = true from h)]
    rfl

theorem blind_nextShort (p : Point) : Blind (nextShort p) := blind_fetch.bind fun _ => blind_done _

theorem blind_nextMedium (p : Point) : Blind (nextMedium p) := blind_fetch.bind fun _ => blind_fetch.bind fun _ => blind_done _

/-! ### The points and stamps that a payload describes -/

theorem walkedPoints_withDrawing {next : Point → State → Flow Point} (h : ∀ p, Blind (next p)) (n : Nat) (p : Point)
    (v : Bool) (m : Framebuffer) (s : State) : walkedPoints next n p (s.withDrawing v m) = walkedPoints next n p s := by
  induction n generalizing p s with
  | zero => rfl
  | succ n ih =>
    rw [walkedPoints, walkedPoints, h p v m s, show nextIsCommand (s.withDrawing v m) = nextIsCommand s from rfl]
    cases next p s with
    | done q t => simp only [Flow.mapState, ih]
    | raised t => rfl
    | stuck r => rfl

theorem walkedStamps_withDrawing {next : Point → State → Flow Point} (h : ∀ p, Blind (next p)) (n : Nat) (p : Point)
    (v : Bool) (m : Framebuffer) (s : State) : walkedStamps next n p (s.withDrawing v m) = walkedStamps next n p s := by
  induction n generalizing p s with
  | zero => rfl
  | succ n ih =>
    rw [walkedStamps, walkedStamps, blind_fetchSelector v m s,
      show nextIsCommand (s.withDrawing v m) = nextIsCommand s from rfl]
    cases fetchSelector s with
    | done sel t =>
      simp only [Flow.mapState, h p v m t]
      cases next p t with
      | done q u =>
        simp only [ih]
        rfl
      | raised u => rfl
      | stuck r => rfl
    | raised t => rfl
    | stuck r => rfl

/-! ### The cells that drawing leaves alone -/

theorem SameCellsOutside.of_fb_eq {ps : List Point} {s t : State} (h : t.fb = s.fb) : SameCellsOutside ps s t :=
  fun _ _ => by rw [h]

theorem SameCellsOutside.append {ps qs : List Point} {s t u : State} (h : SameCellsOutside ps s t)
    (h' : SameCellsOutside qs t u) : SameCellsOutside (ps ++ qs) s u := fun a ha =>
  (h' a fun p hp => ha p (List.mem_append_right _ hp)).trans (h a fun p hp => ha p (List.mem_append_left _ hp))

theorem SameCellsOutside.append_right {ps : List Point} {s t : State} (h : SameCellsOutside ps s t) (qs : List Point) :
    SameCellsOutside (ps ++ qs) s t := h.append (SameCellsOutside.of_fb_eq rfl)

theorem SameCellsOutside.of_start {ps : List Point} {s s' t : State} (hs : s'.fb = s.fb) (h : SameCellsOutside ps s' t) :
    SameCellsOutside ps s t := (SameCellsOutside.of_fb_eq (ps := []) hs).append h

theorem Inert.fb_eq {s t : State} (h : Inert s t) : t.fb = s.fb := by
  rw [show t = _ from h]

theorem Inert.stampPixels_eq {s t : State} (h : Inert s t) (sel : Option Byte) (p : Point) :
    stampPixels s.config.pattern sel s.patternFlags p = stampPixels t.config.pattern sel t.patternFlags p := by
  rw [show t = _ from h]

theorem Inert.bind {α β : Type} {s : State} {x : Flow α} {f : α → State → Flow β} (hx : x.Leaves (Inert s))
    (hf : ∀ a t, (f a t).Leaves (Inert t)) : (x.bind f).Leaves (Inert s) :=
  Flow.leaves_bind (R := Inert) Inert.trans hx fun a t _ => hf a t

theorem inert_fetchAbs (s : State) : (fetchAbs s).Leaves (Inert s) :=
  Inert.bind (inert_fetch s) fun _ t => Inert.bind (inert_fetch t) fun _ t => Inert.bind (inert_fetch t) fun _ t =>
    Inert.refl t

theorem inert_nextShort (p : Point) (s : State) : (nextShort p s).Leaves (Inert s) :=
  Inert.bind (inert_fetch s) fun _ t => Inert.refl t

theorem inert_nextMedium (p : Point) (s : State) : (nextMedium p s).Leaves (Inert s) :=
  Inert.bind (inert_fetch s) fun _ t => Inert.bind (inert_fetch t) fun _ t => Inert.refl t

theorem inert_fetchSelector (s : State) : (fetchSelector s).Leaves (Inert s) := by
  unfold fetchSelector
  split
  · exact Inert.bind (inert_fetch s) fun _ t => Inert.refl t
  · exact Inert.refl s

theorem Flow.Leaves.of_done {α : Type} {x : Flow α} {Q : State → Prop} (h : x.Leaves Q) {a : α} {t : State}
    (hx : x = .done a t) : Q t := by
  rw [hx] at h
  exact h

/-- Drawing, and then a part that keeps the cells outside its own pixels. -/
theorem sameCells_draw_bind {x : Flow Unit} {ps qs : List Point} {s : State} (hx : x.Leaves (Drew ps s)) {α : Type}
    {f : Unit → State → Flow α} (hf : ∀ t, x = .done () t → (f () t).Leaves (SameCellsOutside qs t)) :
    (x.bind f).Leaves (SameCellsOutside (ps ++ qs) s) := by
  cases x with
  | done a t =>
    obtain ⟨-, -, hsame, -⟩ := hx
    exact Flow.leaves_mono (hf t rfl) fun _ h => hsame.append h
  | raised t =>
    obtain ⟨-, -, hsame, -⟩ := hx
    exact hsame.append_right qs
  | stuck r => trivial

/-- A stamp, and then the walk from its point. -/
theorem stamp_walk_sameCells {next : Point → State → Flow Point} (hblind : ∀ p, Blind (next p)) {n : Nat} {q : Point}
    (hwalk : ∀ v, (repeatElements (stampElement next) n q v).Leaves (SameCellsOutside (walkedStamps next n q v) v))
    (sel : Option Byte) (u : State) {f : Unit → State → Flow Point}
    (hf : ∀ v, stamp sel q u = .done () v → f () v = repeatElements (stampElement next) n q v) :
    ((stamp sel q u).bind f).Leaves (SameCellsOutside
      (stampPixels u.config.pattern sel u.patternFlags q ++ walkedStamps next n q u) u) := by
  refine sameCells_draw_bind (stamp_leaves sel q u) fun v hv => ?_
  have hsame : walkedStamps next n q v = walkedStamps next n q u := by
    rw [stamp_done hv]
    exact walkedStamps_withDrawing hblind n q u.visualEnabled v.fb u
  rw [hf v hv, ← hsame]
  exact hwalk v

section
variable {next : Point → State → Flow Point} (hinert : ∀ p s, (next p s).Leaves (Inert s)) (hblind : ∀ p, Blind (next p))
include hinert hblind

/-- The segments of a payload write no cell but those of the pixels that the payload describes. -/
theorem segments_sameCells (n : Nat) (p : Point) (s : State) : (repeatElements (segment next) n p s).Leaves
    (SameCellsOutside (pathPixels p (walkedPoints next n p s)) s) := by
  induction n generalizing p s with
  | zero => exact SameCellsOutside.of_fb_eq rfl
  | succ n ih =>
    rw [repeatElements_succ, walkedPoints]
    by_cases hc : nextIsCommand s = true
    · rw [if_pos hc, if_pos hc]
      exact SameCellsOutside.of_fb_eq rfl
    · have hfetch := hinert p s
      rw [if_neg hc, if_neg hc, segment]
      cases hn : next p s with
      | done q t =>
        rw [hn] at hfetch
        rw [Flow.bind_done, Flow.bind_assoc]
        refine Flow.leaves_mono (sameCells_draw_bind (drawLine_leaves p q t)
          (qs := pathPixels q (walkedPoints next n q t)) fun u hu => ?_) fun _ => SameCellsOutside.of_start hfetch.fb_eq
        have hwalk : walkedPoints next n q u = walkedPoints next n q t := by
          rw [drawLine_done hu]
          exact walkedPoints_withDrawing hblind n q t.visualEnabled u.fb t
        rw [← hwalk]
        exact ih q u
      | raised t =>
        rw [hn] at hfetch
        exact SameCellsOutside.of_fb_eq hfetch.fb_eq
      | stuck r => trivial

theorem polyline_sameCells (s : State) : (polyline next s).Leaves (SameCellsOutside (polylinePixels next s) s) := by
  have hfetch := inert_fetchAbs s
  rw [polyline, polylinePixels, Flow.leaves_void]
  cases hp : fetchAbs s with
  | done p t =>
    rw [hp] at hfetch
    exact Flow.leaves_mono (segments_sameCells hinert hblind _ p t) fun _ => SameCellsOutside.of_start hfetch.fb_eq
  | raised t =>
    rw [hp] at hfetch
    exact SameCellsOutside.of_fb_eq hfetch.fb_eq
  | stuck r => trivial

/-- The stamps of a payload write no cell but those of the pixels that the payload describes. -/
theorem stamps_sameCells (n : Nat) (p : Point) (s : State) : (repeatElements (stampElement next) n p s).Leaves
    (SameCellsOutside (walkedStamps next n p s) s) := by
  induction n generalizing p s with
  | zero => exact SameCellsOutside.of_fb_eq rfl
  | succ n ih =>
    rw [repeatElements_succ, walkedStamps]
    by_cases hc : nextIsCommand s = true
    · rw [if_pos hc, if_pos hc]
      exact SameCellsOutside.of_fb_eq rfl
    · have hsel := inert_fetchSelector s
      rw [if_neg hc, if_neg hc, stampElement]
      cases hs : fetchSelector s with
      | done sel t =>
        rw [hs] at hsel
        have hfetch := hinert p t
        rw [Flow.bind_done]
        cases hn : next p t with
        | done q u =>
          rw [hn] at hfetch
          have hsu : Inert s u := Inert.trans hsel hfetch
          rw [Flow.bind_done, Flow.bind_assoc]
          simp only [hn, hsu.stampPixels_eq]
          exact Flow.leaves_mono (stamp_walk_sameCells hblind (ih q) sel u fun _ _ => rfl) fun _ =>
            SameCellsOutside.of_start hsu.fb_eq
        | raised u =>
          rw [hn] at hfetch
          exact SameCellsOutside.of_fb_eq (Inert.trans hsel hfetch).fb_eq
        | stuck r => trivial
      | raised t =>
        rw [hs] at hsel
        exact SameCellsOutside.of_fb_eq hsel.fb_eq
      | stuck r => trivial

theorem patternWalk_sameCells (s : State) : (patternWalk next s).Leaves (SameCellsOutside (patternPixels next s) s) := by
  have hsel := inert_fetchSelector s
  rw [patternWalk, patternPixels, Flow.leaves_void]
  cases hs : fetchSelector s with
  | done sel t =>
    rw [hs] at hsel
    have hfetch := inert_fetchAbs t
    rw [Flow.bind_done]
    cases hp : fetchAbs t with
    | done p u =>
      rw [hp] at hfetch
      have hsu : Inert s u := Inert.trans hsel hfetch
      simp only [hp, hsu.stampPixels_eq]
      refine Flow.leaves_mono (stamp_walk_sameCells hblind (stamps_sameCells hinert hblind (bytesLeft u) p) sel u
        fun v hv => ?_) fun _ => SameCellsOutside.of_start hsu.fb_eq
      rw [stamp_done hv]
      rfl
    | raised u =>
      rw [hp] at hfetch
      exact SameCellsOutside.of_fb_eq (Inert.trans hsel hfetch).fb_eq
    | stuck r => trivial
  | raised t =>
    rw [hs] at hsel
    exact SameCellsOutside.of_fb_eq hsel.fb_eq
  | stuck r => trivial

end

/-- Settles O43: the registers by the frame of the command's effect, the cells by the walk along its payload. -/
theorem linesAndPatternsFrame : Obligations.LinesAndPatternsFrame := by
  intro s t
  have habs : ∀ p, Blind (nextAbs p) := fun _ => blind_fetchAbs
  refine ⟨fun h => ⟨exec_frame h, ?_⟩, fun h => ⟨exec_frame h, ?_⟩, fun h => ⟨exec_frame h, ?_⟩,
    fun h => ⟨exec_frame h, ?_⟩, fun h => ⟨exec_frame h, ?_⟩, fun h => ⟨exec_frame h, ?_⟩⟩
  · exact Flow.of_outcome_next (polyline_sameCells (fun _ => inert_fetchAbs) habs s) h
  · exact Flow.of_outcome_next (polyline_sameCells inert_nextMedium blind_nextMedium s) h
  · exact Flow.of_outcome_next (polyline_sameCells inert_nextShort blind_nextShort s) h
  · rw [exec_longPatterns_eq ⟨0, 0⟩] at h
    exact Flow.of_outcome_next (stamps_sameCells (fun _ => inert_fetchAbs) habs (bytesLeft s) ⟨0, 0⟩ s) h
  · exact Flow.of_outcome_next (patternWalk_sameCells inert_nextShort blind_nextShort s) h
  · exact Flow.of_outcome_next (patternWalk_sameCells inert_nextMedium blind_nextMedium s) h

/-! ### Disabled drawing consumes -/

/-- A part that only reads: what it can leave, with the cursor no further than the end of the stream. -/
def Reads {α : Type} (s : State) (x : Flow α) : Prop :=
  match x with
  | .done _ t => ∃ n, n ≤ bytesLeft s ∧ t = s.setPos (s.pos + n)
  | .raised t => t = takeFault .unexpectedEnd (s.setPos (s.pos + bytesLeft s))
  | .stuck _ => False

section
variable {α β : Type}

theorem reads_done (a : α) (s : State) : Reads s (.done a s) := ⟨0, Nat.zero_le _, rfl⟩

theorem Takes.reads {n : Nat} {s : State} {x : Flow α} (h : Takes n s x) : Reads s x := by
  rcases Nat.lt_or_ge (bytesLeft s) n with hshort | hlong
  · rw [h.2 hshort]
    rfl
  · obtain ⟨a, ha⟩ := h.1 hlong
    rw [ha]
    exact ⟨n, hlong, rfl⟩

theorem Reads.bind {s : State} {x : Flow α} {f : α → State → Flow β} (hx : Reads s x)
    (hf : ∀ a n, Reads (s.setPos n) (f a (s.setPos n))) : Reads s (x.bind f) := by
  cases x with
  | done a t =>
    obtain ⟨n, hn, rfl⟩ := hx
    have hleft : bytesLeft (s.setPos (s.pos + n)) = bytesLeft s - n := Nat.sub_add_eq _ _ _
    have hend : s.pos + n + (bytesLeft s - n) = s.pos + bytesLeft s := by omega
    have hrest := hf a (s.pos + n)
    rw [Flow.bind_done]
    cases hfa : f a (s.setPos (s.pos + n)) with
    | done b u =>
      rw [hfa] at hrest
      obtain ⟨m, hm, rfl⟩ := hrest
      exact ⟨n + m, by omega, by rw [← Nat.add_assoc]; rfl⟩
    | raised u =>
      rw [hfa] at hrest
      rw [show u = _ from hrest, hleft, State.pos_setPos, State.setPos_setPos, hend]
      rfl
    | stuck r =>
      rw [hfa] at hrest
      exact hrest
  | raised t => exact hx
  | stuck r => exact hx

theorem reads_repeatElements {element : α → State → Flow α}
    (h : ∀ a s, s.visualEnabled = false → Reads s (element a s)) (n : Nat) (a : α) {s : State}
    (hvis : s.visualEnabled = false) : Reads s (repeatElements element n a s) := by
  induction n generalizing a s with
  | zero => exact reads_done a s
  | succ n ih =>
    rw [repeatElements_succ]
    split
    · exact reads_done a s
    · exact (h a s hvis).bind fun b m => ih b hvis

end

theorem drawLine_disabled {s : State} (h : s.visualEnabled = false) (p q : Point) : drawLine p q s = .done () s := by
  rw [drawLine, if_neg (by rw [h]; decide)]

theorem floodFill_disabled {s : State} (h : s.visualEnabled = false) (p : Point) : floodFill p s = .done () s := by
  rw [floodFill, if_neg (by rw [h]; decide)]

section
variable {next : Point → State → Flow Point} {n : Nat} (htakes : ∀ p s, Takes n s (next p s)) {s : State}
  (hvis : s.visualEnabled = false)
include htakes hvis

/-- A segment that is not drawn is its coordinate. -/
theorem takes_segment (p : Point) : Takes n s (segment next p s) :=
  (htakes p s).bind (m := 0) fun q => by
    rw [drawLine_disabled (s := s.setPos (s.pos + n)) hvis]
    exact takes_done _ _

/-- A stamp that is not made is its selector and its coordinate. -/
theorem takes_stampElement (p : Point) : Takes (selectorBytes s.patternFlags + n) s (stampElement next p s) := by
  rw [stampElement_eq]
  refine (takes_stampHead htakes p s).bind (m := 0) fun e => ?_
  rw [stamp_disabled (s := s.setPos (s.pos + (selectorBytes s.patternFlags + n))) hvis]
  exact takes_done _ _

end

/-- A seed that is not filled is its coordinate. -/
theorem takes_seed {s : State} (hvis : s.visualEnabled = false) (a : Unit) : Takes 3 s (seed a s) :=
  (takes_fetchAbs s).bind (m := 0) fun p => by
    rw [floodFill_disabled (s := s.setPos (s.pos + 3)) hvis]
    exact takes_done _ _

theorem reads_polyline {next : Point → State → Flow Point} {n : Nat} (htakes : ∀ p s, Takes n s (next p s)) {s : State}
    (hvis : s.visualEnabled = false) : Reads s (polyline next s) :=
  Reads.bind (Reads.bind (takes_fetchAbs s).reads fun p m =>
    reads_repeatElements (fun q _ ht => (takes_segment htakes ht q).reads) _ p (s := s.setPos m) hvis)
      fun _ m => reads_done () (s.setPos m)

theorem reads_patternWalk {next : Point → State → Flow Point} {n : Nat} (htakes : ∀ p s, Takes n s (next p s)) {s : State}
    (hvis : s.visualEnabled = false) : Reads s (patternWalk next s) := by
  rw [patternWalk_eq next ⟨0, 0⟩]
  exact Reads.bind (Reads.bind (takes_stampElement (next := nextAbs) (fun _ => takes_fetchAbs) hvis _).reads fun p m =>
    reads_repeatElements (fun q _ ht => (takes_stampElement htakes ht q).reads) _ p (s := s.setPos m) hvis)
      fun _ m => reads_done () (s.setPos m)

/-- What the outcome of a part that only reads can be. -/
theorem Reads.outcome {α : Type} {s : State} {x : Flow α} (h : Reads s x) : ∃ t, x.outcome = .next t ∧
    (t = { s with pos := t.pos } ∨
      t = { s with pos := s.prog.length, status := .faulted, fault := .unexpectedEnd } ∨
      (s.prog.length ≤ s.pos ∧ t = { s with status := .faulted, fault := .unexpectedEnd })) := by
  cases x with
  | done a t =>
    obtain ⟨n, -, rfl⟩ := h
    exact ⟨_, rfl, .inl rfl⟩
  | raised t =>
    refine ⟨t, rfl, .inr ?_⟩
    rcases Nat.le_total s.prog.length s.pos with hend | hin
    · have hleft : bytesLeft s = 0 := Nat.sub_eq_zero_of_le hend
      rw [show t = _ from h, hleft]
      exact .inr ⟨hend, rfl⟩
    · have hlast : s.pos + bytesLeft s = s.prog.length := Nat.add_sub_cancel' hin
      rw [show t = _ from h, hlast]
      exact .inl rfl
  | stuck r => exact h.elim

/-! ### Disabled drawing follows the enabled run -/

/-- Where the one part goes on, the other goes on alike with drawing disabled, its framebuffer as it was. -/
def Shadows {α : Type} (m : Framebuffer) (x y : Flow α) : Prop :=
  ∀ a t, x = .done a t → y = .done a (t.withDrawing false m)

section
variable {α β : Type} {m : Framebuffer}

theorem Blind.shadows {f : State → Flow α} (h : Blind f) (m : Framebuffer) (s : State) :
    Shadows m (f s) (f (s.withDrawing false m)) := by
  intro a t ht
  rw [h false m s, ht]
  rfl

theorem shadows_done (a : α) (s : State) : Shadows m (.done a s) (.done a (s.withDrawing false m)) := by
  rintro b t ⟨⟩
  rfl

theorem Shadows.bind {x y : Flow α} {f : α → State → Flow β} (hx : Shadows m x y)
    (hf : ∀ a t, Shadows m (f a t) (f a (t.withDrawing false m))) : Shadows m (x.bind f) (y.bind f) := by
  intro b u h
  cases x with
  | done a t =>
    rw [hx a t rfl]
    exact hf a t b u h
  | raised t => cases h
  | stuck r => cases h

theorem shadows_repeatElements {element : α → State → Flow α}
    (h : ∀ a s, Shadows m (element a s) (element a (s.withDrawing false m))) (n : Nat) (a : α) (s : State) :
    Shadows m (repeatElements element n a s) (repeatElements element n a (s.withDrawing false m)) := by
  induction n generalizing a s with
  | zero => exact shadows_done a s
  | succ n ih =>
    rw [repeatElements_succ, repeatElements_succ, show nextIsCommand (s.withDrawing false m) = nextIsCommand s from rfl]
    split
    · exact shadows_done a s
    · exact (h a s).bind ih

theorem shadows_whileElements {element : α → State → Flow α}
    (h : ∀ a s, Shadows m (element a s) (element a (s.withDrawing false m))) (a : α) (s : State) :
    Shadows m (whileElements element a s) (whileElements element a (s.withDrawing false m)) :=
  shadows_repeatElements h _ a s

end

/-- A drawing part that writes nothing but the framebuffer, and is nothing where drawing is disabled. -/
theorem shadows_of_draws {f : State → Flow Unit} (hdone : ∀ {s t}, f s = .done () t → t = s.setFb t.fb)
    (hdisabled : ∀ {s : State}, s.visualEnabled = false → f s = .done () s) (m : Framebuffer) (s : State) :
    Shadows m (f s) (f (s.withDrawing false m)) := by
  intro a t h
  rw [hdisabled rfl, hdone h]
  rfl

section
variable {next : Point → State → Flow Point} (hblind : ∀ p, Blind (next p)) (m : Framebuffer)
include hblind

theorem shadows_segment (p : Point) (s : State) :
    Shadows m (segment next p s) (segment next p (s.withDrawing false m)) :=
  ((hblind p).shadows m s).bind fun q t =>
    (shadows_of_draws drawLine_done (fun h => drawLine_disabled h p q) m t).bind fun _ u => shadows_done q u

theorem shadows_stampElement (p : Point) (s : State) :
    Shadows m (stampElement next p s) (stampElement next p (s.withDrawing false m)) :=
  (blind_fetchSelector.shadows m s).bind fun sel t => ((hblind p).shadows m t).bind fun q u =>
    (shadows_of_draws stamp_done (fun h => stamp_disabled h sel q) m u).bind fun _ v => shadows_done q v

theorem shadows_polyline (s : State) : Shadows m (polyline next s) (polyline next (s.withDrawing false m)) :=
  Shadows.bind (Shadows.bind (blind_fetchAbs.shadows m s) fun p t =>
    shadows_whileElements (shadows_segment hblind m) p t) fun _ u => shadows_done () u

theorem shadows_patternWalk (s : State) : Shadows m (patternWalk next s) (patternWalk next (s.withDrawing false m)) := by
  rw [patternWalk_eq next ⟨0, 0⟩, patternWalk_eq next ⟨0, 0⟩]
  exact Shadows.bind (Shadows.bind (shadows_stampElement (next := nextAbs) (fun _ => blind_fetchAbs) m _ s) fun p t =>
    shadows_whileElements (shadows_stampElement hblind m) p t) fun _ u => shadows_done () u

end

theorem shadows_seed (m : Framebuffer) (a : Unit) (s : State) : Shadows m (seed a s) (seed a (s.withDrawing false m)) :=
  (blind_fetchAbs.shadows m s).bind fun p t => shadows_of_draws floodFill_done (fun h => floodFill_disabled h p) m t

theorem shadows_stampSeed (m : Framebuffer) (a : Unit) (s : State) :
    Shadows m (stampSeed a s) (stampSeed a (s.withDrawing false m)) :=
  (blind_fetchSelector.shadows m s).bind fun sel t => (blind_fetchAbs.shadows m t).bind fun p u =>
    shadows_of_draws stamp_done (fun h => stamp_disabled h sel p) m u

/-- A command that ends running has gone on, so its shadow has too; and it has changed what drawing may. -/
theorem Shadows.outcome {α : Type} {s t : State} {x y : Flow α} (h : Shadows s.fb x y) (hsound : x.Sound)
    (hleaves : x.Leaves (Drawn s)) (hx : x.outcome = .next t) (hrun : t.status = .running) :
    y.outcome = .next { s with visualEnabled := false, pos := t.pos } := by
  have hframe := Flow.of_outcome_next hleaves hx
  cases x with
  | done a u =>
    cases hx
    obtain ⟨⟨-, -, -, -, -, hfault, -⟩, hsame⟩ := hframe
    obtain ⟨hstatus, hcode⟩ := hfault.resolve_right fun hfaulted => by
      rw [hfaulted.1] at hrun
      cases hrun
    rw [SameButDrawing, hstatus, hcode] at hsame
    rw [h a t rfl]
    exact congrArg (fun u => Host.Outcome.next (State.withDrawing false s.fb u)) hsame
  | raised u =>
    cases hx
    rw [show t.status = .faulted from hsound] at hrun
    cases hrun
  | stuck r => exact hsound.elim

/-- Settles O45: a disabled drawing command is its fetches, and the enabled run fetches the same. -/
theorem disabledDrawingConsumesOnly : Obligations.DisabledDrawingConsumesOnly := by
  intro i hi
  have htakes : ∀ p s, Takes 3 s (nextAbs p s) := fun _ => takes_fetchAbs
  have hblind : ∀ p, Blind (nextAbs p) := fun _ => blind_fetchAbs
  have hsound : ∀ p s, (nextAbs p s).Sound := fun _ => sound_fetchAbs
  simp only [List.mem_cons, List.not_mem_nil, or_false] at hi
  rcases hi with rfl | rfl | rfl | rfl | rfl | rfl | rfl
  · exact ⟨fun s hvis => (reads_polyline htakes hvis).outcome, fun s t _ => (shadows_polyline hblind s.fb s).outcome
      (sound_polyline hsound s) (drawn_polyline (fun _ => drawn_fetchAbs) s)⟩
  · exact ⟨fun s hvis => (reads_polyline takes_nextMedium hvis).outcome,
      fun s t _ => (shadows_polyline blind_nextMedium s.fb s).outcome
        (sound_polyline sound_nextMedium s) (drawn_polyline drawn_nextMedium s)⟩
  · exact ⟨fun s hvis => (reads_polyline takes_nextShort hvis).outcome,
      fun s t _ => (shadows_polyline blind_nextShort s.fb s).outcome
        (sound_polyline sound_nextShort s) (drawn_polyline drawn_nextShort s)⟩
  · exact ⟨fun s hvis => (reads_repeatElements (fun a _ ht => (takes_seed ht a).reads) _ () hvis).outcome,
      fun s t _ => (shadows_whileElements (shadows_seed s.fb) () s).outcome
        (sound_flowOf .floodFill s) (drawn_seeds s)⟩
  · refine ⟨fun s hvis => ?_, fun s t _ => (shadows_whileElements (shadows_stampSeed s.fb) () s).outcome
      (sound_flowOf .longPatterns s) (drawn_stampSeeds s)⟩
    rw [exec_longPatterns_eq ⟨0, 0⟩]
    exact (reads_repeatElements (fun q _ ht => (takes_stampElement htakes ht q).reads) _ _ hvis).outcome
  · exact ⟨fun s hvis => (reads_patternWalk takes_nextShort hvis).outcome,
      fun s t _ => (shadows_patternWalk blind_nextShort s.fb s).outcome
        (sound_patternWalk sound_nextShort s) (drawn_patternWalk drawn_nextShort s)⟩
  · exact ⟨fun s hvis => (reads_patternWalk takes_nextMedium hvis).outcome,
      fun s t _ => (shadows_patternWalk blind_nextMedium s.fb s).outcome
        (sound_patternWalk sound_nextMedium s) (drawn_patternWalk drawn_nextMedium s)⟩

end Sys2Proof.Machine
end

section
/-! Proofs of the family 'other', an assembled line as one command (R65, R66). -/

namespace Sys2Proof.Machine

/-! ### What the assembler gives -/

/-- The elements of a payload, each beginning with a byte that is no command, joined. -/
theorem asmElements_some {es : List (Option (List Byte))} {bs : List Byte} (h : asmElements es = some bs) :
    ∃ cs : List (List Byte), es = cs.map some ∧ bs = cs.flatten ∧ ∀ c ∈ cs, StartsElement c := by
  induction es generalizing bs with
  | nil =>
    cases h
    exact ⟨[], rfl, rfl, by simp⟩
  | cons e es ih =>
    unfold asmElements at h
    split at h
    · next c rest he hes =>
      cases h
      obtain ⟨cs, rfl, rfl, hcs⟩ := ih hes
      unfold asmElement at he
      split at he
      · next b more =>
        split at he
        · next hb =>
          cases he
          exact ⟨(b :: more) :: cs, rfl, rfl, List.forall_mem_cons.mpr ⟨startsElement_cons hb more, hcs⟩⟩
        · cases he
      · cases he
      · cases he
    · cases h

theorem asmCommand_some {opcode : List Byte} {fixed : Option (List Byte)} {es : List (Option (List Byte))}
    {bs : List Byte} (h : asmCommand opcode fixed es = some bs) : ∃ (f : List Byte) (cs : List (List Byte)),
      fixed = some f ∧ es = cs.map some ∧ bs = opcode ++ (f ++ cs.flatten) ∧ ∀ c ∈ cs, StartsElement c := by
  unfold asmCommand at h
  split at h
  · next f es hes =>
    cases h
    obtain ⟨cs, rfl, rfl, hcs⟩ := asmElements_some hes
    exact ⟨f, cs, rfl, rfl, List.append_assoc _ _ _, hcs⟩
  · cases h

/-- Each element of a list of encodings that all have one length has it. -/
theorem length_of_map_some {ι : Type} {es : List ι} {f : ι → Option (List Byte)} {cs : List (List Byte)} {n : Nat}
    (hes : es.map f = cs.map some) (hf : ∀ e ∈ es, ∀ c, f e = some c → c.length = n) : ∀ c ∈ cs, c.length = n := by
  intro c hc
  have hmem : some c ∈ es.map f := hes ▸ List.mem_map_of_mem hc
  obtain ⟨e, he, hfe⟩ := List.mem_map.mp hmem
  exact hf e he c hfe

theorem length_asmAbs {p : Point} {bs : List Byte} (h : asmAbs p = some bs) : bs.length = 3 := by
  unfold asmAbs at h
  split at h <;> cases h
  rfl

theorem length_asmShort {d : Int × Int} {bs : List Byte} (h : asmShort d = some bs) : bs.length = 1 := by
  unfold asmShort at h
  split at h <;> cases h
  rfl

theorem length_asmMedium {d : Int × Int} {bs : List Byte} (h : asmMedium d = some bs) : bs.length = 2 := by
  unfold asmMedium at h
  split at h <;> cases h
  rfl

/-- A selector lengthens an element by the bytes that the flags ask for. -/
theorem length_asmSelected {sel : Option Byte} {flags : Byte} (hsel : sel.isSome = usesTexture flags)
    {e : Option (List Byte)} {n : Nat} (he : ∀ bs, e = some bs → bs.length = n) {bs : List Byte}
    (h : asmSelected sel e = some bs) : bs.length = selectorBytes flags + n := by
  obtain ⟨cs, hcs, rfl⟩ := Option.map_eq_some_iff.mp h
  rw [List.length_append, length_selector hsel, he cs hcs]

/-! ### Consuming with drawing disabled -/

/-- Elements of `n` bytes each are consumed one after another, and the loop ends after them. -/
theorem whileElements_consumes {α : Type} {element : α → State → Flow α} (hadv : Advances element) {n : Nat} {flags : Byte}
    (htakes : ∀ a s, s.visualEnabled = false → s.patternFlags = flags → Takes n s (element a s)) {cs : List (List Byte)}
    (hstarts : ∀ c ∈ cs, StartsElement c) (hlen : ∀ c ∈ cs, c.length = n) (a : α) {s : State}
    (hvis : s.visualEnabled = false) (hflags : s.patternFlags = flags) {rest : List Byte}
    (hdrop : s.prog.drop s.pos = cs.flatten ++ rest) (hend : endsBefore rest) :
    ∃ b, whileElements element a s = .done b (s.setPos (s.pos + cs.flatten.length)) := by
  induction cs generalizing a s with
  | nil => exact ⟨a, whileElements_endsBefore a hdrop hend⟩
  | cons c cs ih =>
    rw [List.flatten_cons, List.append_assoc] at hdrop
    have hc := hlen c (by simp)
    have hleft : n ≤ bytesLeft s := by
      rw [bytesLeft_of_drop hdrop, List.length_append]
      omega
    obtain ⟨b, hb⟩ := (htakes a s hvis hflags).1 hleft
    have hdrop' : (s.setPos (s.pos + n)).prog.drop (s.setPos (s.pos + n)).pos = cs.flatten ++ rest := hc ▸ drop_append hdrop
    obtain ⟨e, he⟩ := ih (fun d hd => hstarts d (by simp [hd])) (fun d hd => hlen d (by simp [hd])) b
      (s := s.setPos (s.pos + n)) hvis hflags hdrop'
    refine ⟨e, ?_⟩
    rw [whileElements_starts hadv a hdrop (hstarts c (by simp)), hb, Flow.bind_done, he, List.flatten_cons,
      List.length_append, hc, ← Nat.add_assoc]
    rfl

/-- A fixed part and then elements, in a disabled drawing command. -/
theorem fixed_whileElements_consumes {α : Type} {element : α → State → Flow α} (hadv : Advances element) {n : Nat}
    {s : State} (htakes : ∀ a t, t.visualEnabled = false → t.patternFlags = s.patternFlags → Takes n t (element a t))
    {f : List Byte} {x : Flow α} (hx : Takes f.length s x) {cs : List (List Byte)}
    (hstarts : ∀ c ∈ cs, StartsElement c) (hlen : ∀ c ∈ cs, c.length = n) (hvis : s.visualEnabled = false)
    {rest : List Byte} (hdrop : s.prog.drop s.pos = f ++ cs.flatten ++ rest) (hend : endsBefore rest) :
    (x.bind (whileElements element)).outcome = .next (s.setPos (s.pos + (f ++ cs.flatten).length)) := by
  rw [List.append_assoc] at hdrop
  have hleft : f.length ≤ bytesLeft s := by
    rw [bytesLeft_of_drop hdrop, List.length_append]
    omega
  obtain ⟨a, ha⟩ := hx.1 hleft
  obtain ⟨b, hb⟩ := whileElements_consumes hadv htakes hstarts hlen a (s := s.setPos (s.pos + f.length)) hvis rfl
    (drop_append hdrop) hend
  rw [ha, Flow.bind_done, hb, List.length_append, ← Nat.add_assoc]
  rfl

theorem polyline_consumes {next : Point → State → Flow Point} (hmove : ∀ p s, Moves 1 s (next p s)) {n : Nat}
    (htakes : ∀ p s, Takes n s (next p s)) {s : State} (hvis : s.visualEnabled = false) {f : List Byte}
    (hf : f.length = 3) {cs : List (List Byte)} (hstarts : ∀ c ∈ cs, StartsElement c) (hlen : ∀ c ∈ cs, c.length = n)
    {rest : List Byte} (hdrop : s.prog.drop s.pos = f ++ cs.flatten ++ rest) (hend : endsBefore rest) :
    (polyline next s).outcome = .next (s.setPos (s.pos + (f ++ cs.flatten).length)) := by
  rw [polyline, Flow.outcome_void]
  exact fixed_whileElements_consumes (advances_segment hmove) (fun a t ht _ => takes_segment htakes ht a)
    (hf ▸ takes_fetchAbs s) hstarts hlen hvis hdrop hend

theorem patternWalk_consumes {next : Point → State → Flow Point} (hmove : ∀ p s, Moves 1 s (next p s)) {n : Nat}
    (htakes : ∀ p s, Takes n s (next p s)) {s : State} (hvis : s.visualEnabled = false) {f : List Byte}
    (hf : f.length = selectorBytes s.patternFlags + 3) {cs : List (List Byte)} (hstarts : ∀ c ∈ cs, StartsElement c)
    (hlen : ∀ c ∈ cs, c.length = selectorBytes s.patternFlags + n)
    {rest : List Byte} (hdrop : s.prog.drop s.pos = f ++ cs.flatten ++ rest) (hend : endsBefore rest) :
    (patternWalk next s).outcome = .next (s.setPos (s.pos + (f ++ cs.flatten).length)) := by
  rw [patternWalk_eq next ⟨0, 0⟩, Flow.outcome_void]
  exact fixed_whileElements_consumes (advances_stampElement hmove)
    (fun a t ht hflags => hflags ▸ takes_stampElement htakes ht a)
    (hf ▸ takes_stampElement (next := nextAbs) (fun _ => takes_fetchAbs) hvis _) hstarts hlen hvis hdrop hend

/-! ### The step that runs a line -/

/-- Where the opcode bytes of an instruction stand at `pos`, the step runs it (O1, R70). -/
theorem step_of_encode {s : State} (hrun : s.status = .running) (hpos : s.pos ≠ 0) {i : Instr} (hwf : i.wellFormed = true)
    (hi : i ≠ .extendedCommand) {rest : List Byte} (hdrop : s.prog.drop s.pos = encode i ++ rest) :
    step s = exec i (s.setPos (s.pos + (encode i).length)) := by
  refine step_of_fetchCommand hrun hpos ?_
  rw [fetchCommand, instructionBytes, hdrop]
  exact decodeOfEncode i rest hwf fun h => absurd h hi

/-- What O59 says of a line that does not end the picture. -/
def StepConsumes (s : State) (n : Nat) : Prop :=
  ∃ t, step s = .next t ∧ t.pos = s.pos + n ∧ t.fault = s.fault ∧ t.fb = s.fb ∧ t.status = .running

section
variable {s : State} (hrun : s.status = .running) (hpos : s.pos ≠ 0)
include hrun hpos

/-- A line whose instruction, run on the payload, leaves `t` in which the payload is consumed. -/
theorem stepConsumes_of_exec {i : Instr} (hwf : i.wellFormed = true) (hi : i ≠ .extendedCommand) {payload rest : List Byte}
    (hdrop : s.prog.drop s.pos = encode i ++ payload ++ rest)
    (h : ∀ u, u = s.setPos (s.pos + (encode i).length) → u.prog.drop u.pos = payload ++ rest →
      ∃ t, exec i u = .next t ∧ t.pos = u.pos + payload.length ∧ t.fault = u.fault ∧ t.fb = u.fb ∧ t.status = u.status) :
    StepConsumes s (encode i ++ payload).length := by
  rw [List.append_assoc] at hdrop
  obtain ⟨t, hexec, htpos, hfault, hfb, hstatus⟩ := h _ rfl (drop_append hdrop)
  refine ⟨t, (step_of_encode hrun hpos hwf hi hdrop).trans hexec, ?_, hfault, hfb, hstatus.trans hrun⟩
  rw [htpos, List.length_append, ← Nat.add_assoc]
  rfl

/-- The same where nothing but `pos` changes. -/
theorem stepConsumes_of_setPos {i : Instr} (hwf : i.wellFormed = true) (hi : i ≠ .extendedCommand)
    {payload rest : List Byte} (hdrop : s.prog.drop s.pos = encode i ++ payload ++ rest)
    (h : ∀ u, u = s.setPos (s.pos + (encode i).length) → u.prog.drop u.pos = payload ++ rest →
      exec i u = .next (u.setPos (u.pos + payload.length))) :
    StepConsumes s (encode i ++ payload).length :=
  stepConsumes_of_exec hrun hpos hwf hi hdrop fun u hu hrest => ⟨_, h u hu hrest, rfl, rfl, rfl, rfl⟩

end

/-! ### The lines by their formats -/

theorem exists_entryBytes {entries : List (Byte × Byte)} (h : ∀ e ∈ entries, e.1.toNat < 160) :
    ∃ es : List (Fin 160 × Byte), entryBytes es = (entries.map fun e => [e.1, e.2]).flatten := by
  induction entries with
  | nil => exact ⟨[], rfl⟩
  | cons e entries ih =>
    obtain ⟨es, hes⟩ := ih fun d hd => h d (by simp [hd])
    refine ⟨(⟨e.1.toNat, h e (by simp)⟩, e.2) :: es, ?_⟩
    rw [entryBytes_cons, hes, BitVec.ofNat_toNat, BitVec.setWidth_eq]
    rfl

/-- A skip goes exactly to the end of a payload without command bytes. -/
theorem takeWhile_payload {payload rest : List Byte} (h : ∀ b ∈ payload, b.toNat < 0xF0) (hend : endsBefore rest) :
    (payload ++ rest).takeWhile (fun b => decide (b.toNat < 0xF0)) = payload := by
  rw [List.takeWhile_append_of_pos fun b hb => decide_eq_true (h b hb)]
  cases rest with
  | nil => exact List.append_nil _
  | cons b rest =>
    have hb : 0xF0 ≤ b.toNat := hend b rfl
    rw [List.takeWhile_cons_of_neg (by simpa using hb), List.append_nil]

/-- The seven rows that skip, by their sub-opcodes. -/
theorem exists_skipping_row : ∀ n : Fin 7, ∃ i ∈ [Instr.ext02, .ext03, .ext04, .ext05, .ext06, .ext07, .ext08],
    i.wellFormed = true ∧ i ≠ .extendedCommand ∧ encode i = [0xFE, BitVec.ofNat 8 (n.val + 2)] := by
  decide

section
variable {s : State} (hrun : s.status = .running) (hpos : s.pos ≠ 0) (hvis : s.visualEnabled = false) {rest : List Byte}
  (hend : endsBefore rest)
include hrun hpos hvis hend

theorem stepConsumes_polyline {next : Point → State → Flow Point} (hmove : ∀ p s, Moves 1 s (next p s)) {n : Nat}
    (htakes : ∀ p s, Takes n s (next p s)) {i : Instr} (hwf : i.wellFormed = true) (hi : i ≠ .extendedCommand)
    (hexec : ∀ u, exec i u = (polyline next u).outcome) {ι : Type} {es : List ι} {encodeDelta : ι → Option (List Byte)}
    (hdelta : ∀ e bs, encodeDelta e = some bs → bs.length = n) {p : Point} {bs : List Byte}
    (hasm : asmCommand (encode i) (asmAbs p) (es.map encodeDelta) = some bs) (hdrop : s.prog.drop s.pos = bs ++ rest) :
    StepConsumes s bs.length := by
  obtain ⟨f, cs, hf, hes, rfl, hstarts⟩ := asmCommand_some hasm
  refine stepConsumes_of_setPos hrun hpos hwf hi hdrop fun u hu hrest => ?_
  subst hu
  rw [hexec]
  exact polyline_consumes (s := s.setPos (s.pos + (encode i).length)) hmove htakes hvis (length_asmAbs hf) hstarts
    (length_of_map_some hes fun e _ c hc => hdelta e c hc) hrest hend

theorem stepConsumes_patternWalk {next : Point → State → Flow Point} (hmove : ∀ p s, Moves 1 s (next p s)) {n : Nat}
    (htakes : ∀ p s, Takes n s (next p s)) {i : Instr} (hwf : i.wellFormed = true) (hi : i ≠ .extendedCommand)
    (hexec : ∀ u, exec i u = (patternWalk next u).outcome) {δ : Type} {es : List (Option Byte × δ)}
    {encodeDelta : δ → Option (List Byte)} (hdelta : ∀ d bs, encodeDelta d = some bs → bs.length = n)
    {sel : Option Byte} (hsel : sel.isSome = usesTexture s.patternFlags)
    (hsels : ∀ e ∈ es, e.1.isSome = usesTexture s.patternFlags) {p : Point} {bs : List Byte}
    (hasm : asmCommand (encode i) (asmSelected sel (asmAbs p)) (es.map fun e => asmSelected e.1 (encodeDelta e.2)) = some bs)
    (hdrop : s.prog.drop s.pos = bs ++ rest) : StepConsumes s bs.length := by
  obtain ⟨f, cs, hf, hes, rfl, hstarts⟩ := asmCommand_some hasm
  refine stepConsumes_of_setPos hrun hpos hwf hi hdrop fun u hu hrest => ?_
  subst hu
  rw [hexec]
  exact patternWalk_consumes (s := s.setPos (s.pos + (encode i).length)) hmove htakes hvis
    (length_asmSelected hsel (fun _ => length_asmAbs) hf) hstarts
    (length_of_map_some hes fun e he c hc => length_asmSelected (hsels e he) (hdelta e.2) hc) hrest hend

/-- A payload of elements alone, each of `n` bytes. -/
theorem stepConsumes_elements {α : Type} {element : α → State → Flow α} (hadv : Advances element) {n : Nat}
    (htakes : ∀ a t, t.visualEnabled = false → t.patternFlags = s.patternFlags → Takes n t (element a t)) (a : α)
    {i : Instr} (hwf : i.wellFormed = true) (hi : i ≠ .extendedCommand)
    (hexec : ∀ u, exec i u = (whileElements element a u).outcome) {ι : Type} {es : List ι}
    {encodeElement : ι → Option (List Byte)} (hlen : ∀ e ∈ es, ∀ bs, encodeElement e = some bs → bs.length = n)
    {bs : List Byte} (hasm : asmCommand (encode i) (some []) (es.map encodeElement) = some bs)
    (hdrop : s.prog.drop s.pos = bs ++ rest) : StepConsumes s bs.length := by
  obtain ⟨f, cs, hf, hes, rfl, hstarts⟩ := asmCommand_some hasm
  obtain rfl : [] = f := Option.some.inj hf
  refine stepConsumes_of_setPos hrun hpos hwf hi hdrop fun u hu hrest => ?_
  subst hu
  obtain ⟨b, hb⟩ := whileElements_consumes hadv htakes hstarts (length_of_map_some hes hlen) a
    (s := s.setPos (s.pos + (encode i).length)) hvis rfl hrest hend
  rw [hexec, hb]
  rfl

omit hvis in
theorem stepConsumes_setPaletteEntries {entries : List (Byte × Byte)} (hrange : ∀ e ∈ entries, e.1.toNat < 160)
    {bs : List Byte} (hasm : assemble (.setPaletteEntries entries) = some bs) (hdrop : s.prog.drop s.pos = bs ++ rest) :
    StepConsumes s bs.length := by
  obtain ⟨f, cs, hf, hes, rfl, -⟩ := asmCommand_some hasm
  obtain rfl : [] = f := Option.some.inj hf
  obtain ⟨es, hbytes⟩ := exists_entryBytes hrange
  have hcs : cs = entries.map fun e => [e.1, e.2] := by
    refine List.map_injective_iff.mpr (Option.some_injective _) (hes.symm.trans ?_)
    rw [List.map_map]
    rfl
  rw [List.nil_append, hcs, ← hbytes] at hdrop ⊢
  refine stepConsumes_of_exec hrun hpos (i := .setPaletteEntries) rfl Instr.noConfusion hdrop fun u hu hrest => ?_
  refine ⟨_, (setPaletteEntriesWrites u es ⟨rest, hrest, hend⟩).1, ?_⟩
  rw [writeEntries_eq, length_entryBytes]
  exact ⟨rfl, rfl, rfl, rfl⟩

omit hvis in
theorem stepConsumes_ext {n : Fin 7} {payload bs : List Byte} (hasm : assemble (.ext n payload) = some bs)
    (hdrop : s.prog.drop s.pos = bs ++ rest) : StepConsumes s bs.length := by
  obtain ⟨f, cs, hf, hes, rfl, hstarts⟩ := asmCommand_some hasm
  obtain rfl : [] = f := Option.some.inj hf
  obtain ⟨i, hi, hwf, hne, henc⟩ := exists_skipping_row n
  have hcs : cs = payload.map fun b => [b] := by
    refine List.map_injective_iff.mpr (Option.some_injective _) (hes.symm.trans ?_)
    rw [List.map_map]
    rfl
  have hflat : cs.flatten = payload := by
    rw [hcs, ← List.flatMap_def, List.flatMap_singleton']
  have hlow : ∀ b ∈ payload, b.toNat < 0xF0 := by
    intro b hb
    obtain ⟨c, more, hc, hlt⟩ := hstarts [b] (by rw [hcs]; exact List.mem_map_of_mem hb)
    cases hc
    exact hlt
  rw [List.nil_append, hflat, ← henc] at hdrop ⊢
  refine stepConsumes_of_setPos hrun hpos hwf hne hdrop fun u hu hrest => ?_
  rw [skippedPayload.1 i u hi, hrest, takeWhile_payload hlow hend]
  rfl

end

/-- Every line but `pictureEnd`, format by format. -/
theorem stepConsumes_of_assemble {s : State} {line : AsmLine} {bs : List Byte} (hasm : assemble line = some bs)
    (hrunnable : line.Runnable s.patternFlags) (hrun : s.status = .running) (hpos : s.pos ≠ 0)
    (hvis : s.visualEnabled = false) (hpay : PayloadIs s bs) (hline : line ≠ .pictureEnd) : StepConsumes s bs.length := by
  obtain ⟨rest, hdrop, hend⟩ := hpay
  cases line with
  | header => exact hrunnable.elim
  | bytes _ => exact hrunnable.elim
  | pictureEnd => exact absurd rfl hline
  | setVisualColor c =>
    cases hasm
    exact stepConsumes_of_exec hrun hpos (i := .setVisualColor) (payload := [c]) rfl Instr.noConfusion hdrop
      fun u _ hrest => ⟨_, setVisualColorRule.1 u c hrunnable (drop_cons hrest).1, rfl, rfl, rfl, rfl⟩
  | disableVisual =>
    cases hasm
    exact stepConsumes_of_exec hrun hpos (i := .disableVisual) (payload := []) rfl Instr.noConfusion hdrop
      fun u _ _ => ⟨_, rfl, rfl, rfl, rfl, rfl⟩
  | setPriorityColor b =>
    cases hasm
    exact stepConsumes_of_setPos hrun hpos (i := .setPriorityColor) (payload := [b]) rfl Instr.noConfusion hdrop
      fun u _ hrest => by rw [exec_ignoredColour (.inl rfl), fetch_of_drop hrest]; rfl
  | disablePriority =>
    cases hasm
    exact stepConsumes_of_setPos hrun hpos (i := .disablePriority) (payload := []) rfl Instr.noConfusion hdrop
      fun u _ _ => rfl
  | shortRelativePatterns sel p es =>
    exact stepConsumes_patternWalk hrun hpos hvis hend Moves.nextShort takes_nextShort (i := .shortRelativePatterns) rfl
      Instr.noConfusion (fun _ => rfl) (encodeDelta := asmShort) (fun _ _ => length_asmShort) hrunnable.1 hrunnable.2 hasm hdrop
  | mediumRelativeLines p es =>
    exact stepConsumes_polyline hrun hpos hvis hend Moves.nextMedium takes_nextMedium (i := .mediumRelativeLines) rfl
      Instr.noConfusion (fun _ => rfl) (fun _ _ => length_asmMedium) hasm hdrop
  | longLines p es =>
    exact stepConsumes_polyline hrun hpos hvis hend Moves.nextAbs (fun _ => takes_fetchAbs) (i := .longLines) rfl
      Instr.noConfusion (fun _ => rfl) (fun _ _ => length_asmAbs) hasm hdrop
  | shortRelativeLines p es =>
    exact stepConsumes_polyline hrun hpos hvis hend Moves.nextShort takes_nextShort (i := .shortRelativeLines) rfl
      Instr.noConfusion (fun _ => rfl) (fun _ _ => length_asmShort) hasm hdrop
  | floodFill es =>
    exact stepConsumes_elements hrun hpos hvis hend advances_seed (fun a _ ht _ => takes_seed ht a) () (i := .floodFill) rfl
      Instr.noConfusion (fun _ => rfl) (fun _ _ _ => length_asmAbs) hasm hdrop
  | setPattern b =>
    cases hasm
    exact stepConsumes_of_exec hrun hpos (i := .setPattern) (payload := [b]) rfl Instr.noConfusion hdrop
      fun u _ hrest => ⟨_, setPatternRule.1 u b (drop_cons hrest).1, rfl, rfl, rfl, rfl⟩
  | longPatterns es =>
    exact stepConsumes_elements hrun hpos hvis hend (advances_stampElement Moves.nextAbs)
      (fun p _ ht hflags => hflags ▸ takes_stampElement (next := nextAbs) (fun _ => takes_fetchAbs) ht p) ⟨0, 0⟩
      (i := .longPatterns) rfl Instr.noConfusion (exec_longPatterns_eq ⟨0, 0⟩)
      (fun e he _ hc => length_asmSelected (hrunnable e he) (fun _ => length_asmAbs) hc) hasm hdrop
  | setControlColor b =>
    cases hasm
    exact stepConsumes_of_setPos hrun hpos (i := .setControlColor) (payload := [b]) rfl Instr.noConfusion hdrop
      fun u _ hrest => by rw [exec_ignoredColour (.inr rfl), fetch_of_drop hrest]; rfl
  | disableControl =>
    cases hasm
    exact stepConsumes_of_setPos hrun hpos (i := .disableControl) (payload := []) rfl Instr.noConfusion hdrop
      fun u _ _ => rfl
  | mediumRelativePatterns sel p es =>
    exact stepConsumes_patternWalk hrun hpos hvis hend Moves.nextMedium takes_nextMedium (i := .mediumRelativePatterns) rfl
      Instr.noConfusion (fun _ => rfl) (encodeDelta := asmMedium) (fun _ _ => length_asmMedium) hrunnable.1 hrunnable.2 hasm hdrop
  | setPaletteEntries entries => exact stepConsumes_setPaletteEntries hrun hpos hend hrunnable hasm hdrop
  | setEntirePalette bank colours =>
    cases hasm
    refine stepConsumes_of_exec hrun hpos (i := .setEntirePalette) (payload := bank :: colours.toList) rfl
      Instr.noConfusion hdrop fun u _ hrest => ?_
    have hbank : BitVec.ofNat 8 bank.toNat = bank := by rw [BitVec.ofNat_toNat, BitVec.setWidth_eq]
    obtain ⟨t, hexec, ht, -⟩ := setEntirePaletteWrites u ⟨bank.toNat, hrunnable⟩ colours ⟨rest, by rw [hrest, hbank]⟩
    refine ⟨t, hexec, ?_⟩
    rw [ht, List.length_cons, Vector.length_toList]
    exact ⟨rfl, rfl, rfl, rfl⟩
  | ext n payload => exact stepConsumes_ext hrun hpos hend hasm hdrop

/-- Settles O59: each line but one consumes its bytes and keeps running, and `pictureEnd` halts. -/
theorem assembledLineIsOneCommand : Obligations.AssembledLineIsOneCommand := by
  intro s line bs hasm hrunnable hrun hpos hvis hpay
  by_cases hline : line = .pictureEnd
  · subst hline
    cases hasm
    obtain ⟨rest, hdrop, -⟩ := hpay
    exact ⟨_, step_of_encode hrun hpos (i := .pictureEnd) rfl Instr.noConfusion hdrop, rfl, rfl, rfl, rfl⟩
  · obtain ⟨t, hstep, htpos, hfault, hfb, hstatus⟩ := stepConsumes_of_assemble hasm hrunnable hrun hpos hvis hpay hline
    exact ⟨t, hstep, htpos, hfault, hfb, by rw [if_neg hline, hstatus]⟩

end Sys2Proof.Machine
end

section
/-! Proofs of the family 'other', the flood fill (R110 to R115). -/

namespace Sys2Proof.Machine

/-! ### The checks and the turns of the loop -/

theorem floodFill_notBackground {s : State} {p : Point} (hp : onCanvas p = true)
    (hb : fbGet (address p) s.fb ≠ background) (hpen : s.visualEnabled = true → s.pen ≠ none) :
    floodFill p s = .done () s := by
  cases hvis : s.visualEnabled with
  | false => exact floodFill_disabled hvis p
  | true =>
    obtain ⟨pen, hpen⟩ := Option.ne_none_iff_exists'.mp (hpen hvis)
    rw [floodFill_enabled hvis hpen, fbRead_of_onCanvas hp, Flow.bind_done, if_neg hb]

theorem floodFill_background {s : State} {pen : Pen} (hvis : s.visualEnabled = true) (hpen : s.pen = some pen) {p : Point}
    (hp : onCanvas p = true) (hb : fbGet (address p) s.fb = background) :
    floodFill p s = fillLoop pen fbCells [p] [p] s := by
  rw [floodFill_enabled hvis hpen, fbRead_of_onCanvas hp, Flow.bind_done, if_pos hb]

theorem wanted_iff {m : Framebuffer} {visited : List Point} {p : Point} : wanted m visited p = true ↔
    onCanvas p = true ∧ p ∉ visited ∧ fbGet (address p) m = background := by
  simp [wanted, and_assoc]

/-- The state in which a popped site is painted. -/
def paintSite (pen : Pen) (c : Point) (s : State) : State := s.setFb (fbPut (address c) (eff pen c) s.fb)

theorem fillLoop_succ {pen : Pen} {n : Nat} {visited rest : List Point} {c : Point} {s : State} (hc : onCanvas c = true) :
    fillLoop pen (n + 1) visited (c :: rest) s =
      match pushSites (paintSite pen c s).fb (neighbours c) visited rest with
      | none => .raised (takeFault .fillStackOverflow (paintSite pen c s))
      | some (v, st) => fillLoop pen n v st (paintSite pen c s) := by
  rw [fillLoop, fbWrite_of_onCanvas hc, Flow.bind_done]
  rfl

theorem fillLoop_overflow {pen : Pen} {n : Nat} {visited rest : List Point} {c : Point} {s : State}
    (hc : onCanvas c = true) (h : pushSites (paintSite pen c s).fb (neighbours c) visited rest = none) :
    fillLoop pen (n + 1) visited (c :: rest) s = .raised (takeFault .fillStackOverflow (paintSite pen c s)) := by
  rw [fillLoop_succ hc, h]

theorem fillLoop_turn {pen : Pen} {n : Nat} {visited rest v st : List Point} {c : Point} {s : State}
    (hc : onCanvas c = true) (h : pushSites (paintSite pen c s).fb (neighbours c) visited rest = some (v, st)) :
    fillLoop pen (n + 1) visited (c :: rest) s = fillLoop pen n v st (paintSite pen c s) := by
  rw [fillLoop_succ hc, h]

theorem fillLoop_nil (pen : Pen) (n : Nat) (visited : List Point) (s : State) : fillLoop pen n visited [] s = .done () s := by
  rw [fillLoop]

/-- Settles O47, clause by clause. -/
theorem fillChecks : Obligations.FillChecks := by
  refine ⟨fun s p => ⟨fun h => floodFill_disabled h p, fun hv hp => floodFill_penUnset hv hp p,
    fun hv hp hc => floodFill_outside hv hp hc, fun _ hp hc hb => floodFill_notBackground hc hb fun _ => hp⟩,
    fun m p ps visited stack hc hnot hb => ?push, fun _ => rfl, fun s pen p hv hp hc hb => floodFill_background hv hp hc hb,
    fun pen n visited stack c s hc =>
      ⟨fillLoop_overflow hc, fun v st => fillLoop_turn hc, fillLoop_nil pen n visited s⟩⟩
  case push =>
    rw [pushSites, if_pos (wanted_iff.mpr ⟨hc, hnot, hb⟩), List.length_cons]
    exact ⟨fun h => if_neg (by unfold fillBound; omega), fun h => if_pos (by unfold fillBound; omega)⟩

/-! ### What the loop keeps -/

/-- Where a push overflows, the sites pushed so far and the one too many are new and wanted. -/
theorem pushSites_none {fb : Framebuffer} {ps visited stack : List Point} (h : pushSites fb ps visited stack = none) :
    ∃ new, new.Nodup ∧ fillBound < (new ++ stack).length ∧
      ∀ p ∈ new, p ∈ ps ∧ p ∉ visited ∧ onCanvas p = true ∧ fbGet (address p) fb = background := by
  induction ps generalizing visited stack with
  | nil => cases h
  | cons p ps ih =>
    unfold pushSites at h
    split at h
    · next hw =>
      obtain ⟨hc, hnot, hb⟩ := wanted_iff.mp hw
      split at h
      · next hover => exact ⟨[p], by simp, hover, by simpa using ⟨hnot, hc, hb⟩⟩
      · obtain ⟨new, hnd, hlen, hnew⟩ := ih h
        have hp : p ∉ new := fun hmem => (hnew p hmem).2.1 (by simp)
        refine ⟨new ++ [p], List.nodup_append.mpr ⟨hnd, by simp, ?_⟩, by simpa using hlen, ?_⟩
        · rintro a ha b hb' rfl
          exact hp (List.mem_singleton.mp hb' ▸ ha)
        · intro q hq
          rcases List.mem_append.mp hq with hq | hq
          · obtain ⟨hqps, hqv, hqc, hqb⟩ := hnew q hq
            exact ⟨by simp [hqps], fun hmem => hqv (by simp [hmem]), hqc, hqb⟩
          · obtain rfl := List.mem_singleton.mp hq
            exact ⟨by simp, hnot, hc, hb⟩
    · obtain ⟨new, hnd, hlen, hnew⟩ := ih h
      exact ⟨new, hnd, hlen, fun q hq => ⟨by simp [(hnew q hq).1], (hnew q hq).2⟩⟩

theorem Region.onCanvas {m : Framebuffer} {seed q : Point} (h : Region m seed q) : onCanvas q = true := by
  cases h with
  | start hc _ => exact hc
  | step p q _ _ hc _ => exact hc

theorem Region.seed_background {m : Framebuffer} {seed q : Point} (h : Region m seed q) :
    Machine.onCanvas seed = true ∧ fbGet (address seed) m = background := by
  induction h with
  | start hc hb => exact ⟨hc, hb⟩
  | step p q _ _ _ _ ih => exact ih

/-- The loop's invariant, on the framebuffer `m` before the fill: the sites marked are of the region; those no longer pending
are painted, and their neighbours in the region are marked; every other cell is as it was. -/
structure FillInv (m : Framebuffer) (pen : Pen) (seed : Point) (visited stack : List Point) (s : State) : Prop where
  region : ∀ q ∈ visited, Region m seed q
  seed_mem : seed ∈ visited
  pending : ∀ q ∈ stack, q ∈ visited
  nodup : stack.Nodup
  wf : Memory.wf s.fb = true
  painted : ∀ q ∈ visited, q ∉ stack → fbGet (address q) s.fb = eff pen q
  untouched : ∀ q, onCanvas q = true → (q ∉ visited ∨ q ∈ stack) → fbGet (address q) s.fb = fbGet (address q) m
  closed : ∀ q ∈ visited, q ∉ stack → ∀ r, UnitStep q r → onCanvas r = true → fbGet (address r) m = background →
    r ∈ visited

theorem FillInv.start {m : Framebuffer} {pen : Pen} {seed : Point} {s : State} (hm : s.fb = m) (hwf : Memory.wf m = true)
    (hc : onCanvas seed = true) (hb : fbGet (address seed) m = background) : FillInv m pen seed [seed] [seed] s where
  region := by simpa using Region.start hc hb
  seed_mem := by simp
  pending := fun _ h => h
  nodup := by simp
  wf := hm ▸ hwf
  painted := fun q hq hnot => absurd hq hnot
  untouched := fun q _ _ => by rw [hm]
  closed := fun q hq hnot => absurd hq hnot

section
variable {m : Framebuffer} {pen : Pen} {seed c : Point} {visited rest : List Point} {s : State}

/-- A cell after the popped site is painted. -/
theorem fbGet_paintSite (hwf : Memory.wf s.fb = true) (hc : onCanvas c = true) {q : Point} (hq : onCanvas q = true) :
    fbGet (address q) (paintSite pen c s).fb = if q = c then eff pen c else fbGet (address q) s.fb := by
  rw [paintSite, State.fb_setFb, fbGet_fbPut hwf]
  by_cases h : q = c
  · rw [if_pos h, if_pos (congrArg address h)]
  · rw [if_neg h, if_neg fun haddr => h (address_injective hq hc haddr)]

theorem FillInv.popped (h : FillInv m pen seed visited (c :: rest) s) : c ∈ visited ∧ onCanvas c = true :=
  ⟨h.pending c (by simp), (h.region c (h.pending c (by simp))).onCanvas⟩

/-- A site not marked reads, after the popped site is painted, as before the fill. -/
theorem FillInv.fbGet_unmarked (h : FillInv m pen seed visited (c :: rest) s) {q : Point} (hq : onCanvas q = true)
    (hnot : q ∉ visited) : fbGet (address q) (paintSite pen c s).fb = fbGet (address q) m := by
  obtain ⟨hcv, hc⟩ := h.popped
  have hne : q ≠ c := by rintro rfl; exact hnot hcv
  rw [fbGet_paintSite h.wf hc hq, if_neg hne, h.untouched q hq (.inl hnot)]

/-- A neighbour that is pushed is of the region. -/
theorem FillInv.region_of_pushed (h : FillInv m pen seed visited (c :: rest) s) {q : Point} (hq : q ∈ neighbours c)
    (hnot : q ∉ visited) (hqc : onCanvas q = true) (hb : fbGet (address q) (paintSite pen c s).fb = background) :
    Region m seed q :=
  Region.step c q (h.region c h.popped.1) ((mem_neighbours_iff c q).mp hq) hqc (h.fbGet_unmarked hqc hnot ▸ hb)

theorem FillInv.turn (h : FillInv m pen seed visited (c :: rest) s) {v st : List Point}
    (hpush : pushSites (paintSite pen c s).fb (neighbours c) visited rest = some (v, st)) :
    FillInv m pen seed v st (paintSite pen c s) := by
  obtain ⟨new, rfl, rfl, hnd, hnew, hall⟩ := pushSites_some hpush
  obtain ⟨hcv, hc⟩ := h.popped
  obtain ⟨hcrest, hrest⟩ := List.nodup_cons.mp h.nodup
  have hold : ∀ {q}, q ∈ new ++ visited → q ∉ new ++ rest → q ∈ visited ∧ q ∉ rest := by
    intro q hq hnot
    rw [List.mem_append, not_or] at hnot
    exact ⟨(List.mem_append.mp hq).resolve_left hnot.1, hnot.2⟩
  exact {
    region := fun q hq => by
      rcases List.mem_append.mp hq with hq | hq
      · obtain ⟨hqn, hqv, hqc, hqb⟩ := hnew q hq
        exact h.region_of_pushed hqn hqv hqc hqb
      · exact h.region q hq
    seed_mem := List.mem_append_right _ h.seed_mem
    pending := fun q hq => by
      rcases List.mem_append.mp hq with hq | hq
      · exact List.mem_append_left _ hq
      · exact List.mem_append_right _ (h.pending q (by simp [hq]))
    nodup := List.nodup_append.mpr ⟨hnd, hrest, by
      rintro a ha b hb rfl
      exact (hnew a ha).2.1 (h.pending a (by simp [hb]))⟩
    wf := wf_fbPut _ (address_lt hc) h.wf
    painted := fun q hq hnot => by
      obtain ⟨hqv, hqr⟩ := hold hq hnot
      rw [fbGet_paintSite h.wf hc (h.region q hqv).onCanvas]
      by_cases hqc : q = c
      · rw [if_pos hqc, hqc]
      · rw [if_neg hqc, h.painted q hqv (by simp [hqc, hqr])]
    untouched := fun q hqc hcases => by
      by_cases hqv : q ∈ visited
      · have hqr : q ∈ rest := by
          rcases hcases with hnot | hmem
          · exact absurd (List.mem_append_right _ hqv) hnot
          · exact (List.mem_append.mp hmem).resolve_left fun hn => (hnew q hn).2.1 hqv
        have hne : q ≠ c := by rintro rfl; exact hcrest hqr
        rw [fbGet_paintSite h.wf hc hqc, if_neg hne, h.untouched q hqc (.inr (by simp [hqr]))]
      · exact h.fbGet_unmarked hqc hqv
    closed := fun q hq hnot r hstep hrc hrb => by
      obtain ⟨hqv, hqr⟩ := hold hq hnot
      by_cases hrv : r ∈ visited
      · exact List.mem_append_right _ hrv
      · by_cases hqc : q = c
        · subst hqc
          exact hall r ((mem_neighbours_iff q r).mpr hstep) hrc ((h.fbGet_unmarked hrc hrv).trans hrb)
        · exact List.mem_append_right _ (h.closed q hqv (by simp [hqc, hqr]) r hstep hrc hrb) }

/-- A cell outside the region reads as before the fill. -/
theorem FillInv.outside {stack : List Point} (h : FillInv m pen seed visited stack s) {q : Point} (hq : onCanvas q = true)
    (hnot : ¬ Region m seed q) : fbGet (address q) s.fb = fbGet (address q) m :=
  h.untouched q hq (.inl fun hmem => hnot (h.region q hmem))

/-- When nothing is pending, the marked sites are the region. -/
theorem FillInv.mem_of_region (h : FillInv m pen seed visited [] s) {q : Point} (hq : Region m seed q) : q ∈ visited := by
  induction hq with
  | start _ _ => exact h.seed_mem
  | step p q _ hstep hc hb ih => exact h.closed p ih (by simp) q hstep hc hb

end

/-- How a fill of the region of `seed` can end: with nothing pending, or in a fault that leaves the cells outside the region
alone, and then the region has more sites than may be pending. -/
def FillEnds (m : Framebuffer) (pen : Pen) (seed : Point) (x : Flow Unit) : Prop :=
  match x with
  | .done _ t => ∃ visited, FillInv m pen seed visited [] t
  | .raised t => (∀ q, onCanvas q = true → ¬ Region m seed q → fbGet (address q) t.fb = fbGet (address q) m) ∧
      ∃ sites : List Point, sites.Nodup ∧ (∀ q ∈ sites, Region m seed q) ∧ fillBound < sites.length
  | .stuck _ => True

/-- Every end of the loop. -/
theorem fillLoop_ends {m : Framebuffer} {pen : Pen} {seed : Point} {visited stack : List Point} {s : State}
    (h : FillInv m pen seed visited stack s) (n : Nat) : FillEnds m pen seed (fillLoop pen n visited stack s) := by
  induction n generalizing visited stack s with
  | zero =>
    cases stack with
    | nil => exact ⟨visited, h⟩
    | cons c rest => trivial
  | succ n ih =>
    cases stack with
    | nil => exact ⟨visited, h⟩
    | cons c rest =>
      obtain ⟨hcv, hc⟩ := h.popped
      cases hpush : pushSites (paintSite pen c s).fb (neighbours c) visited rest with
      | some vs =>
        rw [fillLoop_turn (v := vs.1) (st := vs.2) hc hpush]
        exact ih (h.turn hpush)
      | none =>
        rw [fillLoop_overflow hc hpush]
        refine ⟨fun q hq hnot => h.fbGet_unmarked hq fun hmem => hnot (h.region q hmem), ?_⟩
        obtain ⟨new, hnd, hlen, hnew⟩ := pushSites_none hpush
        refine ⟨new ++ rest, List.nodup_append.mpr ⟨hnd, (List.nodup_cons.mp h.nodup).2, ?_⟩, fun q hq => ?_, hlen⟩
        · rintro a ha b hb rfl
          exact (hnew a ha).2.1 (h.pending a (by simp [hb]))
        · rcases List.mem_append.mp hq with hq | hq
          · obtain ⟨hqn, hqv, hqc, hqb⟩ := hnew q hq
            exact h.region_of_pushed hqn hqv hqc hqb
          · exact h.region q (h.pending q (by simp [hq]))

/-! ### The fill -/

section
variable {s : State} {pen : Pen} (hvis : s.visualEnabled = true) (hpen : s.pen = some pen) (hwf : Memory.wf s.fb = true)
  {p : Point}
include hvis hpen

/-- A fill whose seed is not a background cell of the canvas changes no cell, and its region is empty. -/
theorem floodFill_empty (hseed : ¬ (onCanvas p = true ∧ fbGet (address p) s.fb = background)) :
    (∀ q, ¬ Region s.fb p q) ∧ (floodFill p s).Leaves fun t => t.fb = s.fb := by
  refine ⟨fun q hq => hseed hq.seed_background, ?_⟩
  cases hp : onCanvas p with
  | false =>
    rw [floodFill_outside hvis (by rw [hpen]; exact Option.some_ne_none pen) hp]
    rfl
  | true =>
    rw [floodFill_notBackground hp (fun hb => hseed ⟨hp, hb⟩) fun _ => by rw [hpen]; exact Option.some_ne_none pen]
    rfl

include hwf

theorem floodFill_ends (hp : onCanvas p = true) (hb : fbGet (address p) s.fb = background) :
    FillEnds s.fb pen p (floodFill p s) := by
  rw [floodFill_background hvis hpen hp hb]
  exact fillLoop_ends (FillInv.start rfl hwf hp hb) _

/-- A fill that completes has painted its region. -/
theorem floodFill_paints {t : State} (h : floodFill p s = .done () t) {q : Point} (hq : Region s.fb p q) :
    fbGet (address q) t.fb = eff pen q := by
  obtain ⟨hp, hb⟩ := hq.seed_background
  have hends := floodFill_ends hvis hpen hwf hp hb
  rw [h] at hends
  obtain ⟨visited, hinv⟩ := hends
  exact hinv.painted q (hinv.mem_of_region hq) (by simp)

/-- No fill changes a cell outside its region. -/
theorem floodFill_outside_region {q : Point} (hq : onCanvas q = true) (hnot : ¬ Region s.fb p q) :
    (floodFill p s).Leaves fun t => fbGet (address q) t.fb = fbGet (address q) s.fb := by
  by_cases hseed : onCanvas p = true ∧ fbGet (address p) s.fb = background
  · have hends := floodFill_ends hvis hpen hwf hseed.1 hseed.2
    cases hx : floodFill p s with
    | done a t =>
      rw [hx] at hends
      obtain ⟨visited, hinv⟩ := hends
      exact hinv.outside hq hnot
    | raised t =>
      rw [hx] at hends
      exact hends.1 q hq hnot
    | stuck r => trivial
  · exact Flow.leaves_mono (floodFill_empty hvis hpen hseed).2 fun t ht => by rw [ht]

/-- A fill overflows only where its region has more cells than may be pending. -/
theorem floodFill_completes (hp : onCanvas p = true) {cells : List Point} (hcells : ∀ q, Region s.fb p q → q ∈ cells)
    (hlen : cells.length ≤ fillBound) : ∃ t, floodFill p s = .done () t := by
  by_cases hb : fbGet (address p) s.fb = background
  · have hends := floodFill_ends hvis hpen hwf hp hb
    cases hx : floodFill p s with
    | done a t => exact ⟨t, rfl⟩
    | raised t =>
      rw [hx] at hends
      obtain ⟨-, sites, hnd, hregion, hmany⟩ := hends
      have hle := (List.subperm_of_subset hnd fun q hq => hcells q (hregion q hq)).length_le
      omega
    | stuck r => exact absurd hx (floodFill_not_stuck p s r)
  · exact ⟨s, floodFill_notBackground hp hb fun _ => by rw [hpen]; exact Option.some_ne_none pen⟩

end

/-- The registers after a fill, completed or not. -/
theorem floodFill_registers (p : Point) (s : State) :
    (floodFill p s).Leaves fun t => t = { s with status := t.status, fault := t.fault, fb := t.fb } := by
  refine Flow.leaves_mono (floodFill_leaves p s) fun t h => ?_
  obtain ⟨hform, -, -⟩ := h
  rcases hform with ht | ⟨f, -, ht⟩
  · rw [ht]
    rfl
  · rw [ht]
    rfl

/-- Settles O46, from the ends of the loop. -/
theorem fillPaintsTheRegion : Obligations.FillPaintsTheRegion := by
  intro s t pen p hvis hpen hwf
  refine ⟨fun h => ⟨floodFill_done h, fun q _ hq => floodFill_paints hvis hpen hwf h hq⟩, fun h => ?_⟩
  have of_leaves : ∀ {Q : State → Prop}, (floodFill p s).Leaves Q → Q t := by
    intro Q hQ
    rcases h with h | h
    · rw [h] at hQ
      exact hQ
    · rw [h] at hQ
      exact hQ
  exact ⟨of_leaves (floodFill_registers p s),
    fun q hq hnot => of_leaves (floodFill_outside_region hvis hpen hwf hq hnot)⟩

/-- Settles O48. -/
theorem smallFillCompletes : Obligations.SmallFillCompletes :=
  fun _ _ _ _ hvis hpen hwf hp hcells hlen => floodFill_completes hvis hpen hwf hp hcells hlen

/-! ### The command -/

/-- A pixel of the canvas can be a seed: its coordinates fit and its first byte is no command. -/
theorem encodable_of_onCanvas {p : Point} (hp : onCanvas p = true) : Encodable p ∧ StartsElement (encodeAbs p) := by
  rw [onCanvas_iff] at hp
  refine ⟨by unfold Encodable; omega, startsElement_cons ?_ _⟩
  rw [BitVec.toNat_ofNat]
  omega

/-- Settles O49: the one fill, and the end of the loop. -/
theorem floodFillOneSeed : Obligations.FloodFillOneSeed := by
  rintro s pen p cells hvis hpen hwf hp hcells hlen ⟨rest, hdrop, hend⟩
  obtain ⟨henc, hstarts⟩ := encodable_of_onCanvas hp
  obtain ⟨t, ht⟩ := floodFill_completes (s := s.setPos (s.pos + 3)) hvis hpen hwf hp hcells hlen
  have hform := floodFill_done ht
  have hrest : t.prog.drop t.pos = rest := by
    rw [hform]
    exact drop_append hdrop
  refine ⟨t, ?_, hform, fun q hq => ⟨fun hreg => floodFill_paints (s := s.setPos (s.pos + 3)) hvis hpen hwf ht hreg,
    fun hnot => (floodFill_outside_region (s := s.setPos (s.pos + 3)) hvis hpen hwf hq hnot).of_done ht⟩⟩
  rw [exec_floodFill_of_seed henc hstarts hdrop, ht, Flow.bind_done, whileElements_endsBefore () hrest hend]
  rfl

/-- Settles O50: the loop, unfolded once. -/
theorem floodFillSeedsInTurn : Obligations.FloodFillSeedsInTurn := by
  refine ⟨fun s => exec_floodFill_of_nextIsCommand, ?_⟩
  rintro s u lx ly ⟨rest, hdrop⟩ hu
  show (whileElements seed () s).outcome = _
  rw [whileElements_starts advances_seed () (bs := [u, lx, ly]) hdrop (startsElement_cons hu _), seed,
    fetchAbs_of_drop hdrop, Flow.bind_done]
  show ((floodFill (absPoint u lx ly) { s with pos := s.pos + 3 }).bind _).outcome = _
  cases floodFill (absPoint u lx ly) { s with pos := s.pos + 3 } <;> rfl

/-- Cells that are not background stay. -/
def KeepsPainted (s t : State) : Prop := ∀ a, fbGet a s.fb ≠ background → fbGet a t.fb = fbGet a s.fb

theorem KeepsPainted.trans {s t u : State} (h : KeepsPainted s t) (h' : KeepsPainted t u) : KeepsPainted s u :=
  fun a ha => (h' a (h a ha ▸ ha)).trans (h a ha)

theorem seeds_keepPainted (s : State) : (whileElements seed () s).Leaves (KeepsPainted s) := by
  refine whileElements_leaves (R := KeepsPainted) (fun _ _ _ => rfl) KeepsPainted.trans (fun _ t => ?_) () s
  refine Flow.leaves_bind (R := KeepsPainted) KeepsPainted.trans ?_ fun p u _ =>
    Flow.leaves_mono (floodFill_leaves p u) fun _ h => h.2.2
  exact Flow.leaves_mono (inert_fetchAbs t) fun u hu a _ => by rw [hu.fb_eq]

/-- Settles O51. -/
theorem floodFillFrame : Obligations.FloodFillFrame :=
  fun s _ h => ⟨exec_frame h, Flow.of_outcome_next (seeds_keepPainted s) h⟩

end Sys2Proof.Machine
end

section
/-! Proofs of the family 'other', the stamp (R126 to R134). -/

namespace Sys2Proof.Machine

/-! ### The configured tables, size by size -/

theorem shape_cases {motive : Fin 8 → Bool → Prop} (rectangle : ∀ size, motive size true) (dot : motive 0 false)
    (circle : ∀ size : Fin 7, motive size.succ false) (size : Fin 8) (rect : Bool) : motive size rect := by
  cases rect with
  | true => exact rectangle size
  | false =>
    cases size using Fin.cases with
    | zero => exact dot
    | succ i => exact circle i

theorem configuredCells_rectangle (c : PatternConfig) (size : Fin 8) :
    configuredCells c size true = rectangleCells c.rectangles[size] := rfl

theorem configuredCells_circle (c : PatternConfig) (size : Fin 7) :
    configuredCells c size.succ false = c.circles[size].cells.dedup := rfl

theorem homePosition_rectangle (c : PatternConfig) (size : Fin 8) :
    homePosition c size true = c.rectangles[size].anchor := rfl

theorem homePosition_circle (c : PatternConfig) (size : Fin 7) :
    homePosition c size.succ false = c.circles[size].anchor := rfl

theorem nodup_configuredCells (c : PatternConfig) : ∀ size rect, (configuredCells c size rect).Nodup :=
  shape_cases (fun _ => nodup_rectangleCells _) (List.nodup_singleton _) (fun _ => List.nodup_dedup _)

/-! ### The footprint at its own place -/

/-- The pixel of a canvas place. -/
def placePixel (e : Fin 320 × Fin 190) : Point := ⟨e.1.val, e.2.val⟩

theorem placePixel_injective : Function.Injective placePixel := by
  rintro ⟨a, b⟩ ⟨a', b'⟩ h
  obtain ⟨hx, hy⟩ := Point.mk.inj h
  exact Prod.ext (Fin.ext (Int.ofNat.inj hx)) (Fin.ext (Int.ofNat.inj hy))

/-- A footprint at its own place covers the configured cells, in their order. -/
theorem map_plus_homePosition (c : PatternConfig) (size : Fin 8) (rect : Bool) :
    (footprint c size rect).map (Point.plus (homePosition c size rect)) = (configuredCells c size rect).map placePixel := by
  rw [footprint, List.map_map]
  refine List.map_congr_left fun e _ => ?_
  simp [Point.plus, placePixel]

theorem nodup_footprint (c : PatternConfig) (size : Fin 8) (rect : Bool) : (footprint c size rect).Nodup := by
  have hplaced := (nodup_configuredCells c size rect).map placePixel_injective
  rw [← map_plus_homePosition] at hplaced
  exact hplaced.of_map _

theorem between_iff {n : Nat} {a b k : Fin n} :
    between a b k = true ↔ min a.val b.val ≤ k.val ∧ k.val ≤ max a.val b.val := by
  rw [between, Bool.and_eq_true, decide_eq_true_iff, decide_eq_true_iff, Fin.le_def, Fin.le_def, Fin.coe_min, Fin.coe_max]

theorem mem_rectangle_iff {r : Rectangle} {p : Point} :
    p ∈ (rectangleCells r).map placePixel ↔
      min r.corner.1.val r.opposite.1.val ≤ p.x ∧ p.x ≤ max r.corner.1.val r.opposite.1.val ∧
      min r.corner.2.val r.opposite.2.val ≤ p.y ∧ p.y ≤ max r.corner.2.val r.opposite.2.val := by
  simp only [List.mem_map, mem_rectangleCells, inRectangle, Bool.and_eq_true, between_iff]
  constructor
  · rintro ⟨e, ⟨⟨hx, hx'⟩, hy, hy'⟩, rfl⟩
    simp only [placePixel]
    omega
  · rintro ⟨hx, hx', hy, hy'⟩
    have hcolumn : p.x.toNat < 320 := by omega
    have hrow : p.y.toNat < 190 := by omega
    have hpixel : placePixel (⟨p.x.toNat, hcolumn⟩, ⟨p.y.toNat, hrow⟩) = p := by
      rw [placePixel, Point.mk.injEq]
      dsimp only
      omega
    refine ⟨_, ?_, hpixel⟩
    dsimp only
    omega

/-- An order that names each pixel of the rectangle once is the order of its cells. -/
theorem rectangleCells_of_order {r : Rectangle} (hnd : r.order.Nodup)
    (hmem : ∀ e, e ∈ r.order ↔ inRectangle r e = true) : rectangleCells r = r.order := by
  have hall : r.order.filter (inRectangle r) = r.order := List.filter_eq_self.mpr fun e he => (hmem e).mp he
  have hnone : ((rectangleRows r).filter fun e => !r.order.contains e) = [] :=
    List.filter_eq_nil_iff.mpr fun e he => by simp [(hmem e).mpr (mem_rectangleRows.mp he)]
  rw [rectangleCells, hall, hnone, hnd.dedup, List.append_nil]

/-! ### The clamp -/

/-- Only the circle of size 0 on the canvas keeps its position whatever the clamp says (R133). -/
theorem clampStamp_configured {c : PatternConfig} {size : Fin 8} {rect : Bool} {p : Point}
    (hfit : fitsAt c size rect (clampTo (configuredClamp c size rect) p) = true)
    (hdot : ¬ (size = 0 ∧ rect = false ∧ onCanvas p = true)) :
    clampStamp c size rect p = clampTo (configuredClamp c size rect) p := by
  have hskip : ¬ (isDot size rect && onCanvas p) = true := by simpa [isDot, and_assoc] using hdot
  rw [clampStamp, if_neg hskip, if_pos hfit]

theorem clampStamp_dot {p : Point} (c : PatternConfig) (h : onCanvas p = true) : clampStamp c 0 false p = p := by
  simp [clampStamp, isDot, h]

theorem stampPixels_dot {flags : Byte} {p : Point} (c : PatternConfig) (hsize : patternSize flags = 0)
    (hcircle : isRectangle flags = false) (h : onCanvas p = true) : stampPixels c none flags p = [p] := by
  simp [stampPixels, stampOffsets, hsize, hcircle, footprint_dot, clampStamp_dot c h, Point.plus]

/-- The configuration with other clamps. -/
def withClamps (c : PatternConfig) (clamps : Fin 8 → Bool → StampClamp) : PatternConfig :=
  { c with
    circles := Vector.ofFn fun i => { c.circles[i] with clamp := clamps i.succ false }
    dotClamp := clamps 0 false
    rectangles := Vector.ofFn fun i => { c.rectangles[i] with clamp := clamps i true } }

section
variable (c : PatternConfig) (clamps : Fin 8 → Bool → StampClamp)

theorem circles_withClamps (i : Fin 7) :
    (withClamps c clamps).circles[i] = { c.circles[i] with clamp := clamps i.succ false } := by
  simp [withClamps]

theorem rectangles_withClamps (i : Fin 8) :
    (withClamps c clamps).rectangles[i] = { c.rectangles[i] with clamp := clamps i true } := by
  simp [withClamps]

theorem configuredClamp_withClamps : ∀ size rect, configuredClamp (withClamps c clamps) size rect = clamps size rect :=
  shape_cases (fun i => congrArg Rectangle.clamp (rectangles_withClamps c clamps i)) rfl
    (fun i => congrArg Circle.clamp (circles_withClamps c clamps i))

theorem homePosition_withClamps : ∀ size rect, homePosition (withClamps c clamps) size rect = homePosition c size rect :=
  shape_cases (fun i => (congrArg Rectangle.anchor (rectangles_withClamps c clamps i) :)) rfl
    (fun i => (congrArg Circle.anchor (circles_withClamps c clamps i) :))

theorem configuredCells_withClamps :
    ∀ size rect, configuredCells (withClamps c clamps) size rect = configuredCells c size rect :=
  shape_cases (fun i => (congrArg rectangleCells (rectangles_withClamps c clamps i) :)) rfl
    (fun i => (congrArg (fun k => k.cells.dedup) (circles_withClamps c clamps i) :))

theorem footprint_withClamps (size : Fin 8) (rect : Bool) :
    footprint (withClamps c clamps) size rect = footprint c size rect := by
  simp only [footprint, configuredCells_withClamps, homePosition_withClamps]

end

theorem exists_stampClamp (f : Point → Point) (ps : List Point) : ∃ k, ∀ p ∈ ps, clampTo k p = f p := by
  obtain ⟨column, hcolumn⟩ := exists_clampTerm (fun p => (f p).x) ps
  obtain ⟨row, hrow⟩ := exists_clampTerm (fun p => (f p).y) ps
  refine ⟨⟨column, row⟩, fun p hp => ?_⟩
  rw [clampTo, hcolumn p hp, hrow p hp]

/-- Every clamp that keeps footprints on the canvas, and the dot where it is, is some configuration's on a list of
positions (R130, R133). -/
theorem exists_withClamps (c : PatternConfig) (f : Fin 8 → Bool → Point → Point) (ps : List Point)
    (hfit : ∀ size rect p, fitsAt c size rect (f size rect p) = true)
    (hdot : ∀ p, onCanvas p = true → f 0 false p = p) :
    ∃ clamps, ∀ p ∈ ps, ∀ size rect, clampStamp (withClamps c clamps) size rect p = f size rect p := by
  choose clamps hclamps using fun size rect => exists_stampClamp (f size rect) ps
  refine ⟨clamps, fun p hp size rect => ?_⟩
  by_cases h : size = 0 ∧ rect = false ∧ onCanvas p = true
  · obtain ⟨rfl, rfl, hp⟩ := h
    rw [clampStamp_dot _ hp, hdot p hp]
  · have hto : clampTo (configuredClamp (withClamps c clamps) size rect) p = f size rect p := by
      rw [configuredClamp_withClamps, hclamps size rect p hp]
    rw [clampStamp_configured _ h, hto]
    rw [hto, fitsAt, footprint_withClamps]
    exact hfit size rect p

/-- Settles O54, from the configured cells at their own place, and for the clamps by `exists_withClamps`. -/
theorem stampPlacement : Obligations.StampPlacement := by
  intro c
  refine ⟨fun _ _ _ _ => onCanvas_of_mem_stampPixels, fun _ _ => stampPixels_dot c, nodup_footprint c, fun size p => ?_,
    fun size hnd hmem => ?_, fun size p => ?_, fun size hnd => ?_,
    fun size rect p hfit => clampStamp_configured (List.all_eq_true.mpr hfit), fun f ps hfit hdot => ?_⟩
  · rw [← homePosition_rectangle, map_plus_homePosition, configuredCells_rectangle, mem_rectangle_iff]
  · rw [← homePosition_rectangle, map_plus_homePosition, configuredCells_rectangle, rectangleCells_of_order hnd hmem]
    rfl
  · rw [← homePosition_circle, map_plus_homePosition, configuredCells_circle]
    simp only [List.mem_map, List.mem_dedup, placePixel, eq_comm]
  · rw [← homePosition_circle, map_plus_homePosition, configuredCells_circle, hnd.dedup]
    rfl
  · obtain ⟨clamps, hclamps⟩ :=
      exists_withClamps c f ps (fun size rect p => List.all_eq_true.mpr (hfit size rect p)) hdot
    exact ⟨withClamps c clamps, rfl, rfl, footprint_withClamps c clamps, hclamps⟩

/-! ### The texture -/

/-- The texture position that many pixels further (R128, R131). -/
def texAfter (k : Fin 254) (n : Nat) : Fin 254 := ⟨(k.val + n) % 254, Nat.mod_lt _ (by decide)⟩

theorem texAfter_zero (k : Fin 254) : texAfter k 0 = k := Fin.ext (Nat.mod_eq_of_lt k.isLt)

theorem texNext_texAfter (k : Fin 254) (n : Nat) : texNext (texAfter k n) = texAfter k (n + 1) := by
  refine Fin.ext ?_
  simp only [texNext, texAfter, texWrap]
  omega

/-- Pixel `n + j` takes the texture bit that many positions after the start. -/
theorem texturedPixels_eq (c : PatternConfig) (k : Fin 254) (os : List Point) (n : Nat) :
    texturedPixels c os (texAfter k n) = ((os.zipIdx n).filter fun e => texBit c (texAfter k e.2)).map Prod.fst := by
  induction os generalizing n with
  | nil => rfl
  | cons o os ih =>
    rw [texturedPixels, List.zipIdx_cons, List.filter_cons, texNext_texAfter, ih (n + 1)]
    split
    · rw [List.map_cons]
    · rfl

/-- Settles O55: the offsets that the texture lets through, by `texturedPixels_eq` from the start position on. -/
theorem stampPixelSelection : Obligations.StampPixelSelection := by
  intro c flags p
  refine ⟨rfl, fun sel => ?_, fun b j h => ?_⟩
  · have hpixels := texturedPixels_eq c (textureStart c sel) (footprint c (patternSize flags) (isRectangle flags)) 0
    rw [texAfter_zero] at hpixels
    rw [stampPixels, stampOffsets, hpixels, List.map_map]
    rfl
  · have hbyte : (8 * b.val + j.val) / 8 = b.val := by omega
    have hbit : (8 * b.val + j.val) % 8 = j.val := by omega
    simp only [texBit, hbyte, hbit]
    rfl

end Sys2Proof.Machine
end
